-- ==== Sys2Proof/Word.lean ====
section
/-! DEFINITION. The words of the panel driver: a channel value, a pixel, the names of the 13 output
lines and of the two clocks and two holds. No operation stands here. -/

namespace Sys2Proof

/-- Eight bits of a word on the host's port; the port's layout is the model's own (log 1). -/
abbrev Byte := BitVec 8

/-- One colour channel: a 16-bit PWM intensity (R37). -/
abbrev Channel := BitVec 16

/-- A pixel: "three independent 16-bit PWM intensities (R, G, B)" (R37). -/
structure Pixel where
  r : Channel
  g : Channel
  b : Channel
  deriving DecidableEq, Repr, Inhabited

/-- The pixel (0,0,0): what a guarded read gives outside the grid (R52), what clearing writes (R19). -/
def Pixel.zero : Pixel := ⟨0, 0, 0⟩

/-- Full white, R=G=B=0xFFFF: what TEXT draws with (R165). -/
def Pixel.white : Pixel := ⟨0xFFFF, 0xFFFF, 0xFFFF⟩

/-- The 13 output lines, in index order 0 to 12 (R21). -/
inductive Line where
  | gclk | dclk | le
  | a0 | a1 | a2 | a3
  | r1 | g1 | b1 | r2 | g2 | b2
  deriving DecidableEq, Repr, Inhabited

/-- The six colour data lines (R21): those of which one carries the configuration bits (R76). -/
inductive DataLine where
  | r1 | g1 | b1 | r2 | g2 | b2
  deriving DecidableEq, Repr, Inhabited

/-- The two clock lines, the only lines `PULSE` takes (R102). -/
inductive Clock where
  | gclk | dclk
  deriving DecidableEq, Repr, Inhabited

/-- The two lengths of a hold: `T_PW` and `T_DEAD` (R31, R101). -/
inductive Hold where
  | pw | dead
  deriving DecidableEq, Repr, Inhabited

end Sys2Proof
end

