-- ==== Sys2Proof/Config.lean ====
section
/-! DEFINITION. What is fixed for one machine: the geometry the source fixes (R8, R10), the
parameters the spec leaves open or decides (R8), and the free values, which are constants without
a body. -/

namespace Sys2Proof

namespace Config

/-- `W`: frame buffer width (R8). -/
abbrev width : Nat := 88
/-- `H`: frame buffer height (R8). -/
abbrev height : Nat := 88
/-- `N_SCAN`: scanlines, addresses 0 to 10 (R8). -/
abbrev scanlines : Nat := 11
/-- `ROWS_PER_SCAN`: row stride per scanline index (R8). -/
abbrev rowsPerScan : Nat := 8
/-- `CHAIN2_OFFSET`: row offset of chain 2 (R8). -/
abbrev chain2Offset : Nat := 44
/-- `N_IC`: driver ICs per chain (R8). -/
abbrev ics : Nat := 22
/-- `N_LED`: LED outputs per IC (R8). -/
abbrev leds : Nat := 16
/-- `N_PLANE`: PWM bit-planes (R8). -/
abbrev planes : Nat := 16
/-- `N_GCLK`: GCLK pulses per scanline before the dead-time pulse (R8). -/
abbrev gclkPulses : Nat := 256

/-- FREE VALUE, `FB_RESET`: what the pixel at column x, row y holds after the n-th hardware reset;
"unspecified (any value per channel)" (R40, U1; log 6). -/
opaque fbReset : Nat → Nat → Nat → Pixel

/-- FREE VALUE, `CONFIG_VALUE` (R8, R30, U2; log 8). -/
opaque configValue : BitVec 16
/-- FREE VALUE, `T_PW` (R8, R31, U8; log 8). -/
opaque pulseWidth : Nat
/-- FREE VALUE, `T_DEAD` (R8, R31, U8; log 8). -/
opaque deadTime : Nat
/-- FREE VALUE, `GW` (R8, R164; log 8). -/
opaque glyphWidth : Nat
/-- FREE VALUE, `GH` (R8, R164; log 8). -/
opaque glyphHeight : Nat
/-- FREE VALUE, `TEXT_MAX` (R8, R165; log 8, log 18). -/
opaque textMax : Nat
/-- FREE VALUE, `FONT`: each character that has a glyph, with its rows of cells, top row first and
left cell first (R8, R164; log 8, log 17). -/
opaque font : List (Char × List (List Bool))

/-- The default `COLMAP`, position `ic*16 + led` to the column of that number when it is below `W`,
else none (R8, R57, D13). Entry `ic*16 + led` of the list is position (ic, led). -/
def defaultColmap : List (Option Nat) :=
  (List.range (ics * leds)).map fun n => if n < width then some n else none

end Config

/-- The parameters of R8 that are not plain constants of the geometry. They are plain data: the model
"takes the parameters of this table as arguments" (R8), so a claim about a state is a claim for all
their values. `FB_RESET` is `Config.fbReset`. -/
structure Params where
  /-- `CONFIG_VALUE`, the 16 opaque bits INIT sends (R30). -/
  configValue : BitVec 16
  /-- `T_PW` (R31). -/
  pulseWidth : Nat
  /-- `T_DEAD` (R31). -/
  deadTime : Nat
  /-- `CFG_LINE` (R76): "one designated data line" (log 27). -/
  cfgLine : DataLine
  /-- `COLMAP` (R57): entry `ic*16 + led` is the column of position (ic, led) (log 29). -/
  colmap : List (Option Nat)
  /-- `GPIO_FALLIBLE`: whether a line write can report failure (R180). -/
  gpioFallible : Bool
  /-- `GW` (R164). -/
  glyphWidth : Nat
  /-- `GH` (R164). -/
  glyphHeight : Nat
  /-- `FONT` (R164). -/
  font : List (Char × List (List Bool))
  /-- `TEXT_MAX` (R165). -/
  textMax : Nat
  deriving DecidableEq, Repr

/-- The parameters of the machine that starts at `State.reset`: the open ones are free values, the
decided ones have the spec's defaults, `CFG_LINE = R1` (D9), the default `COLMAP` (D13) and
`GPIO_FALLIBLE = false` (D19). -/
def Config.params : Params where
  configValue := Config.configValue
  pulseWidth := Config.pulseWidth
  deadTime := Config.deadTime
  cfgLine := .r1
  colmap := Config.defaultColmap
  gpioFallible := false
  glyphWidth := Config.glyphWidth
  glyphHeight := Config.glyphHeight
  font := Config.font
  textMax := Config.textMax

end Sys2Proof
end

