-- ==== Sys2Proof/Syntax.lean ====
section
/-! DEFINITION. The operations of the hardware (R2), one constructor for each row of
spec/opcode_table.json. -/

namespace Sys2Proof

/-- What the spec calls an operation (R2): a host request, an encoder procedure, a pulse primitive or
event, or a frame-buffer operation. Operand widths are those of the table or, where the table
gives none, of the counter that ranges over the operand (R32). -/
inductive Instr where
  /-- `CMD DataLatch`, pulse count 1 (R115). -/
  | cmdDataLatch
  /-- `CMD Vsync`, pulse count 2 (R116). -/
  | cmdVsync
  /-- `CMD WriteConfig`, pulse count 4 (R114). -/
  | cmdWriteConfig
  /-- `CMD Reset`, pulse count 10 (R112). -/
  | cmdReset
  /-- `CMD PreActive`, pulse count 14 (R113). -/
  | cmdPreActive
  /-- A numeric `CMD` with a count that names no command (R73). -/
  | cmdReserved (n : Nat)
  /-- Request `INIT`, code 0b00 (R142). -/
  | init
  /-- Request `REFRESH`, code 0b01 (R144). -/
  | refresh
  /-- Request `TEARDOWN`, code 0b10 (R147). -/
  | teardown
  /-- The reserved request, code 0b11 (R151). -/
  | reqReserved
  /-- `CFG v`, send_config (R117). -/
  | cfg (v : BitVec 16)
  /-- `SCAN a`, set_scanline (R131). -/
  | scan (a : BitVec 4)
  /-- `SDATA s`, send_scanline_data (R133). -/
  | sdata (s : BitVec 4)
  /-- `SYMBOL(s, ic, plane, led)`, one symbol of `SDATA s` (R133). -/
  | sdataSymbol (s : BitVec 4) (ic : BitVec 5) (plane : BitVec 4) (led : BitVec 4)
  /-- `SCANPERIOD(s)` (R145). -/
  | scanPeriod (s : BitVec 4)
  /-- The event `W(L, v)` (R100). -/
  | w (l : Line) (v : Bool)
  /-- The event `H(k)` (R101). -/
  | h (k : Hold)
  /-- `PULSE(c)` (R102). -/
  | pulse (c : Clock)
  /-- The event `CLR` (R19, R148). -/
  | clr
  /-- `CLEAR` (R161). -/
  | clear
  /-- `SETPX x y r g b` (R162). -/
  | setpx (x : Nat) (y : Nat) (r : Channel) (g : Channel) (b : Channel)
  /-- `FILLRECT x1 y1 x2 y2 r g b` (R163). -/
  | fillrect (x1 : Nat) (y1 : Nat) (x2 : Nat) (y2 : Nat) (r : Channel) (g : Channel) (b : Channel)
  /-- `TEXT s`; the unit is the character (R165). -/
  | text (cs : List Char)
  /-- `FBRead(x, y)` (R52). -/
  | fbread (x : Nat) (y : Nat)
  deriving DecidableEq, Repr

end Sys2Proof
end

