-- ==== Sys2Proof/WellFormed.lean ====
section
/-! DEFINITION. Which instructions are well formed: operands in the range the spec gives them, and
coordinates and counts that fit the model's port (log 1). -/

namespace Sys2Proof

/-- The counts that name no command: "the counts 0, 3, 5, 6, 7, 8, 9, 11, 12, 13, 15 and every count
above 15" (R73). -/
def isReservedCount (n : Nat) : Bool :=
  !(n == 1 || n == 2 || n == 4 || n == 10 || n == 14)

/-- A scanline index or scanline address in the range 0 to 10 (R131, R133, R145). -/
def isScanline (a : BitVec 4) : Bool := a.toNat ≤ 10

/-- An IC index in the range 0 to 21 (R32). -/
def isIc (ic : BitVec 5) : Bool := ic.toNat ≤ 21

/-- A coordinate that fits the 16 bits the model's port gives it; "a port may use any width of 7 bits
or more" (R51; log 1). -/
def fitsPort (n : Nat) : Bool := n < 65536

/-- Well-formedness, one line per instruction. -/
def Instr.wellFormed : Instr → Bool
  | .cmdDataLatch => true
  | .cmdVsync => true
  | .cmdWriteConfig => true
  | .cmdReset => true
  | .cmdPreActive => true
  | .cmdReserved n => isReservedCount n && decide (n < 256)
  | .init => true
  | .refresh => true
  | .teardown => true
  | .reqReserved => true
  | .cfg _ => true
  | .scan a => isScanline a
  | .sdata s => isScanline s
  | .sdataSymbol s ic _ _ => isScanline s && isIc ic
  | .scanPeriod s => isScanline s
  | .w _ _ => true
  | .h _ => true
  | .pulse _ => true
  | .clr => true
  | .clear => true
  | .setpx x y _ _ _ => fitsPort x && fitsPort y
  | .fillrect x1 y1 x2 y2 _ _ _ => fitsPort x1 && fitsPort y1 && fitsPort x2 && fitsPort y2
  | .text _ => true
  | .fbread x y => fitsPort x && fitsPort y

end Sys2Proof
end

