-- ==== Sys2Proof/Decode.lean ====
section
/-! DEFINITION. The decoder, total on any bytes and refusing by name, and the encoder. The block decodes one word of bits,
the 2-bit request (R85); the table gives other rows bits as operands or "as a tabular convenience"
(R72), and gives events and frame-buffer operations none. So a word on the model's port is a format byte
and that format's fields, a layout of the model's own (log 1). -/

namespace Sys2Proof

/-- The formats of opcode_table.json (its "format" column). -/
inductive Format where
  | req | cmd | cfgFrame | addr | sdata | symbol | scanPeriod | event | fbOp
  deriving DecidableEq, Repr

/-- Why the decoder refuses a word. -/
inductive DecodeError where
  /-- No byte at all. -/
  | noWord
  /-- The first byte names no format. -/
  | unknownFormat (b : Byte)
  /-- Too few or too many bytes for the format. -/
  | badLength (f : Format)
  /-- A bit above the field's width is 1. -/
  | fieldTooWide (f : Format) (b : Byte)
  /-- A byte that names no line (R21). -/
  | unknownLine (b : Byte)
  /-- A byte that is no level (R100). -/
  | unknownLevel (b : Byte)
  /-- A byte that names no hold (R101). -/
  | unknownHold (b : Byte)
  /-- A byte that names no clock (R102). -/
  | unknownClock (b : Byte)
  /-- A byte that names no operation of its format. -/
  | unknownOperation (f : Format) (b : Byte)
  /-- A number that is no character. -/
  | notACharacter (n : Nat)
  deriving DecidableEq, Repr

/-- The format byte (log 1). -/
def Format.code : Format → Byte
  | .req => 0
  | .cmd => 1
  | .cfgFrame => 2
  | .addr => 3
  | .sdata => 4
  | .symbol => 5
  | .scanPeriod => 6
  | .event => 7
  | .fbOp => 8

/-- The format a byte names (log 1). -/
def Format.ofCode (b : Byte) : Option Format :=
  match b.toNat with
  | 0 => some .req
  | 1 => some .cmd
  | 2 => some .cfgFrame
  | 3 => some .addr
  | 4 => some .sdata
  | 5 => some .symbol
  | 6 => some .scanPeriod
  | 7 => some .event
  | 8 => some .fbOp
  | _ => none

/-- The index of a line (R21). -/
def lineCode : Line → Byte
  | .gclk => 0
  | .dclk => 1
  | .le => 2
  | .a0 => 3
  | .a1 => 4
  | .a2 => 5
  | .a3 => 6
  | .r1 => 7
  | .g1 => 8
  | .b1 => 9
  | .r2 => 10
  | .g2 => 11
  | .b2 => 12

/-- The line with an index (R21). -/
def lineOfCode (b : Byte) : Except DecodeError Line :=
  match b.toNat with
  | 0 => .ok .gclk
  | 1 => .ok .dclk
  | 2 => .ok .le
  | 3 => .ok .a0
  | 4 => .ok .a1
  | 5 => .ok .a2
  | 6 => .ok .a3
  | 7 => .ok .r1
  | 8 => .ok .g1
  | 9 => .ok .b1
  | 10 => .ok .r2
  | 11 => .ok .g2
  | 12 => .ok .b2
  | _ => .error (.unknownLine b)

/-- A level, 0 low or 1 high (R100). -/
def levelCode (v : Bool) : Byte := if v then 1 else 0

/-- The level a byte names (R100). -/
def levelOfCode (b : Byte) : Except DecodeError Bool :=
  match b.toNat with
  | 0 => .ok false
  | 1 => .ok true
  | _ => .error (.unknownLevel b)

/-- The byte of a hold: 0 `PW`, 1 `DEAD` (log 1). -/
def holdCode : Hold → Byte
  | .pw => 0
  | .dead => 1

/-- The hold a byte names (log 1). -/
def holdOfCode (b : Byte) : Except DecodeError Hold :=
  match b.toNat with
  | 0 => .ok .pw
  | 1 => .ok .dead
  | _ => .error (.unknownHold b)

/-- The byte of a clock: its line index (R21). -/
def clockCode : Clock → Byte
  | .gclk => 0
  | .dclk => 1

/-- The clock a byte names (R21, R102). -/
def clockOfCode (b : Byte) : Except DecodeError Clock :=
  match b.toNat with
  | 0 => .ok .gclk
  | 1 => .ok .dclk
  | _ => .error (.unknownClock b)

/-- The low byte of a 16-bit field. -/
def lowByte (v : BitVec 16) : Byte := v.setWidth 8

/-- The high byte of a 16-bit field. -/
def highByte (v : BitVec 16) : Byte := (v >>> 8).setWidth 8

/-- A 16-bit field from its low and its high byte. -/
def joinBytes (lo hi : Byte) : BitVec 16 := hi ++ lo

/-- A 16-bit field as two bytes, low byte first (log 1). -/
def halfBytes (v : BitVec 16) : List Byte := [lowByte v, highByte v]

/-- A coordinate as two bytes, low byte first (R51; log 1). -/
def coordBytes (n : Nat) : List Byte := halfBytes (BitVec.ofNat 16 n)

/-- A coordinate from its two bytes. -/
def coordOf (lo hi : Byte) : Nat := (joinBytes lo hi).toNat

/-- A character as its code point in three bytes, low byte first (log 1). -/
def charBytes (c : Char) : List Byte :=
  [BitVec.ofNat 8 c.toNat, BitVec.ofNat 8 (c.toNat / 256), BitVec.ofNat 8 (c.toNat / 65536)]

/-- The code point in three bytes. -/
def codePoint (a b c : Byte) : Nat := a.toNat + 256 * b.toNat + 65536 * c.toNat

/-- A text from its bytes, three to a character. -/
def decodeChars : List Byte → Except DecodeError (List Char)
  | [] => .ok []
  | a :: b :: c :: rest =>
    if (codePoint a b c).isValidChar then
      (decodeChars rest).map fun cs => Char.ofNat (codePoint a b c) :: cs
    else .error (.notACharacter (codePoint a b c))
  | _ => .error (.badLength .fbOp)

/-- The REQ word: `req_op[1:0]` (R85, R86). -/
def decodeReq : List Byte → Except DecodeError Instr
  | [b] =>
    match b.toNat with
    | 0 => .ok .init
    | 1 => .ok .refresh
    | 2 => .ok .teardown
    | 3 => .ok .reqReserved
    | _ => .error (.fieldTooWide .req b)
  | _ => .error (.badLength .req)

/-- A command by its pulse count (R72); any other count is a reserved one (R73). -/
def commandOfCount (n : Nat) : Instr :=
  if n = 1 then .cmdDataLatch
  else if n = 2 then .cmdVsync
  else if n = 4 then .cmdWriteConfig
  else if n = 10 then .cmdReset
  else if n = 14 then .cmdPreActive
  else .cmdReserved n

/-- A CMD word: the count as a byte; the table shows its low 4 bits (R72, R73). -/
def decodeCmd : List Byte → Except DecodeError Instr
  | [b] => .ok (commandOfCount b.toNat)
  | _ => .error (.badLength .cmd)

/-- A CFG word: the 16 bits of `v` (R74, R75). -/
def decodeCfg : List Byte → Except DecodeError Instr
  | [lo, hi] => .ok (.cfg (joinBytes lo hi))
  | _ => .error (.badLength .cfgFrame)

/-- A field of 4 bits in a byte. -/
def fourBits (f : Format) (b : Byte) : Except DecodeError (BitVec 4) :=
  if b.toNat < 16 then .ok (b.setWidth 4) else .error (.fieldTooWide f b)

/-- A field of 5 bits in a byte. -/
def fiveBits (f : Format) (b : Byte) : Except DecodeError (BitVec 5) :=
  if b.toNat < 32 then .ok (b.setWidth 5) else .error (.fieldTooWide f b)

/-- An ADDR word: the 4 bits of the address (R77). -/
def decodeAddr : List Byte → Except DecodeError Instr
  | [b] => (fourBits .addr b).map .scan
  | _ => .error (.badLength .addr)

/-- An SDATA word: the 4 bits of the scanline (R78, R89). -/
def decodeSdata : List Byte → Except DecodeError Instr
  | [b] => (fourBits .sdata b).map .sdata
  | _ => .error (.badLength .sdata)

/-- A symbol of SDATA by its position: scanline, IC, plane, LED (R78, R133). -/
def decodeSymbol : List Byte → Except DecodeError Instr
  | [s, ic, plane, led] =>
    match fourBits .symbol s, fiveBits .symbol ic, fourBits .symbol plane, fourBits .symbol led with
    | .ok s, .ok ic, .ok plane, .ok led => .ok (.sdataSymbol s ic plane led)
    | .error e, _, _, _ => .error e
    | _, .error e, _, _ => .error e
    | _, _, .error e, _ => .error e
    | _, _, _, .error e => .error e
  | _ => .error (.badLength .symbol)

/-- A SCANPERIOD word: the 4 bits of the scanline (R80, R89). -/
def decodeScanPeriod : List Byte → Except DecodeError Instr
  | [b] => (fourBits .scanPeriod b).map .scanPeriod
  | _ => .error (.badLength .scanPeriod)

/-- An event or a pulse: an operation byte, then its operands (R13, R102; log 1). -/
def decodeEvent : List Byte → Except DecodeError Instr
  | [] => .error (.badLength .event)
  | k :: rest =>
    match k.toNat, rest with
    | 0, [l, v] =>
      match lineOfCode l, levelOfCode v with
      | .ok l, .ok v => .ok (.w l v)
      | .error e, _ => .error e
      | _, .error e => .error e
    | 1, [b] => (holdOfCode b).map .h
    | 2, [b] => (clockOfCode b).map .pulse
    | 3, [] => .ok .clr
    | n, _ => if n < 4 then .error (.badLength .event) else .error (.unknownOperation .event k)

/-- A frame-buffer operation: an operation byte, then its operands (R88; log 1). -/
def decodeFbOp : List Byte → Except DecodeError Instr
  | [] => .error (.badLength .fbOp)
  | k :: rest =>
    match k.toNat, rest with
    | 0, [] => .ok .clear
    | 1, [xl, xh, yl, yh, rl, rh, gl, gh, bl, bh] =>
      .ok (.setpx (coordOf xl xh) (coordOf yl yh) (joinBytes rl rh) (joinBytes gl gh) (joinBytes bl bh))
    | 2, [al, ah, bl, bh, cl, ch, dl, dh, rl, rh, gl, gh, ul, uh] =>
      .ok (.fillrect (coordOf al ah) (coordOf bl bh) (coordOf cl ch) (coordOf dl dh)
        (joinBytes rl rh) (joinBytes gl gh) (joinBytes ul uh))
    | 3, cs => (decodeChars cs).map .text
    | 4, [xl, xh, yl, yh] => .ok (.fbread (coordOf xl xh) (coordOf yl yh))
    | n, _ => if n < 5 then .error (.badLength .fbOp) else .error (.unknownOperation .fbOp k)

/-- The decoder, total on any bytes: a format byte and then that format's fields. -/
def decode : List Byte → Except DecodeError Instr
  | [] => .error .noWord
  | f :: rest =>
    match Format.ofCode f with
    | none => .error (.unknownFormat f)
    | some .req => decodeReq rest
    | some .cmd => decodeCmd rest
    | some .cfgFrame => decodeCfg rest
    | some .addr => decodeAddr rest
    | some .sdata => decodeSdata rest
    | some .symbol => decodeSymbol rest
    | some .scanPeriod => decodeScanPeriod rest
    | some .event => decodeEvent rest
    | some .fbOp => decodeFbOp rest

/-- The format of an instruction: its row's "format" in opcode_table.json. -/
def Instr.format : Instr → Format
  | .cmdDataLatch => .cmd
  | .cmdVsync => .cmd
  | .cmdWriteConfig => .cmd
  | .cmdReset => .cmd
  | .cmdPreActive => .cmd
  | .cmdReserved _ => .cmd
  | .init => .req
  | .refresh => .req
  | .teardown => .req
  | .reqReserved => .req
  | .cfg _ => .cfgFrame
  | .scan _ => .addr
  | .sdata _ => .sdata
  | .sdataSymbol _ _ _ _ => .symbol
  | .scanPeriod _ => .scanPeriod
  | .w _ _ => .event
  | .h _ => .event
  | .pulse _ => .event
  | .clr => .event
  | .clear => .fbOp
  | .setpx _ _ _ _ _ => .fbOp
  | .fillrect _ _ _ _ _ _ _ => .fbOp
  | .text _ => .fbOp
  | .fbread _ _ => .fbOp

/-- The fields of an instruction's word after the format byte (R72, R74, R77, R78, R86, R88; log 1). -/
def encodeFields : Instr → List Byte
  | .cmdDataLatch => [0b0001]
  | .cmdVsync => [0b0010]
  | .cmdWriteConfig => [0b0100]
  | .cmdReset => [0b1010]
  | .cmdPreActive => [0b1110]
  | .cmdReserved n => [BitVec.ofNat 8 n]
  | .init => [0b00]
  | .refresh => [0b01]
  | .teardown => [0b10]
  | .reqReserved => [0b11]
  | .cfg v => halfBytes v
  | .scan a => [a.setWidth 8]
  | .sdata s => [s.setWidth 8]
  | .sdataSymbol s ic plane led => [s.setWidth 8, ic.setWidth 8, plane.setWidth 8, led.setWidth 8]
  | .scanPeriod s => [s.setWidth 8]
  | .w l v => [0, lineCode l, levelCode v]
  | .h k => [1, holdCode k]
  | .pulse c => [2, clockCode c]
  | .clr => [3]
  | .clear => [0]
  | .setpx x y r g b => 1 :: (coordBytes x ++ coordBytes y ++ halfBytes r ++ halfBytes g ++ halfBytes b)
  | .fillrect x1 y1 x2 y2 r g b =>
    2 :: (coordBytes x1 ++ coordBytes y1 ++ coordBytes x2 ++ coordBytes y2
      ++ halfBytes r ++ halfBytes g ++ halfBytes b)
  | .text cs => 3 :: cs.flatMap charBytes
  | .fbread x y => 4 :: (coordBytes x ++ coordBytes y)

/-- The encoder: the word of a well-formed instruction. -/
def encode (i : Instr) : List Byte := i.format.code :: encodeFields i

/-- The port word of a word of opcode_table.json with the given number of bits. Two bits are a REQ
word, four a CMD count, sixteen a CFG word. In whole bytes REQ and CMD words collide: the codes 0 to 3
are then read as the requests, since the request port is the only place where the block takes a word of bits
(R84, R85), and every other byte as a CMD count (log 2). -/
def tableWord (nbits w : Nat) : Option (List Byte) :=
  if nbits = 2 then
    if w < 4 then some [Format.req.code, BitVec.ofNat 8 w] else none
  else if nbits = 4 then
    if w < 16 then some [Format.cmd.code, BitVec.ofNat 8 w] else none
  else if nbits = 8 then
    if w < 4 then some [Format.req.code, BitVec.ofNat 8 w]
    else if w < 256 then some [Format.cmd.code, BitVec.ofNat 8 w]
    else none
  else if nbits = 16 then
    if w < 65536 then some (Format.cfgFrame.code :: halfBytes (BitVec.ofNat 16 w)) else none
  else none

/-- What the decoder reads from an opcode-table word. -/
def decodeTableWord (nbits w : Nat) : Option Instr :=
  match tableWord nbits w with
  | none => none
  | some bs => (decode bs).toOption

end Sys2Proof
end

