-- ==== Sys2Proof/Machine/State.lean ====
section
/-! DEFINITION. The state of the machine as plain data (R20), the reasons a step can stop, and the state after reset. -/

namespace Sys2Proof.Machine

/-- `LINE[0..12]`: 13 one-bit registers, true for high (R21). -/
structure Lines where
  gclk : Bool
  dclk : Bool
  le : Bool
  a0 : Bool
  a1 : Bool
  a2 : Bool
  a3 : Bool
  r1 : Bool
  g1 : Bool
  b1 : Bool
  r2 : Bool
  g2 : Bool
  b2 : Bool
  deriving DecidableEq, Repr, Inhabited

/-- All 13 lines low (R40, R147). -/
def Lines.low : Lines :=
  ⟨false, false, false, false, false, false, false, false, false, false, false, false, false⟩

/-- `LIFECYCLE`: "a 3-bit register holding one of six states" (R23); codes 6 and 7 are never held. -/
inductive Lifecycle where
  | uninitialized | reset | preActive | configured | teardown | initFailed
  deriving DecidableEq, Repr, Inhabited

/-- `OP`: the operation in progress (R34); code 3 never runs. -/
inductive Op where
  | init | refresh | teardown
  deriving DecidableEq, Repr, Inhabited

/-- An event: the block acts on the world only by events (R13). -/
inductive Event where
  /-- `W(L, v)`: write level `v` to line `L`. -/
  | w (l : Line) (v : Bool)
  /-- `H(PW)`, `H(DEAD)`: hold. -/
  | h (k : Hold)
  /-- `CLR`: set every pixel of the frame buffer to (0,0,0). -/
  | clr
  deriving DecidableEq, Repr

/-- What a pixel that no cell lists holds: the contents the n-th hardware reset left (R37), or zero after
a clear (R19, R161). -/
inductive Base where
  | powerOn (n : Nat)
  | cleared
  deriving DecidableEq, Repr

/-- The frame buffer `FB` (R37), the block's only memory: a list of (key, pixel) with rising keys over a
base (log 7). The spec gives it no linear address (R50); the key of (x, y) is the model's. -/
structure Memory where
  base : Base
  cells : List (Nat × Pixel)
  deriving DecidableEq, Repr

/-- The number of pixels, `W * H` = 7744 (R37). -/
abbrev pixelCount : Nat := 7744

/-- The key of the pixel at column x, row y. -/
abbrev pixelKey (x y : Nat) : Nat := y * 88 + x

/-- WHAT AN UNLISTED PIXEL READS AS: after a clear zero; after the n-th hardware reset, when nothing has
written it, the free value of that reset (R40, U1; log 6). -/
def Memory.unlisted (m : Memory) (key : Nat) : Pixel :=
  match m.base with
  | .powerOn n => Config.fbReset n (key % 88) (key / 88)
  | .cleared => Pixel.zero

/-- THE CANONICAL FORM (log 7). Keys rise strictly and lie in the grid. Over a clear no cell lists zero.
Over a reset a cell means "written since" and not every pixel is listed (the base is then a clear). -/
def Memory.wf (m : Memory) : Bool :=
  decide (m.cells.Pairwise fun a b => a.1 < b.1)
    && m.cells.all (fun c => decide (c.1 < pixelCount))
    && (match m.base with
        | .powerOn _ => decide (m.cells.length < pixelCount)
        | .cleared => m.cells.all fun c => decide (c.2 ≠ Pixel.zero))

/-- The inputs of one step (R150): the reset input and the word on the host's port. -/
structure StepInput where
  /-- `rst` (R200). -/
  rst : Bool
  /-- The word on the port; no byte at all means that nothing is presented (`req_valid = 0`, R84). -/
  port : List Byte
  deriving DecidableEq, Repr

/-- The inputs of a step for which none are listed: no reset, nothing presented (log 4). -/
def StepInput.none : StepInput := ⟨false, []⟩

/-- The state. The first eight fields are the tuple of R20, `params` the parameters of R8; the rest is the
model's own (INVENTORY.md, State). -/
structure State where
  /-- `LINE[0..12]` (R21). -/
  lines : Lines
  /-- `LIFECYCLE` (R23). -/
  lifecycle : Lifecycle
  /-- `BUSY` (R25). -/
  busy : Bool
  /-- `ERR_INIT` (R26). -/
  errInit : Bool
  /-- `ERR_STEADY` (R26). -/
  errSteady : Bool
  /-- `OP` (R34). -/
  op : Op
  /-- `IDX`, 20 bits (R34). -/
  idx : BitVec 20
  /-- `FB` (R37). -/
  fb : Memory
  /-- The parameters of R8. -/
  params : Params
  /-- MODEL'S OWN: the inputs of the coming steps, one element per step (log 4). -/
  inputs : List StepInput
  /-- MODEL'S OWN: the environment's answers to the coming line writes, true for failed (R180, U11; log 5). -/
  wrFail : List Bool
  /-- MODEL'S OWN: the events applied since reset, the newest first (R13, R154; log 10). -/
  emitted : List Event
  /-- MODEL'S OWN: what the last `FBREAD` returned (R52; log 11). -/
  readOut : Option Pixel
  /-- MODEL'S OWN: how many hardware resets there have been; selects the free values of FB (log 6). -/
  resets : Nat
  deriving DecidableEq, Repr

/-- The machine after hardware reset (R40, R200). The model's own fields start empty (log 4, 5, 10, 11, 6). -/
def State.reset : State where
  lines := Lines.low
  lifecycle := .uninitialized
  busy := false
  errInit := false
  errSteady := false
  op := .init
  idx := 0
  fb := ⟨.powerOn 0, []⟩
  params := Config.params
  inputs := []
  wrFail := []
  emitted := []
  readOut := none
  resets := 0

/-- Why the machine stops with a fault. The hardware has none: its two exceptions are next states (R181, R182). -/
inductive Fault where
  /-- Raised by the sequencer's step when `BUSY` is 1 and `IDX` lies outside the trace of `OP`. "IDX never
  overflows" (R34), so no run gets there; safe (log 15). -/
  | positionOutsideTrace
  deriving DecidableEq, Repr

/-- Why an instruction is refused. -/
inductive Refusal where
  /-- An instruction with no meaning yet, by its mnemonic; safe. -/
  | notModelled (mnemonic : String)
  /-- `CMD` with a count that names no command: "a model that takes a number must refuse any other" (R73,
  U3); raised by `cmdReserved`; safe. -/
  | reservedCommandCount (n : Nat)
  /-- `SCAN` with an address 11 to 15: "must refuse such a value rather than emit it" (R131, U4); raised by
  `scan`; safe. -/
  | reservedScanAddress (a : BitVec 4)
  /-- `SDATA`, `SDATA.symbol` or `SCANPERIOD` with a scanline 11 to 15, outside the operand range (R133, R145;
  log 16); safe. -/
  | reservedScanline (s : BitVec 4)
  /-- `SDATA.symbol` with an IC 22 to 31, outside the operand range (R133; log 16); safe. -/
  | reservedIc (ic : BitVec 5)
  /-- `TEXT` of a text that is not empty with a font parameter the spec rules out: "refuse; the model requires
  `GH <= H` (and `GW >= 1`, `GH >= 1`)" (U7; log 14); raised by `text`; safe. -/
  | fontOutsideGrid
  /-- A word on the port that the decoder refuses; raised by the step; the hardware's ports carry no such
  word; safe (log 1). -/
  | undecodable (e : DecodeError)
  deriving DecidableEq, Repr

/-- What executing an instruction, or a step, answers. -/
abbrev Result := Host.Outcome State Fault Refusal

end Sys2Proof.Machine
end

