-- ==== Sys2Proof/Machine/Operands.lean ====
section
/-! DEFINITION. The operand forms: lines and clocks as registers of the line file, legal operand
ranges, the map from the stream to frame-buffer coordinates, glyphs. -/

namespace Sys2Proof.Machine

/-- `LINE[L]` (R12, R21). -/
def Lines.get (ls : Lines) : Line → Bool
  | .gclk => ls.gclk
  | .dclk => ls.dclk
  | .le => ls.le
  | .a0 => ls.a0
  | .a1 => ls.a1
  | .a2 => ls.a2
  | .a3 => ls.a3
  | .r1 => ls.r1
  | .g1 => ls.g1
  | .b1 => ls.b1
  | .r2 => ls.r2
  | .g2 => ls.g2
  | .b2 => ls.b2

/-- `LINE[L] <- v` (R12, R100); no other line changes. -/
def Lines.set (ls : Lines) (l : Line) (v : Bool) : Lines :=
  match l with
  | .gclk => { ls with gclk := v }
  | .dclk => { ls with dclk := v }
  | .le => { ls with le := v }
  | .a0 => { ls with a0 := v }
  | .a1 => { ls with a1 := v }
  | .a2 => { ls with a2 := v }
  | .a3 => { ls with a3 := v }
  | .r1 => { ls with r1 := v }
  | .g1 => { ls with g1 := v }
  | .b1 => { ls with b1 := v }
  | .r2 => { ls with r2 := v }
  | .g2 => { ls with g2 := v }
  | .b2 => { ls with b2 := v }

/-- The 13 lines in index order (R21). -/
def allLines : List Line :=
  [.gclk, .dclk, .le, .a0, .a1, .a2, .a3, .r1, .g1, .b1, .r2, .g2, .b2]

/-- The 13-bit line vector, line L at bit L (R14, R21). -/
def Lines.vector (ls : Lines) : BitVec 13 :=
  BitVec.ofBoolListLE (allLines.map ls.get)

/-- The address on `A3..A0`, `A0` least significant (R77). -/
def Lines.address (ls : Lines) : Nat :=
  ls.a0.toNat + 2 * ls.a1.toNat + 4 * ls.a2.toNat + 8 * ls.a3.toNat

/-- The line of a clock (R102). -/
def clockLine : Clock → Line
  | .gclk => .gclk
  | .dclk => .dclk

/-- The line of a data line (R21). -/
def dataLine : DataLine → Line
  | .r1 => .r1
  | .g1 => .g1
  | .b1 => .b1
  | .r2 => .r2
  | .g2 => .g2
  | .b2 => .b2

/-- The scanline addresses that exist, 0 to 10 (R77, R131, R133, R145). -/
def scanlineLegal (a : BitVec 4) : Bool := a.toNat < Config.scanlines

/-- The ICs that exist, 0 to 21 (R32, R133). -/
def icLegal (ic : BitVec 5) : Bool := ic.toNat < Config.ics

/-- Chain 1's row of a scanline, `s * 8` (R57). -/
def row1 (s : Nat) : Nat := s * Config.rowsPerScan

/-- Chain 2's row of a scanline, `s * 8 + 44` (R57); from scanline 6 on it lies outside the grid (R58). -/
def row2 (s : Nat) : Nat := s * Config.rowsPerScan + Config.chain2Offset

/-- `COLMAP(ic, led)` (R57, U9); a position the table has no entry for has no column (log 29). -/
def colmap (p : Params) (ic led : Nat) : Option Nat :=
  (p.colmap[ic * Config.leds + led]?).join

/-- The number of a symbol in the order sent, `q = ic*256 + (15-plane)*16 + led` (R78). -/
def symbolNumber (ic plane led : Nat) : Nat := ic * 256 + (15 - plane) * 16 + led

/-- "A 16-bit unsigned number; bit `p` of it is plane `p`" (R55). -/
def planeBit (v : Channel) (plane : Nat) : Bool := v.getLsbD plane

/-- `FONT(ch)`: the first glyph listed for the character, or absent (R164; log 17). -/
def glyphOf (p : Params) (ch : Char) : Option (List (List Bool)) :=
  (p.font.find? fun e => e.1 == ch).map Prod.snd

/-- `cell(cx, cy)` of a glyph (R164); a cell the table does not list is not set (log 17). -/
def glyphCell (g : List (List Bool)) (cx cy : Nat) : Bool :=
  ((g[cy]?).getD [])[cx]?.getD false

/-- The font parameters the spec admits: `GH <= H`, `GW >= 1`, `GH >= 1` (U7). -/
def fontLegal (p : Params) : Bool :=
  decide (p.glyphHeight ≤ Config.height) && decide (1 ≤ p.glyphWidth) && decide (1 ≤ p.glyphHeight)

/-- `NMAX`: the maximum number of characters drawn, `(84 - 2*GW) / (GW + 1) + 1` when `2*GW <= 84`, and 0
otherwise (R165). -/
def maxChars (p : Params) : Nat :=
  if 2 * p.glyphWidth ≤ 84 then (84 - 2 * p.glyphWidth) / (p.glyphWidth + 1) + 1 else 0

/-- `start_y = (H - GH) / 2` (R165). -/
def textTop (p : Params) : Nat := (Config.height - p.glyphHeight) / 2

/-- The left edge of character k, `x_k = 4 + k * (GW + 1)` (R165). -/
def charLeft (p : Params) (k : Nat) : Nat := 4 + k * (p.glyphWidth + 1)

end Sys2Proof.Machine
end

