-- ==== Sys2Proof/Machine/Ops.lean ====
section
/-! DEFINITION. The named operations over memory and registers: the frame buffer's guarded read and write,
the application of an event, a failed line write (the hardware's only exceptions) and the run of a trace. -/

namespace Sys2Proof.Machine

/-- The first cell with a key. -/
def cellsFind (key : Nat) : List (Nat × Pixel) → Option Pixel
  | [] => none
  | c :: rest => if c.1 = key then some c.2 else cellsFind key rest

/-- Put a cell into cells with rising keys. -/
def cellsPut (key : Nat) (p : Pixel) : List (Nat × Pixel) → List (Nat × Pixel)
  | [] => [(key, p)]
  | c :: rest =>
    if key < c.1 then (key, p) :: c :: rest
    else if key = c.1 then (key, p) :: rest
    else c :: cellsPut key p rest

/-- Take the cells with a key out. -/
def cellsErase (key : Nat) (cells : List (Nat × Pixel)) : List (Nat × Pixel) :=
  cells.filter fun c => decide (c.1 ≠ key)

/-- Bring a buffer of which every pixel has been written since reset to the form over a clear (log 7). -/
def Memory.settle (m : Memory) : Memory :=
  match m.base with
  | .cleared => m
  | .powerOn _ =>
    if m.cells.length < pixelCount then m
    else ⟨.cleared, m.cells.filter fun c => decide (c.2 ≠ Pixel.zero)⟩

/-- The pixel under a key. -/
def Memory.get (m : Memory) (key : Nat) : Pixel := (cellsFind key m.cells).getD (m.unlisted key)

/-- Write the pixel under a key, keeping the canonical form. -/
def Memory.put (m : Memory) (key : Nat) (p : Pixel) : Memory :=
  match m.base with
  | .cleared => ⟨.cleared, if p = Pixel.zero then cellsErase key m.cells else cellsPut key p m.cells⟩
  | .powerOn n => Memory.settle ⟨.powerOn n, cellsPut key p m.cells⟩

/-- The coordinates that exist: "`x<W && y<H`" (R51, R52). -/
def inGrid (x y : Nat) : Bool := decide (x < Config.width) && decide (y < Config.height)

/-- `FBRead(x, y)`, the guarded read: zeros outside the grid, never a fault (R52). -/
def Memory.fbRead (m : Memory) (x y : Nat) : Pixel :=
  if inGrid x y then m.get (pixelKey x y) else Pixel.zero

/-- `FBRead` of a column that may be none: "`FBRead(none, y)` is `(0,0,0)`" (R133). -/
def Memory.fbReadAt (m : Memory) (x : Option Nat) (y : Nat) : Pixel :=
  match x with
  | none => Pixel.zero
  | some x => m.fbRead x y

/-- `FBWrite(x, y, p)`, the guarded write: nothing outside the grid (R53). -/
def Memory.fbWrite (m : Memory) (x y : Nat) (p : Pixel) : Memory :=
  if inGrid x y then m.put (pixelKey x y) p else m

/-- Every pixel set to (0,0,0): the effect of `CLR` (R19) and of `CLEAR` (R161). -/
def Memory.clear (_m : Memory) : Memory := ⟨.cleared, []⟩

/-- The naturals from a to b, inclusive; empty when a > b. -/
def upTo (a b : Nat) : List Nat := List.range' a (b + 1 - a)

/-- The pixels of one row of a rectangle (R163). -/
def Memory.fillRow (m : Memory) (x1 xe y : Nat) (p : Pixel) : Memory :=
  (upTo x1 xe).foldl (fun m x => m.fbWrite x y p) m

/-- `fill_rect`: clamp the upper corner to the grid, fill inclusively, no swapping (R163). -/
def Memory.fillRect (m : Memory) (x1 y1 x2 y2 : Nat) (p : Pixel) : Memory :=
  (upTo y1 (min y2 (Config.height - 1))).foldl
    (fun m y => m.fillRow x1 (min x2 (Config.width - 1)) y p) m

/-- The set cells of one row of a glyph, drawn in white (R165). -/
def Memory.drawGlyphRow (m : Memory) (g : List (List Bool)) (gw x top cy : Nat) : Memory :=
  (List.range gw).foldl
    (fun m cx => if glyphCell g cx cy then m.fbWrite (x + cx) (top + cy) Pixel.white else m) m

/-- A glyph drawn at (x, top): its set cells in white, through the guarded write (R165). -/
def Memory.drawGlyph (m : Memory) (g : List (List Bool)) (gw gh x top : Nat) : Memory :=
  (List.range gh).foldl (fun m cy => m.drawGlyphRow g gw x top cy) m

/-- The characters of a text from cursor x on: stop when `x + GW > W - GW`, an absent glyph still advances
the cursor (R164, R165). The bound is written as a sum because it may be negative in the integers. -/
def Memory.drawChars (m : Memory) (p : Params) (x : Nat) : List Char → Memory
  | [] => m
  | ch :: rest =>
    if x + p.glyphWidth + p.glyphWidth > Config.width then m
    else
      Memory.drawChars
        (match glyphOf p ch with
          | none => m
          | some g => m.drawGlyph g p.glyphWidth p.glyphHeight x (textTop p))
        p (x + p.glyphWidth + 1) rest

/-- INIT is in progress (R34): `OP` means something only while `BUSY` = 1. -/
def State.inInit (s : State) : Bool := s.busy && decide (s.op = .init)

/-- The environment's answer to the next line write: failed only when `GPIO_FALLIBLE` and the answer listed
for it says so (R180, U11; log 5). -/
def State.answerFails (s : State) : Bool := s.params.gpioFallible && s.wrFail.headD false

/-- The answer has been given; without `GPIO_FALLIBLE` "the input `wr_fail` does not exist" (R180). -/
def State.popAnswer (s : State) : State :=
  if s.params.gpioFallible then { s with wrFail := s.wrFail.tail } else s

/-- Whether an event is a line write; "`H` and `CLR` events cannot fail" (R180). -/
def Event.isWrite : Event → Bool
  | .w _ _ => true
  | .h _ => false
  | .clr => false

/-- `apply(e)` (R19). -/
def State.applyEvent (s : State) : Event → State
  | .w l v => { s with lines := s.lines.set l v }
  | .h _ => s
  | .clr => { s with fb := s.fb.clear }

/-- The event becomes part of the trace (R13; log 10). -/
def State.record (s : State) (e : Event) : State := { s with emitted := e :: s.emitted }

/-- TAKING AN EXCEPTION: what a failed line write does besides writing the line (R183). In INIT it is
`InitializationFailure`: `ERR_INIT <- 1`, `LIFECYCLE <- InitFailed`, `BUSY <- 0`, `IDX` not advanced, nothing
saved, nothing vectored (R181, R184). Otherwise it is `SteadyStateWriteFailure`: `ERR_STEADY <- 1` and nothing else
(R182); so too outside any operation, where the spec names none (log 12). There is no return (R189). -/
def State.takeWriteFailure (s : State) : State :=
  if s.inInit then { s with errInit := true, lifecycle := .initFailed, busy := false }
  else { s with errSteady := true }

/-- One event takes place: recorded, applied, and, if it is a line write, answered (R19, R150, R183). -/
def State.emit (s : State) (e : Event) : State :=
  if e.isWrite && s.answerFails then ((s.record e).applyEvent e).popAnswer.takeWriteFailure
  else if e.isWrite then ((s.record e).applyEvent e).popAnswer
  else (s.record e).applyEvent e

/-- The event is a line write that fails in INIT, which ends the operation (R184). -/
def State.fatal (s : State) (e : Event) : Bool := e.isWrite && s.answerFails && s.inInit

/-- The events of a trace, in order (R62), up to and including a write that ends INIT (R184). -/
def State.runEvents (s : State) : List Event → State
  | [] => s
  | e :: rest => if s.fatal e then s.emit e else (s.emit e).runEvents rest

end Sys2Proof.Machine
end

