-- ==== Sys2Proof/Machine/Flags.lean ====
section
/-! DEFINITION. Status and conditions: the STATUS word and its fields, the handshake, the two conditions
inside an operation, the loop counters as views of the position. There are no arithmetic flags. -/

namespace Sys2Proof.Machine

/-- The code of a lifecycle state, 3 bits (R23). -/
def Lifecycle.code : Lifecycle → BitVec 3
  | .uninitialized => 0
  | .reset => 1
  | .preActive => 2
  | .configured => 3
  | .teardown => 4
  | .initFailed => 5

/-- The code of an operation, 2 bits: the host request codes (R34, R86). -/
def Op.code : Op → BitVec 2
  | .init => 0b00
  | .refresh => 0b01
  | .teardown => 0b10

/-- `STATUS[5:0]`: ERR_STEADY, ERR_INIT, BUSY, LIFECYCLE[2:0] from the top (R28). Reading it changes nothing. -/
def State.status (s : State) : BitVec 6 :=
  BitVec.ofBool s.errSteady ++ BitVec.ofBool s.errInit ++ BitVec.ofBool s.busy ++ s.lifecycle.code

/-- `req_ready = not BUSY` (R84, R152); the frame-buffer port is ready by the same rule (R60). -/
def State.reqReady (s : State) : Bool := !s.busy

/-- The last bit of an SDATA stream: "IC=21, LED=15, bit-plane=0" (R29). -/
def lastSymbol (ic plane led : Nat) : Bool :=
  decide (ic = 21) && decide (plane = 0) && decide (led = 15)

/-- The last scanline, which gets the Vsync (R29, R145). -/
def lastScanline (s : Nat) : Bool := decide (s = 10)

/-- The code of the exception an event raises in a state (R186): 0 none, 1 `InitializationFailure`, 2
`SteadyStateWriteFailure`. Only a line write answered with failure raises one (R180), which one the operation in progress
decides (R183; outside any operation log 12). The codes stand in no register: they "exist for tables and models only". -/
def State.failureCode (s : State) (e : Event) : Nat :=
  if e.isWrite && s.answerFails then (if s.inInit then 1 else 2) else 0

/-- The loop counters (R32), in their least widths. -/
structure Counters where
  s : BitVec 4
  ic : BitVec 5
  plane : BitVec 4
  led : BitVec 4
  n : BitVec 9
  deriving DecidableEq, Repr

/-- The counters at rest: reset value 0 each (R40). -/
def Counters.zero : Counters := ⟨0, 0, 0, 0, 0⟩

/-- The counters at a position inside the SDATA part of REFRESH (R36). -/
def dataCounters (idx : Nat) : Counters :=
  let q := min (idx % 56322 / 10) 5631
  { s := BitVec.ofNat 4 (idx / 56322), ic := BitVec.ofNat 5 (q / 256),
    plane := BitVec.ofNat 4 (15 - q % 256 / 16), led := BitVec.ofNat 4 (q % 16), n := 0 }

/-- The scanline of a position inside the scan pass, which starts at 619542 (R36). -/
def scanCounter (idx : Nat) : Nat := min ((idx - 619542) / 1034) 10

/-- `N` inside a scan period: the pulses complete at event r of the period (R32, R149; log 19). -/
def scanPulses (s r : Nat) : Nat :=
  if r < 1028 then (r - 4) / 4
  else if lastScanline s && decide (r < 1038) then (r - 1029) / 4
  else 256

/-- The counters at a position inside the scan pass (R36; log 19). -/
def scanCounters (idx : Nat) : Counters :=
  let s := scanCounter idx
  { Counters.zero with
    s := BitVec.ofNat 4 s, n := BitVec.ofNat 9 (scanPulses s (idx - 619542 - 1034 * s)) }

/-- `N` inside INIT: the pulses of a command complete, or the bit index of a configuration bit (R32, R149;
log 19). -/
def initPulses (idx : Nat) : Nat :=
  if idx < 42 then (idx - 1) / 4
  else if idx < 100 then (idx - 43) / 4
  else if idx < 118 then (idx - 101) / 4
  else if idx < 198 then 15 - (idx - 118) / 5
  else (idx - 199) / 4

/-- The loop counters as functions of the position: "as model state they are redundant with `IDX`" (R32, R36). -/
def State.counters (s : State) : Counters :=
  if s.busy then
    match s.op with
    | .init => { Counters.zero with n := BitVec.ofNat 9 (initPulses s.idx.toNat) }
    | .refresh => if s.idx.toNat < 619542 then dataCounters s.idx.toNat else scanCounters s.idx.toNat
    | .teardown => Counters.zero
  else Counters.zero

end Sys2Proof.Machine
end

