-- ==== Sys2Proof/Machine/Trace.lean ====
section
/-! DEFINITION. The traces: the lists of events the procedures build (R18), and the event at an index of an
operation's trace (R149). -/

namespace Sys2Proof.Machine

/-- The commands, "a small closed enumeration" (R72, R110). -/
inductive Command where
  | dataLatch | vsync | writeConfig | reset | preActive
  deriving DecidableEq, Repr

/-- The pulse count of a command (R72, R110). -/
def Command.count : Command → Nat
  | .dataLatch => 1
  | .vsync => 2
  | .writeConfig => 4
  | .reset => 10
  | .preActive => 14

/-- `PULSE(c)` (R102). -/
def pulseTrace (c : Clock) : List Event :=
  [.w (clockLine c) true, .h .pw, .w (clockLine c) false, .h .pw]

/-- `PULSE(c)^n` (R103). -/
def pulseTraces (c : Clock) (n : Nat) : List Event := (List.replicate n (pulseTrace c)).flatten

/-- `CMD(cmd)` (R111). -/
def cmdTrace (c : Command) : List Event :=
  .w .le true :: (pulseTraces .dclk c.count ++ [.w .le false])

/-- The cell of one configuration bit (R74, R117). -/
def bitCell (p : Params) (v : Bool) : List Event := .w (dataLine p.cfgLine) v :: pulseTrace .dclk

/-- The numbers n-1 down to 0. -/
def countDown (n : Nat) : List Nat := (List.range n).reverse

/-- `CFG(v)` (R117). -/
def cfgTrace (p : Params) (v : BitVec 16) : List Event :=
  cmdTrace .writeConfig ++ (countDown 16).flatMap (fun i => bitCell p (v.getLsbD i))
    ++ cmdTrace .dataLatch

/-- `SCAN(a)` (R131). -/
def scanTrace (a : Nat) : List Event :=
  [.w .a0 (a.testBit 0), .w .a1 (a.testBit 1), .w .a2 (a.testBit 2), .w .a3 (a.testBit 3)]

/-- Chain 1's pixel at a position of the stream (R57). -/
def chain1Pixel (p : Params) (fb : Memory) (s ic led : Nat) : Pixel :=
  fb.fbReadAt (colmap p ic led) (row1 s)

/-- Chain 2's pixel at a position of the stream; zeros when its row lies outside the grid (R57). -/
def chain2Pixel (p : Params) (fb : Memory) (s ic led : Nat) : Pixel :=
  fb.fbReadAt (colmap p ic led) (row2 s)

/-- The six data writes of a symbol in the order R1, G1, B1, R2, G2, B2 (R79, R133). -/
def symbolWrites (p : Params) (fb : Memory) (s ic plane led : Nat) : List Event :=
  let c1 := chain1Pixel p fb s ic led
  let c2 := chain2Pixel p fb s ic led
  [.w .r1 (planeBit c1.r plane), .w .g1 (planeBit c1.g plane), .w .b1 (planeBit c1.b plane),
   .w .r2 (planeBit c2.r plane), .w .g2 (planeBit c2.g plane), .w .b2 (planeBit c2.b plane)]

/-- The clock of a symbol: one DCLK pulse, on the last symbol with LE high around it (R133). -/
def symbolClock (last : Bool) : List Event :=
  if last then .w .le true :: (pulseTrace .dclk ++ [.w .le false]) else pulseTrace .dclk

/-- `SYMBOL(s, ic, plane, led)` (R133). -/
def symbolTrace (p : Params) (fb : Memory) (s ic plane led : Nat) : List Event :=
  symbolWrites p fb s ic plane led ++ symbolClock (lastSymbol ic plane led)

/-- `SDATA(s)`: ICs up, planes down, LEDs up (R133). -/
def sdataTrace (p : Params) (fb : Memory) (s : Nat) : List Event :=
  (List.range Config.ics).flatMap fun ic =>
    (countDown Config.planes).flatMap fun plane =>
      (List.range Config.leds).flatMap fun led => symbolTrace p fb s ic plane led

/-- `SCANPERIOD(s)` (R145). -/
def scanPeriodTrace (s : Nat) : List Event :=
  scanTrace s ++ pulseTraces .gclk Config.gclkPulses
    ++ (if lastScanline s then cmdTrace .vsync else [])
    ++ [.h .dead] ++ pulseTrace .gclk ++ [.h .dead]

/-- `INIT_TRACE` (R141). -/
def initTrace (p : Params) : List Event :=
  cmdTrace .reset ++ cmdTrace .preActive ++ cfgTrace p p.configValue

/-- `REFRESH_TRACE` (R146). -/
def refreshTrace (p : Params) (fb : Memory) : List Event :=
  (List.range Config.scanlines).flatMap (sdataTrace p fb)
    ++ (List.range Config.scanlines).flatMap scanPeriodTrace

/-- `TEARDOWN_TRACE` (R148). -/
def teardownTrace : List Event := .clr :: allLines.map fun l => .w l false

/-- `trace(OP)` (R150). -/
def opTrace (op : Op) (p : Params) (fb : Memory) : List Event :=
  match op with
  | .init => initTrace p
  | .refresh => refreshTrace p fb
  | .teardown => teardownTrace

/-- The lengths of the traces (R34). -/
def Op.traceLength : Op → Nat
  | .init => 204
  | .refresh => 630926
  | .teardown => 14

/-- Event `j` of `SDATA(s)` by its index (R134). -/
def sdataEventAt (p : Params) (fb : Memory) (s j : Nat) : Option Event :=
  let q := min (j / 10) 5631
  (symbolTrace p fb s (q / 256) (15 - q % 256 / 16) (q % 16))[j - 10 * q]?

/-- Event `i` of `REFRESH_TRACE` by its index (R149). -/
def refreshEventAt (p : Params) (fb : Memory) (i : Nat) : Option Event :=
  if i < 619542 then sdataEventAt p fb (i / 56322) (i % 56322)
  else
    let s := min ((i - 619542) / 1034) 10
    (scanPeriodTrace s)[i - 619542 - 1034 * s]?

/-- `trace(OP)[IDX]` (R149, R150). The layout of REFRESH by index stands for its list of 630926 events. -/
def eventAt (op : Op) (p : Params) (fb : Memory) (i : Nat) : Option Event :=
  match op with
  | .init => (initTrace p)[i]?
  | .refresh => refreshEventAt p fb i
  | .teardown => teardownTrace[i]?

end Sys2Proof.Machine
end

