-- ==== Sys2Proof/Machine/Sequencer.lean ====
section
/-! DEFINITION. The sequencer: starting an operation, what follows each event it has applied, the next event, hardware reset, and
the inputs of a step. -/

namespace Sys2Proof.Machine

/-- Acceptance of a request with a trace: `OP <- code; IDX <- 0; BUSY <- 1` (R35). -/
def State.start (s : State) (op : Op) : State := { s with op := op, idx := 0, busy := true }

/-- `LIFECYCLE` after the event at an index of an operation's trace: INIT at 41, 99 and 203 (R142), TEARDOWN at 13
(R147), REFRESH never (R144). -/
def lifecycleAfter (op : Op) (i : Nat) (l : Lifecycle) : Lifecycle :=
  match op with
  | .init =>
    if i = 41 then .reset
    else if i = 99 then .preActive
    else if i = 203 then .configured
    else l
  | .refresh => l
  | .teardown => if i = 13 then .teardown else l

/-- What follows an event that did not end the operation: the lifecycle update tied to the position, `IDX <- IDX + 1`, and
`BUSY <- 0` when `IDX` reaches the length of the trace (R35, R150). -/
def State.advance (s : State) : State :=
  { s with
    lifecycle := lifecycleAfter s.op s.idx.toNat s.lifecycle
    idx := s.idx + 1
    busy := decide ((s.idx + 1).toNat ≠ s.op.traceLength) }

/-- The event at the sequencer's position, read from the frame buffer as it is (R150). -/
def State.nextEvent (s : State) : Option Event := eventAt s.op s.params s.fb s.idx.toNat

/-- An event as an operation of the table. -/
def Event.toInstr : Event → Instr
  | .w l v => .w l v
  | .h k => .h k
  | .clr => .clr

/-- Hardware reset: the reset values of R40; the parameters are constant, the frame buffer holds the free
values of this reset, and the inputs to come stay (R40, R200, R201; log 6, log 10). -/
def State.hardwareReset (s : State) : State :=
  { State.reset with
    params := s.params
    fb := ⟨.powerOn (s.resets + 1), []⟩
    inputs := s.inputs
    wrFail := s.wrFail
    resets := s.resets + 1 }

/-- The inputs of this step (log 4). -/
def State.input (s : State) : StepInput := s.inputs.headD StepInput.none

/-- The inputs of this step are over; a word that was not accepted is not remembered (R84). -/
def State.consume (s : State) : State := { s with inputs := s.inputs.tail }

/-- Acceptance of a request: only while `BUSY` = 0, and it starts its operation only where the lifecycle lets
it; else it has no effect at all (R87, R152; log 13). -/
def State.request (s : State) (op : Op) (admitted : Bool) : State :=
  if s.busy then s else if admitted then s.start op else s

/-- A frame-buffer operation of the host: performed only while `BUSY` = 0 (R152); not accepted, and so without
effect, while it is 1 (U10; log 13). -/
def State.hostWrite (s : State) (fb : Memory) : State := if s.busy then s else { s with fb := fb }

end Sys2Proof.Machine
end

