-- ==== Sys2Proof/Machine/Command.lean ====
section
/-! DEFINITION. The command sequencer: the five commands, the reserved counts, the configuration frame
(41_commands.md). Each procedure runs its whole trace (R18; log 23). -/

namespace Sys2Proof.Machine

/-- `CMD(DataLatch)` (R111, R115). -/
def execCmdDataLatch (s : State) : Result := .next (s.runEvents (cmdTrace .dataLatch))

/-- `CMD(Vsync)` (R111, R116). -/
def execCmdVsync (s : State) : Result := .next (s.runEvents (cmdTrace .vsync))

/-- `CMD(WriteConfig)` (R111, R114). -/
def execCmdWriteConfig (s : State) : Result := .next (s.runEvents (cmdTrace .writeConfig))

/-- `CMD(Reset)` (R111, R112). -/
def execCmdReset (s : State) : Result := .next (s.runEvents (cmdTrace .reset))

/-- `CMD(PreActive)` (R111, R113). -/
def execCmdPreActive (s : State) : Result := .next (s.runEvents (cmdTrace .preActive))

/-- A count that names no command: refused (R73, U3). -/
def execCmdReserved (n : Nat) (_s : State) : Result := .refused (.reservedCommandCount n)

/-- `CFG(v)` (R117). -/
def execCfg (v : BitVec 16) (s : State) : Result := .next (s.runEvents (cfgTrace s.params v))

end Sys2Proof.Machine
end

