-- ==== Sys2Proof/Machine/FrameOps.lean ====
section
/-! DEFINITION. The host's frame-buffer operations and the text renderer (44_host_framebuffer_text.md). None emits an
event; each is atomic. -/

namespace Sys2Proof.Machine

/-- `CLEAR` (R161). -/
def execClear (s : State) : Result := .next (s.hostWrite s.fb.clear)

/-- `SETPX x y r g b` (R162). -/
def execSetpx (x y : Nat) (r g b : Channel) (s : State) : Result :=
  .next (s.hostWrite (s.fb.fbWrite x y ⟨r, g, b⟩))

/-- `FILLRECT x1 y1 x2 y2 r g b` (R163). -/
def execFillrect (x1 y1 x2 y2 : Nat) (r g b : Channel) (s : State) : Result :=
  .next (s.hostWrite (s.fb.fillRect x1 y1 x2 y2 ⟨r, g, b⟩))

/-- `TEXT s`: clear; an empty text draws nothing; else the characters from x = 4 on (R165). With a font
parameter the spec rules out, a text that is not empty is refused (U7; log 14). -/
def execText (cs : List Char) (s : State) : Result :=
  if s.busy then .next s
  else if cs.isEmpty then .next (s.hostWrite s.fb.clear)
  else if fontLegal s.params then .next (s.hostWrite (s.fb.clear.drawChars s.params (charLeft s.params 0) cs))
  else .refused .fontOutsideGrid

/-- `FBRead(x, y)`: the pixel goes to the reader, nothing else changes (R52; log 11). -/
def execFbread (x y : Nat) (s : State) : Result := .next { s with readOut := some (s.fb.fbRead x y) }

end Sys2Proof.Machine
end

