-- ==== Sys2Proof/Machine/Pulse.lean ====
section
/-! DEFINITION. The pulse controller: the events and the pulse (40_primitives.md). -/

namespace Sys2Proof.Machine

/-- `W(L, v)` (R100). -/
def execW (l : Line) (v : Bool) (s : State) : Result := .next (s.emit (.w l v))

/-- `H(k)`: no state changes, "the event is still in the trace" (R101). -/
def execH (k : Hold) (s : State) : Result := .next (s.emit (.h k))

/-- `PULSE(c)` (R102). -/
def execPulse (c : Clock) (s : State) : Result := .next (s.runEvents (pulseTrace c))

/-- `CLR` (R19). -/
def execClr (s : State) : Result := .next (s.emit .clr)

end Sys2Proof.Machine
end

