-- ==== Sys2Proof/Machine/Request.lean ====
section
/-! DEFINITION. The host requests: acceptance (43_refresh_lifecycle.md). The trace a request starts is run by the
steps that follow (R152). -/

namespace Sys2Proof.Machine

/-- `INIT`: starts in `Uninitialized` only, "the sequence is one-time" (R142). -/
def execInit (s : State) : Result := .next (s.request .init (decide (s.lifecycle = .uninitialized)))

/-- `REFRESH`: "a no-op if the driver has not completed initialization" (R144). -/
def execRefresh (s : State) : Result := .next (s.request .refresh (decide (s.lifecycle = .configured)))

/-- `TEARDOWN`: starts everywhere but in `Teardown` (R147). -/
def execTeardown (s : State) : Result := .next (s.request .teardown (decide (s.lifecycle ≠ .teardown)))

/-- The reserved request: "accepted when `BUSY` = 0, no effect" (R151). -/
def execReqReserved (s : State) : Result := .next s

end Sys2Proof.Machine
end

