-- ==== Sys2Proof/Machine/Scanline.lean ====
section
/-! DEFINITION. Scanline addressing, scanline data and the scan period (42_scanline.md, R145). Each procedure
runs its whole trace (R18; log 23). -/

namespace Sys2Proof.Machine

/-- `SCAN(a)`: 11 to 15 refused (R131, U4). -/
def execScan (a : BitVec 4) (s : State) : Result :=
  if scanlineLegal a then .next (s.runEvents (scanTrace a.toNat)) else .refused (.reservedScanAddress a)

/-- `SDATA(s)` (R133; log 16). -/
def execSdata (sl : BitVec 4) (s : State) : Result :=
  if scanlineLegal sl then .next (s.runEvents (sdataTrace s.params s.fb sl.toNat))
  else .refused (.reservedScanline sl)

/-- `SYMBOL(s, ic, plane, led)` (R133; log 16). -/
def execSdataSymbol (sl : BitVec 4) (ic : BitVec 5) (plane led : BitVec 4) (s : State) : Result :=
  if scanlineLegal sl then
    if icLegal ic then
      .next (s.runEvents (symbolTrace s.params s.fb sl.toNat ic.toNat plane.toNat led.toNat))
    else .refused (.reservedIc ic)
  else .refused (.reservedScanline sl)

/-- `SCANPERIOD(s)` (R145; log 16). -/
def execScanPeriod (sl : BitVec 4) (s : State) : Result :=
  if scanlineLegal sl then .next (s.runEvents (scanPeriodTrace sl.toNat))
  else .refused (.reservedScanline sl)

end Sys2Proof.Machine
end

