-- ==== Sys2Proof/Machine/Dispatch.lean ====
section
/-! DEFINITION. exec: the meaning of each operation, one arm per row of the opcode table. -/

namespace Sys2Proof.Machine

def exec (i : Instr) (s : State) : Host.Outcome State Fault Refusal :=
  match i with
  | .cmdDataLatch => Sys2Proof.Machine.execCmdDataLatch s
  | .cmdVsync => Sys2Proof.Machine.execCmdVsync s
  | .cmdWriteConfig => Sys2Proof.Machine.execCmdWriteConfig s
  | .cmdReset => Sys2Proof.Machine.execCmdReset s
  | .cmdPreActive => Sys2Proof.Machine.execCmdPreActive s
  | .cmdReserved n => Sys2Proof.Machine.execCmdReserved n s
  | .init => Sys2Proof.Machine.execInit s
  | .refresh => Sys2Proof.Machine.execRefresh s
  | .teardown => Sys2Proof.Machine.execTeardown s
  | .reqReserved => Sys2Proof.Machine.execReqReserved s
  | .cfg v => Sys2Proof.Machine.execCfg v s
  | .scan a => Sys2Proof.Machine.execScan a s
  | .sdata sl => Sys2Proof.Machine.execSdata sl s
  | .sdataSymbol sl ic plane led => Sys2Proof.Machine.execSdataSymbol sl ic plane led s
  | .scanPeriod sl => Sys2Proof.Machine.execScanPeriod sl s
  | .w l v => Sys2Proof.Machine.execW l v s
  | .h k => Sys2Proof.Machine.execH k s
  | .pulse c => Sys2Proof.Machine.execPulse c s
  | .clr => Sys2Proof.Machine.execClr s
  | .clear => Sys2Proof.Machine.execClear s
  | .setpx x y r g b => Sys2Proof.Machine.execSetpx x y r g b s
  | .fillrect x1 y1 x2 y2 r g b => Sys2Proof.Machine.execFillrect x1 y1 x2 y2 r g b s
  | .text cs => Sys2Proof.Machine.execText cs s
  | .fbread x y => Sys2Proof.Machine.execFbread x y s

end Sys2Proof.Machine
end

