-- ==== Sys2Proof/Machine/Cycle.lean ====
section
/-! DEFINITION. One step of the block (R150): reset, else the sequencer's next event, else the word on the host's port. -/

namespace Sys2Proof.Machine

/-- The sequencer's step: run the event at the position; unless it was a write that ended INIT, the position
advances (R150, R184). -/
def busyStep (s : State) : Result :=
  match s.nextEvent with
  | none => .fault .positionOutsideTrace
  | some e =>
    match exec e.toInstr s with
    | .next t => if s.fatal e then .next t else .next t.advance
    | .fault f => .fault f
    | .refused r => .refused r

/-- An idle step: with nothing presented nothing happens (R140); else the word is decoded and run (R150). -/
def idleStep (port : List Byte) (s : State) : Result :=
  if port.isEmpty then .next s
  else
    match decode port with
    | .ok i => exec i s
    | .error e => .refused (.undecodable e)

/-- One step: reset "wins over everything"; a word on the port is looked at only while `BUSY` = 0 (R150, R152). -/
def cycle (s : State) : Result :=
  if s.input.rst then .next s.consume.hardwareReset
  else if s.busy then busyStep s.consume
  else idleStep s.input.port s.consume

/-- The state whose next step finds a word on the port and the block ready for it: no reset and `BUSY` = 0. -/
def State.present (s : State) (word : List Byte) : State :=
  { s with busy := false, inputs := ⟨false, word⟩ :: s.inputs.tail }

end Sys2Proof.Machine
end

