-- ==== Sys2Proof/Machine/Step.lean ====
section
/-! DEFINITION. step, and the state that runs a given opcode-table word next. -/

namespace Sys2Proof.Machine

/-- One step of the machine (R150). -/
def step (s : State) : Host.Outcome State Fault Refusal := cycle s

/-- `s` with an opcode-table word on the host's port at the next step (log 2, log 4): what makes a program run from
reset is the host presenting its operations one by one, and this stands for the next of them. -/
def State.withFetchWord (s : State) (nbits w : Nat) : State :=
  s.present ((tableWord nbits w).getD [])

end Sys2Proof.Machine
end

