-- ==== Sys2Proof/Machine/Observe.lean ====
section
/-! DEFINITION. What a trace shows: the line trace, the waveform, pulses, the receiver's reading of a
waveform, counts and the least duration. These are the spec's observables (R14, R92, R106, R221); none
is state. -/

namespace Sys2Proof.Machine

/-- The line trace: the trace with every `H` and `CLR` removed (R14). -/
def lineTrace (t : List Event) : List (Line × Bool) :=
  t.filterMap fun
    | .w l v => some (l, v)
    | .h _ => none
    | .clr => none

/-- The line vectors after each write of a line trace. -/
def vectorsAfter (ls : Lines) : List (Line × Bool) → List Lines
  | [] => []
  | (l, v) :: rest => ls.set l v :: vectorsAfter (ls.set l v) rest

/-- Delete every vector equal to the one before it (R14). -/
def dropRepeats (prev : Lines) : List Lines → List Lines
  | [] => []
  | x :: rest => if x = prev then dropRepeats prev rest else x :: dropRepeats x rest

/-- The waveform of a trace from a start vector, the start vector first (R14; the example of R102: 0, 1, 0). -/
def waveform (start : Lines) (t : List Event) : List Lines :=
  start :: dropRepeats start (vectorsAfter start (lineTrace t))

/-- The vectors of a waveform just after each rising edge of a line; each is one pulse on the line (R14). -/
def risingEdges (l : Line) : List Lines → List Lines
  | a :: b :: rest =>
    if !a.get l && b.get l then b :: risingEdges l (b :: rest) else risingEdges l (b :: rest)
  | _ => []

/-- The number of pulses on a line in a waveform (R14, R106). -/
def pulseCount (l : Line) (ws : List Lines) : Nat := (risingEdges l ws).length

/-- The rising edges of the two clocks in order, each with the vector just after it. -/
def clockEdges : List Lines → List (Clock × Lines)
  | a :: b :: rest =>
    if !a.gclk && b.gclk then (.gclk, b) :: clockEdges (b :: rest)
    else if !a.dclk && b.dclk then (.dclk, b) :: clockEdges (b :: rest)
    else clockEdges (b :: rest)
  | _ => []

/-- The receiver's commands: for every interval of a waveform with LE high the number of DCLK rising edges
in it (R92); `n` counts the interval at hand. DESIGN CHOICE (log 22): an interval counts when LE falls, so one still open
at the end of the waveform (INIT aborted with LE left high) is no command. -/
def commandsFrom (n : Nat) : List Lines → List Nat
  | a :: b :: rest =>
    if a.le && !b.le then n :: commandsFrom 0 (b :: rest)
    else if b.le && !a.dclk && b.dclk then commandsFrom (n + 1) (b :: rest)
    else commandsFrom n (b :: rest)
  | _ => []

/-- The pulse counts of the commands a receiver sees in a waveform (R92). -/
def commandsSeen (ws : List Lines) : List Nat := commandsFrom 0 ws

/-- The command a pulse count names to a receiver; the other counts are reserved (R72, R73). -/
def commandNamed (n : Nat) : Option Command :=
  if n = 1 then some .dataLatch
  else if n = 2 then some .vsync
  else if n = 4 then some .writeConfig
  else if n = 10 then some .reset
  else if n = 14 then some .preActive
  else none

/-- The levels of the six data lines. -/
def Lines.data (ls : Lines) : List Bool := [ls.r1, ls.g1, ls.b1, ls.r2, ls.g2, ls.b2]

/-- What a receiver samples at each DCLK rising edge: LE and the six data lines. Which of the samples are shifts, and
which belong to commands, is `received`'s reading (R92). -/
def dclkSamples (ws : List Lines) : List (Bool × List Bool) :=
  (risingEdges .dclk ws).map fun v => (v.le, v.data)

/-- The addresses a receiver sees at the GCLK rising edges (R92). -/
def gclkAddresses (ws : List Lines) : List Nat := (risingEdges .gclk ws).map Lines.address

/-- What a receiver recovers from a waveform (R92). -/
inductive Received where
  /-- A data shift of the six data-line levels. -/
  | shift (data : List Bool)
  /-- The command of a pulse count; 1 is DataLatch. -/
  | command (n : Nat)
  /-- A GCLK rising edge at an address. -/
  | row (address : Nat)
  deriving DecidableEq, Repr

/-- An LE-high interval, by the data levels at its DCLK rising edges: the command of their number, and when there is just
one "both a shift and a DataLatch" (R92 (1), (3); R82). -/
def intervalRead (held : List (List Bool)) : List Received :=
  (if held.length = 1 then held.map .shift else []) ++ [.command held.length]

/-- What one change of the lines adds to the reading; `held` is the data at the DCLK rising edges of the LE-high interval at
hand. A GCLK rising edge reads the address (4); LE falling ends the interval (1), (3); a DCLK rising edge is a shift with LE
low (2) and is held with LE high, until the interval's count is known (R92; log 22). -/
def receive (held : List (List Bool)) (a b : Lines) : List (List Bool) × List Received :=
  let rows := if !a.gclk && b.gclk then [Received.row b.address] else []
  if a.le && !b.le then ([], rows ++ intervalRead held)
  else if !a.dclk && b.dclk then
    if b.le then (held ++ [b.data], rows) else (held, rows ++ [.shift b.data])
  else (held, rows)

/-- The reading from a state of the receiver on. -/
def receivedFrom (held : List (List Bool)) : List Lines → List Received
  | a :: b :: rest => (receive held a b).2 ++ receivedFrom (receive held a b).1 (b :: rest)
  | _ => []

/-- How a receiver reads a waveform, in order: shifts, commands, addressed GCLK edges (R92). -/
def received (ws : List Lines) : List Received := receivedFrom [] ws

/-- The number of line writes in a trace (R221). -/
def writeCount (t : List Event) : Nat := t.countP Event.isWrite

/-- The number of holds of one length in a trace (R221). -/
def holdCount (k : Hold) (t : List Event) : Nat :=
  t.countP fun
    | .h k' => decide (k' = k)
    | .w _ _ => false
    | .clr => false

/-- The least duration of a trace, its line writes counted as taking no time: "a lower bound" (R221, R31). -/
def leastDuration (p : Params) (t : List Event) : Nat :=
  holdCount .pw t * p.pulseWidth + holdCount .dead t * p.deadTime

/-- A line's name (R21). -/
def lineName : Line → String
  | .gclk => "GCLK"
  | .dclk => "DCLK"
  | .le => "LE"
  | .a0 => "A0"
  | .a1 => "A1"
  | .a2 => "A2"
  | .a3 => "A3"
  | .r1 => "R1"
  | .g1 => "G1"
  | .b1 => "B1"
  | .r2 => "R2"
  | .g2 => "G2"
  | .b2 => "B2"

/-- An event in the written form of trace listings: `L+`, `L-`, `h`, `d`, `CLR` (R89). -/
def Event.written : Event → String
  | .w l true => lineName l ++ "+"
  | .w l false => lineName l ++ "-"
  | .h .pw => "h"
  | .h .dead => "d"
  | .clr => "CLR"

end Sys2Proof.Machine
end

