-- ==== Sys2Proof/Safety.lean ====
section
/-! DEFINITION. What a safe run of this machine is, in the terms the claims use: the words the hardware's ports
can carry, the invariant of the machine, the outcome of a trace that is not cut short. -/

namespace Sys2Proof.Machine

/-- The operations that come from the host: the requests and the frame-buffer operations (R83, R88). -/
def isHostOperation (i : Instr) : Bool := decide (i.format = .req) || decide (i.format = .fbOp)

/-- The inputs of a step are ones the hardware's ports can carry: nothing presented, or the word of a host
operation (log 3). -/
def StepInput.fromHost (x : StepInput) : Bool :=
  x.port.isEmpty ||
    match decode x.port with
    | .ok i => isHostOperation i
    | .error _ => false

/-- The lines after the writes of a trace. -/
def Lines.after (ls : Lines) : List Event → Lines
  | [] => ls
  | .w l v :: rest => (ls.set l v).after rest
  | .h _ :: rest => ls.after rest
  | .clr :: rest => ls.after rest

/-- The two clocks and the latch are low: the idle levels of R104. -/
def Lines.idle (ls : Lines) : Bool := !ls.gclk && !ls.dclk && !ls.le

/-- The part of the running operation's trace that is still to come. -/
def State.remaining (s : State) : List Event := (opTrace s.op s.params s.fb).drop s.idx.toNat

/-- `LIFECYCLE` fits the operation and its position: "States `Reset` and `PreActive` are held only while INIT is
running" (R24), REFRESH runs in `Configured` only (R144), TEARDOWN never in `Teardown` (R147). -/
def State.lifecycleFits (s : State) : Bool :=
  match s.busy, s.op with
  | true, .init =>
    decide (s.lifecycle =
      if s.idx.toNat < 42 then .uninitialized else if s.idx.toNat < 100 then .reset else .preActive)
  | true, .refresh => decide (s.lifecycle = .configured)
  | true, .teardown =>
    decide (s.lifecycle = .uninitialized ∨ s.lifecycle = .configured ∨ s.lifecycle = .initFailed)
  | false, _ => decide (s.lifecycle ≠ .reset ∧ s.lifecycle ≠ .preActive)

/-- THE INVARIANT of the machine whose ports carry host operations only. -/
structure State.Inv (s : State) : Prop where
  /-- The frame buffer is in its canonical form. -/
  canonical : s.fb.wf = true
  /-- The inputs to come are the hardware's. -/
  host : ∀ x ∈ s.inputs, x.fromHost = true
  /-- While busy the position lies in the trace (R34). -/
  inTrace : s.busy = true → s.idx.toNat < s.op.traceLength
  /-- The lifecycle fits the position (R24). -/
  lifecycle : s.lifecycleFits = true
  /-- Without `GPIO_FALLIBLE` no error is ever recorded (R26). -/
  infallible : s.params.gpioFallible = false → s.errInit = false ∧ s.errSteady = false
  /-- A failed initialisation is recorded (R181), and a record of one means it failed, whatever came after (R189). -/
  failed : s.lifecycle = .initFailed → s.errInit = true
  failedOnly : s.errInit = true → s.lifecycle = .initFailed ∨ s.lifecycle = .teardown
  /-- Idle, the clocks and the latch are low unless an INIT was aborted (R104). -/
  idleLow : s.busy = false → s.lifecycle ≠ .initFailed → s.lines.idle = true
  /-- Busy, the rest of the trace brings them low (R104). -/
  endsLow : s.busy = true → (s.lines.after s.remaining).idle = true
  /-- In `Teardown` all lines are low (R147, R196). -/
  tornDown : s.lifecycle = .teardown → s.lines = Lines.low
  /-- The rest of TEARDOWN's trace brings them all low (R148). -/
  tearsDown : s.busy = true → s.op = .teardown → s.lines.after s.remaining = Lines.low

/-- Some of the next n line writes fails (R180). -/
def State.someFails (s : State) (n : Nat) : Bool :=
  s.params.gpioFallible && (s.wrFail.take n).any id

/-- A trace is not cut short from this state: no INIT is running, or none of its writes fails (R184). -/
def State.uncut (s : State) (t : List Event) : Bool := !s.inInit || !s.someFails (writeCount t)

/-- THE OUTCOME OF A TRACE that holds no `CLR` and is not cut short, its end levels given: the trace is emitted, each
write has consumed one answer when lines can fail, and a failure is logged in `ERR_STEADY` (R182). Nothing else
changes. -/
def State.outcome (s : State) (ls : Lines) (t : List Event) : State :=
  { s with
    lines := ls
    emitted := t.reverse ++ s.emitted
    wrFail := if s.params.gpioFallible then s.wrFail.drop (writeCount t) else s.wrFail
    errSteady := s.errSteady || s.someFails (writeCount t) }

/-- The trace of an operation that is one trace: a procedure, a pulse, a line write, a hold (R18); none for operands that
are refused and for operations that emit none. -/
def procedureTrace (p : Params) (fb : Memory) : Instr → Option (List Event)
  | .cmdDataLatch => some (cmdTrace .dataLatch)
  | .cmdVsync => some (cmdTrace .vsync)
  | .cmdWriteConfig => some (cmdTrace .writeConfig)
  | .cmdReset => some (cmdTrace .reset)
  | .cmdPreActive => some (cmdTrace .preActive)
  | .cmdReserved _ => none
  | .init => none
  | .refresh => none
  | .teardown => none
  | .reqReserved => none
  | .cfg v => some (cfgTrace p v)
  | .scan a => if scanlineLegal a then some (scanTrace a.toNat) else none
  | .sdata s => if scanlineLegal s then some (sdataTrace p fb s.toNat) else none
  | .sdataSymbol s ic plane led =>
    if scanlineLegal s && icLegal ic then some (symbolTrace p fb s.toNat ic.toNat plane.toNat led.toNat) else none
  | .scanPeriod s => if scanlineLegal s then some (scanPeriodTrace s.toNat) else none
  | .w l v => some [.w l v]
  | .h k => some [.h k]
  | .pulse c => some (pulseTrace c)
  | .clr => none
  | .clear => none
  | .setpx _ _ _ _ _ => none
  | .fillrect _ _ _ _ _ _ _ => none
  | .text _ => none
  | .fbread _ _ => none

/-- An event without the level of a colour data line: the shape that no frame-buffer content changes (R144). -/
def Event.shape : Event → Event
  | .w .r1 _ => .w .r1 false
  | .w .g1 _ => .w .g1 false
  | .w .b1 _ => .w .b1 false
  | .w .r2 _ => .w .r2 false
  | .w .g2 _ => .w .g2 false
  | .w .b2 _ => .w .b2 false
  | e => e

/-- A pixel that the text `cs` sets: a set cell of the glyph of a character that is drawn; character k is drawn at
`x_k`, and only if `x_k + GW <= W - GW` (R165). -/
def TextSets (p : Params) (cs : List Char) (x y : Nat) : Prop :=
  ∃ k ch g cx cy, cs[k]? = some ch ∧ charLeft p k + p.glyphWidth + p.glyphWidth ≤ Config.width ∧
    glyphOf p ch = some g ∧ cx < p.glyphWidth ∧ cy < p.glyphHeight ∧ glyphCell g cx cy = true ∧
    x = charLeft p k + cx ∧ y = textTop p + cy

/-- The rows of the frame buffer that reach the lines: 8s on chain 1, 8s+44 on chain 2 while in the grid (R58). -/
def transmittedRow (y : Nat) : Bool :=
  decide (y < 88) && (decide (y % 8 = 0) || decide (44 ≤ y ∧ (y - 44) % 8 = 0))

/-- A text no longer than the host's limit (R165, R218; log 18). -/
def textWithinLimit (p : Params) (cs : List Char) : Bool := decide (cs.length ≤ p.textMax)

/-- "The external text-input length limit must be <= this computed maximum" (R165, R218). -/
def textLimitSafe (p : Params) : Bool := decide (p.textMax ≤ maxChars p)

end Sys2Proof.Machine
end

