-- ==== Sys2Proof/Certificates/Slice0/Obligations.lean ====
section
/-! DEFINITION. The statements for the provers. "log n" is notes/assumptions/n.md. -/

open Sys2Proof Sys2Proof.Machine

/-! ## Encoding -/

/-- Words written out from the spec's codes (R72, R77, R85, R86) decode to their operations; the format byte in front
is the model's (log 1), and so is the choice of format for a table word (log 2). -/
def Obligations.WrittenOutWordsDecode : Prop :=
  decode [0, 0b00] = .ok .init ∧ decode [0, 0b01] = .ok .refresh ∧ decode [0, 0b10] = .ok .teardown ∧
  decode [0, 0b11] = .ok .reqReserved ∧
  decode [1, 0b0001] = .ok .cmdDataLatch ∧ decode [1, 0b0010] = .ok .cmdVsync ∧
  decode [1, 0b0100] = .ok .cmdWriteConfig ∧ decode [1, 0b1010] = .ok .cmdReset ∧
  decode [1, 0b1110] = .ok .cmdPreActive ∧ decode [1, 0b0011] = .ok (.cmdReserved 3) ∧
  decode [3, 0b1010] = .ok (.scan 0b1010) ∧ decodeTableWord 2 0b01 = some .refresh ∧
  decodeTableWord 4 0b0001 = some .cmdDataLatch ∧ decodeTableWord 16 0xA5C3 = some (.cfg 0xA5C3)

/-- Decoding the word of a well-formed instruction gives it back, for every operand the encoding admits. -/
def Obligations.DecodeOfEncodeIsTheInstruction : Prop :=
  ∀ i : Instr, i.wellFormed = true → decode (encode i) = .ok i

/-- A word that decodes has one meaning and no bit of it is dropped: the instruction's encoding is that word. -/
def Obligations.EncodeOfDecodedIsTheWord : Prop :=
  ∀ (bs : List Byte) (i : Instr), decode bs = .ok i → encode i = bs

/-! ## The step -/

/-- An idle step runs the instruction on the port, with the inputs of this step behind it. For the host's operations this is R150
and R152; that the port also takes procedures and events, which R83 and R90 leave to the block, and that the inputs stand in
a list are the model's choices (log 3, log 4). -/
def Obligations.IdleStepRunsThePortInstruction : Prop :=
  ∀ (s : State) (i : Instr), s.input.rst = false → s.busy = false → decode s.input.port = .ok i →
    step s = exec i s.consume

/-- A busy step runs the event at the sequencer's position through its instruction, and then the position advances
unless the event was a write that ended INIT (R150). -/
def Obligations.BusyStepRunsTheNextEvent : Prop :=
  ∀ (s : State) (e : Event), s.input.rst = false → s.busy = true → s.nextEvent = some e →
    ∃ t, exec e.toInstr s.consume = .next t ∧ step s = .next (if s.fatal e then t else t.advance)

/-- What follows an event (R35, R142, R147): the lifecycle changes at 41, 99, 203 of INIT and at 13 of TEARDOWN and nowhere
else, `IDX` goes up by one, `BUSY` falls when `IDX` reaches the length of the trace; all other state stays. -/
def Obligations.AdvanceMovesThePosition : Prop :=
  ∀ s : State, s.advance = { s with
    lifecycle :=
      if s.op = .init ∧ s.idx.toNat = 41 then .reset
      else if s.op = .init ∧ s.idx.toNat = 99 then .preActive
      else if s.op = .init ∧ s.idx.toNat = 203 then .configured
      else if s.op = .teardown ∧ s.idx.toNat = 13 then .teardown
      else s.lifecycle
    idx := s.idx + 1
    busy := s.advance.busy } ∧
  (s.idx.toNat < s.op.traceLength → (s.advance.busy = false ↔ s.idx.toNat + 1 = s.op.traceLength))

/-- With nothing presented and `BUSY` = 0 no state of the block changes and no event is emitted (R140). -/
def Obligations.IdleStepWithoutRequestChangesNothing : Prop :=
  ∀ s : State, s.input = ⟨false, []⟩ → s.busy = false → step s = .next { s with inputs := s.inputs.tail }

/-- Hardware reset wins over everything and gives every field its value: those of R40, FB the free values of this reset (log
6); the parameters are kept (log 26), the inputs and answers still to come stay (log 4, log 5), and the model's own trace and
read result are empty (log 10, log 11). -/
def Obligations.ResetGivesTheResetValues : Prop :=
  ∀ s : State, s.input.rst = true → ∃ t, step s = .next t ∧
    (∀ l : Line, t.lines.get l = false) ∧ t.lifecycle = .uninitialized ∧ t.busy = false ∧
    t.errInit = false ∧ t.errSteady = false ∧ t.op = .init ∧ t.idx = 0 ∧ t.counters = Counters.zero ∧
    (∀ x y, inGrid x y = true → t.fb.fbRead x y = Config.fbReset (s.resets + 1) x y) ∧
    t.params = s.params ∧ t.status = 0 ∧
    t.inputs = s.inputs.tail ∧ t.wrFail = s.wrFail ∧ t.emitted = [] ∧ t.readOut = none ∧ t.resets = s.resets + 1

/-- The state the machine starts in has the reset values of R40 (log 4, 5, 6, 8, 10, 11 name the model's own). -/
def Obligations.TheStartStateHasTheResetValues : Prop :=
  (∀ l : Line, State.reset.lines.get l = false) ∧ State.reset.lifecycle = .uninitialized ∧
  State.reset.busy = false ∧ State.reset.errInit = false ∧ State.reset.errSteady = false ∧
  State.reset.op.code = 0 ∧ State.reset.idx = 0 ∧ State.reset.counters = Counters.zero ∧
  State.reset.status = 0 ∧ State.reset.reqReady = true ∧
  (∀ x y, inGrid x y = true → State.reset.fb.fbRead x y = Config.fbReset 0 x y)

/-- While `BUSY` = 1 what the host presents has no influence on the step: "neither accepted nor queued" (R152). -/
def Obligations.BusyStepIgnoresThePort : Prop :=
  ∀ (s : State) (word : List Byte) (rest : List StepInput), s.busy = true →
    step { s with inputs := ⟨false, word⟩ :: rest } = step { s with inputs := ⟨false, []⟩ :: rest }

/-! ## The pulse controller -/

/-- A line write that succeeds: the line takes the level, no other line changes, and it raises nothing, code 0 (R100, R186). -/
def Obligations.LineWriteSetsThatLineOnly : Prop :=
  ∀ (l : Line) (v : Bool) (s : State), s.answerFails = false → ∃ t, exec (.w l v) s = .next t ∧
    (∀ k, t.lines.get k = if k = l then v else s.lines.get k) ∧
    t = { s with
      lines := t.lines
      emitted := .w l v :: s.emitted
      wrFail := if s.params.gpioFallible then s.wrFail.tail else s.wrFail } ∧
    s.failureCode (.w l v) = 0

/-- A line write that fails outside INIT still sets the line, and `ERR_STEADY` is its only other effect (R182, R183), code 2 (R186);
outside any operation this is the model's choice (log 12). -/
def Obligations.FailedWriteOutsideInitIsLogged : Prop :=
  ∀ (l : Line) (v : Bool) (s : State), s.answerFails = true → s.inInit = false →
    exec (.w l v) s = .next { s with
      lines := s.lines.set l v
      emitted := .w l v :: s.emitted
      wrFail := s.wrFail.tail
      errSteady := true } ∧
    s.failureCode (.w l v) = 2

/-- A line write of INIT that fails: the step sets the line, `ERR_INIT`, `LIFECYCLE` and `BUSY`, and `IDX` is not
advanced (R184); code 1 (R186). -/
def Obligations.FailedWriteInInitEndsIt : Prop :=
  ∀ (l : Line) (v : Bool) (s : State), s.input.rst = false → s.busy = true → s.op = .init →
    s.nextEvent = some (.w l v) → s.answerFails = true →
    step s = .next { s with
      lines := s.lines.set l v
      errInit := true
      lifecycle := .initFailed
      busy := false
      emitted := .w l v :: s.emitted
      wrFail := s.wrFail.tail
      inputs := s.inputs.tail } ∧
    s.failureCode (.w l v) = 1

/-- A hold changes no state; it is part of the trace (R101), and it cannot fail (R180). -/
def Obligations.HoldChangesNoState : Prop :=
  ∀ (k : Hold) (s : State), exec (.h k) s = .next { s with emitted := .h k :: s.emitted } ∧
    s.failureCode (.h k) = 0

/-- A pulse: high, hold, low, hold; the line is low after it and no other line changes (R102). A failing write of a pulse that no
operation runs sets `ERR_STEADY`: the model's choice (log 12). -/
def Obligations.PulseRaisesAndLowersItsClock : Prop :=
  ∀ (c : Clock) (s : State) (t : List Event),
    t = [.w (clockLine c) true, .h .pw, .w (clockLine c) false, .h .pw] → s.uncut t = true →
    exec (.pulse c) s = .next (s.outcome (s.lines.set (clockLine c) false) t)

/-- CLR: every pixel reads zero, nothing else changes (R19), and it cannot fail (R180). -/
def Obligations.ClrClearsTheFrameBuffer : Prop :=
  ∀ s : State, ∃ t, exec .clr s = .next t ∧ (∀ x y, t.fb.fbRead x y = Pixel.zero) ∧
    t = { s with fb := t.fb, emitted := .clr :: s.emitted } ∧ s.failureCode .clr = 0

/-- An operation that INIT runs is cut at its first failing write: every event before it has been applied and none after
it (R184). -/
def Obligations.InitAbortIsPrecise : Prop :=
  ∀ (i : Instr) (s : State) (pre post : List Event) (l : Line) (v : Bool),
    procedureTrace s.params s.fb i = some (pre ++ .w l v :: post) → s.inInit = true →
    s.someFails (writeCount pre) = false → s.someFails (writeCount pre + 1) = true →
    exec i s = .next { s with
      lines := s.lines.after (pre ++ [.w l v])
      errInit := true
      lifecycle := .initFailed
      busy := false
      emitted := .w l v :: (pre.reverse ++ s.emitted)
      wrFail := s.wrFail.drop (writeCount pre + 1) }

/-! ## Commands and configuration -/

/-- Each command: LE high, its count of DCLK pulses, LE low; only LE and DCLK are written (R111, R112 to R116). A failing write
of a command that no operation runs sets `ERR_STEADY`: the model's choice (log 12). -/
def Obligations.CommandsSendTheirPulseCount : Prop :=
  ∀ (i : Instr) (n : Nat),
    (i, n) ∈ [(Instr.cmdDataLatch, 1), (.cmdVsync, 2), (.cmdWriteConfig, 4), (.cmdReset, 10), (.cmdPreActive, 14)] →
    ∀ (s : State) (t : List Event),
      t = .w .le true :: ((List.replicate n [.w .dclk true, .h .pw, .w .dclk false, .h .pw]).flatten
        ++ [.w .le false]) →
      s.uncut t = true →
      exec i s = .next (s.outcome { s.lines with le := false, dclk := false } t) ∧
        t.length = 4 * n + 2 ∧ writeCount t = 2 * n + 2

/-- A count that names no command is refused: "a model that takes a number must refuse any other" (R73). The port word of a
count, and that one constructor carries every count, on the port up to 255, are the model's choices (log 1, log 24). -/
def Obligations.ReservedCountsAreRefused : Prop :=
  ∀ (b : Byte) (s : State), isReservedCount b.toNat = true →
    decode [1, b] = .ok (.cmdReserved b.toNat) ∧
      ∀ n, exec (.cmdReserved n) s = .refused (.reservedCommandCount n)

/-- CFG: WriteConfig, the 16 bits most significant first on `CFG_LINE`, DataLatch (R117). A failing write of a frame
that no operation runs sets `ERR_STEADY`: the model's choice (log 12). -/
def Obligations.ConfigShiftsTheWordMostSignificantBitFirst : Prop :=
  ∀ (v : BitVec 16) (s : State) (t : List Event),
    t = cmdTrace .writeConfig ++
      [15, 14, 13, 12, 11, 10, 9, 8, 7, 6, 5, 4, 3, 2, 1, 0].flatMap
        (fun i => .w (dataLine s.params.cfgLine) (v.getLsbD i) :: pulseTrace .dclk) ++ cmdTrace .dataLatch →
    s.uncut t = true →
    exec (.cfg v) s = .next (s.outcome
      (({ s.lines with le := false, dclk := false } : Lines).set (dataLine s.params.cfgLine) (v.getLsbD 0)) t) ∧
      t.length = 104

/-- The waveform of `CMD(cmd)` started with LE and DCLK low: one LE pulse, `count` DCLK pulses, LE high at each, so that a
receiver reads the command, and for DataLatch a shift of the data lines as well (R92); and that of `CFG(v)`: at the 5th to 20th DCLK edge LE low and the bits 15 to 0 on `CFG_LINE`, the
21st edge inside an LE pulse of count 1 and so a 17th shift (R119). -/
def Obligations.CommandAndConfigWaveforms : Prop :=
  ∀ (p : Params) (ls : Lines), ls.le = false → ls.dclk = false →
    (∀ c : Command,
      pulseCount .le (waveform ls (cmdTrace c)) = 1 ∧
      pulseCount .dclk (waveform ls (cmdTrace c)) = c.count ∧
      (∀ v ∈ risingEdges .dclk (waveform ls (cmdTrace c)), v.le = true) ∧
      commandsSeen (waveform ls (cmdTrace c)) = [c.count] ∧ commandNamed c.count = some c ∧
      received (waveform ls (cmdTrace c)) = (if c = .dataLatch then [.shift ls.data] else []) ++ [.command c.count]) ∧
    ∀ v : BitVec 16,
      (risingEdges .dclk (waveform ls (cfgTrace p v))).map (fun u => (u.le, u.get (dataLine p.cfgLine))) =
        List.replicate 4 (true, ls.get (dataLine p.cfgLine)) ++
        [15, 14, 13, 12, 11, 10, 9, 8, 7, 6, 5, 4, 3, 2, 1, 0].map (fun i => (false, v.getLsbD i)) ++
        [(true, v.getLsbD 0)] ∧
      commandsSeen (waveform ls (cfgTrace p v)) = [4, 1] ∧
      received (waveform ls (cfgTrace p v)) = .command 4 ::
        ([15, 14, 13, 12, 11, 10, 9, 8, 7, 6, 5, 4, 3, 2, 1, 0, 0].map
          (fun i => .shift (ls.set (dataLine p.cfgLine) (v.getLsbD i)).data) ++ [.command 1])

/-! ## Scanlines -/

/-- SCAN: the four address lines take the address, `A0` least significant, in the order A0 to A3; nothing else changes
(R77, R131). A failing write of a SCAN that no operation runs sets `ERR_STEADY`: the model's choice (log 12). -/
def Obligations.ScanDrivesTheAddress : Prop :=
  ∀ (a : BitVec 4) (s : State) (t : List Event), a.toNat ≤ 10 →
    t = [.w .a0 (a.getLsbD 0), .w .a1 (a.getLsbD 1), .w .a2 (a.getLsbD 2), .w .a3 (a.getLsbD 3)] →
    s.uncut t = true → ∃ u, exec (.scan a) s = .next u ∧ u.lines.address = a.toNat ∧
      u = s.outcome { s.lines with
        a0 := a.getLsbD 0, a1 := a.getLsbD 1, a2 := a.getLsbD 2, a3 := a.getLsbD 3 } t

/-- Scanlines 11 to 15 are refused, by SCAN because the spec says so (R131, U4), by SDATA, SDATA.symbol and SCANPERIOD as
operands out of range (log 16); so is an IC above 21. -/
def Obligations.ScanlinesAboveTenAreRefused : Prop :=
  ∀ (a : BitVec 4) (ic : BitVec 5) (plane led : BitVec 4) (s : State),
    (10 < a.toNat → exec (.scan a) s = .refused (.reservedScanAddress a) ∧
      exec (.sdata a) s = .refused (.reservedScanline a) ∧
      exec (.sdataSymbol a ic plane led) s = .refused (.reservedScanline a) ∧
      exec (.scanPeriod a) s = .refused (.reservedScanline a)) ∧
    (a.toNat ≤ 10 → 21 < ic.toNat → exec (.sdataSymbol a ic plane led) s = .refused (.reservedIc ic))

/-- One symbol: the six data lines take bit `plane` of the two pixels, DCLK is pulsed, LE is high around the pulse of
the last symbol only (R79, R133). A failing write of a symbol that no operation runs sets `ERR_STEADY`: the model's
choice (log 12). -/
def Obligations.SymbolDrivesTheBitsOfItsPlane : Prop :=
  ∀ (sl : BitVec 4) (ic : BitVec 5) (plane led : BitVec 4) (s : State) (c1 c2 : Pixel) (t : List Event),
    sl.toNat ≤ 10 → ic.toNat ≤ 21 →
    c1 = s.fb.fbReadAt (colmap s.params ic.toNat led.toNat) (sl.toNat * 8) →
    c2 = s.fb.fbReadAt (colmap s.params ic.toNat led.toNat) (sl.toNat * 8 + 44) →
    t = [.w .r1 (c1.r.getLsbD plane.toNat), .w .g1 (c1.g.getLsbD plane.toNat), .w .b1 (c1.b.getLsbD plane.toNat),
         .w .r2 (c2.r.getLsbD plane.toNat), .w .g2 (c2.g.getLsbD plane.toNat), .w .b2 (c2.b.getLsbD plane.toNat)] ++
      (if ic = 21 ∧ plane = 0 ∧ led = 15 then .w .le true :: (pulseTrace .dclk ++ [.w .le false])
        else pulseTrace .dclk) →
    s.uncut t = true →
    exec (.sdataSymbol sl ic plane led) s = .next (s.outcome { s.lines with
      r1 := c1.r.getLsbD plane.toNat, g1 := c1.g.getLsbD plane.toNat, b1 := c1.b.getLsbD plane.toNat,
      r2 := c2.r.getLsbD plane.toNat, g2 := c2.g.getLsbD plane.toNat, b2 := c2.b.getLsbD plane.toNat,
      dclk := false
      le := if ic = 21 ∧ plane = 0 ∧ led = 15 then false else s.lines.le } t)

/-- SDATA: 56322 events; after it DCLK and LE are low and the data lines hold the last symbol, IC 21, LED 15, plane 0; no other
line and no pixel changes (R133). A failing write of an SDATA that no operation runs sets `ERR_STEADY`: the model's choice
(log 12). -/
def Obligations.ScanlineDataSendsAllSymbols : Prop :=
  ∀ (sl : BitVec 4) (s : State) (c1 c2 : Pixel), sl.toNat ≤ 10 →
    c1 = s.fb.fbReadAt (colmap s.params 21 15) (sl.toNat * 8) →
    c2 = s.fb.fbReadAt (colmap s.params 21 15) (sl.toNat * 8 + 44) →
    s.uncut (sdataTrace s.params s.fb sl.toNat) = true →
    exec (.sdata sl) s = .next (s.outcome { s.lines with
      r1 := c1.r.getLsbD 0, g1 := c1.g.getLsbD 0, b1 := c1.b.getLsbD 0,
      r2 := c2.r.getLsbD 0, g2 := c2.g.getLsbD 0, b2 := c2.b.getLsbD 0,
      dclk := false, le := false } (sdataTrace s.params s.fb sl.toNat)) ∧
    (sdataTrace s.params s.fb sl.toNat).length = 56322

/-- Event j of SDATA(s) is where R134 says: symbol `q = min (j / 10) 5631`. -/
def Obligations.ScanlineDataLayoutByIndex : Prop :=
  ∀ (p : Params) (fb : Memory) (s j : Nat), sdataEventAt p fb s j = (sdataTrace p fb s)[j]?

/-- What a receiver sees of SDATA started with DCLK and LE low: 5632 data shifts in the order of the symbol numbers, each with
the six bits of its symbol, LE high at the last only; its last edge is both a shift and the one DataLatch (R78, R79, R92, R136). -/
def Obligations.ScanlineDataWaveform : Prop :=
  ∀ (p : Params) (fb : Memory) (s : Nat) (ls : Lines), ls.le = false → ls.dclk = false →
    dclkSamples (waveform ls (sdataTrace p fb s)) = (List.range 5632).map (fun q =>
      let ic := q / 256
      let plane := 15 - q % 256 / 16
      let led := q % 16
      let c1 := fb.fbReadAt (colmap p ic led) (s * 8)
      let c2 := fb.fbReadAt (colmap p ic led) (s * 8 + 44)
      (decide (q = 5631), [c1.r.getLsbD plane, c1.g.getLsbD plane, c1.b.getLsbD plane,
        c2.r.getLsbD plane, c2.g.getLsbD plane, c2.b.getLsbD plane])) ∧
    pulseCount .le (waveform ls (sdataTrace p fb s)) = 1 ∧
    commandsSeen (waveform ls (sdataTrace p fb s)) = [1] ∧
    received (waveform ls (sdataTrace p fb s)) =
      (dclkSamples (waveform ls (sdataTrace p fb s))).map (fun d => .shift d.2) ++ [.command 1]

/-- From scanline 6 on chain 2 reads zeros; before, row 8s+44 (R57, R58). -/
def Obligations.ChainTwoReadsZerosFromScanlineSix : Prop :=
  ∀ (p : Params) (fb : Memory) (s ic led : Nat),
    chain1Pixel p fb s ic led = fb.fbReadAt (colmap p ic led) (8 * s) ∧
    (s < 6 → chain2Pixel p fb s ic led = fb.fbReadAt (colmap p ic led) (8 * s + 44)) ∧
    (6 ≤ s → chain2Pixel p fb s ic led = Pixel.zero)

/-- SCANPERIOD: address, 256 GCLK pulses, on scanline 10 a Vsync, hold, the 257th pulse, hold (R145). A failing write of a
scan period that no operation runs sets `ERR_STEADY`: the model's choice (log 12). -/
def Obligations.ScanPeriodAddressesAndClocksARow : Prop :=
  ∀ (sl : BitVec 4) (s : State) (t : List Event), sl.toNat ≤ 10 →
    t = scanTrace sl.toNat
      ++ (List.replicate 256 [.w .gclk true, .h .pw, .w .gclk false, .h .pw]).flatten
      ++ (if sl = 10 then cmdTrace .vsync else [])
      ++ [.h .dead, .w .gclk true, .h .pw, .w .gclk false, .h .pw, .h .dead] →
    s.uncut t = true →
    exec (.scanPeriod sl) s = .next (s.outcome { s.lines with
      gclk := false
      a0 := sl.getLsbD 0, a1 := sl.getLsbD 1, a2 := sl.getLsbD 2, a3 := sl.getLsbD 3
      dclk := if sl = 10 then false else s.lines.dclk
      le := if sl = 10 then false else s.lines.le } t) ∧
    t.length = (if sl = 10 then 1044 else 1034)

/-! ## Requests and operations -/

/-- A request that its lifecycle state admits starts its operation: `OP <- code; IDX <- 0; BUSY <- 1`, and nothing else (R35,
R142, R144, R147). -/
def Obligations.AdmittedRequestsStartTheirOperation : Prop :=
  ∀ s : State, s.busy = false →
    (s.lifecycle = .uninitialized → exec .init s = .next { s with op := .init, idx := 0, busy := true }) ∧
    (s.lifecycle = .configured → exec .refresh s = .next { s with op := .refresh, idx := 0, busy := true }) ∧
    (s.lifecycle ≠ .teardown → exec .teardown s = .next { s with op := .teardown, idx := 0, busy := true })

/-- Every other request is accepted and has no effect: the reserved code always, INIT outside `Uninitialized`, REFRESH
outside `Configured`, everything in `Teardown` (R87, R151). -/
def Obligations.OtherRequestsHaveNoEffect : Prop :=
  ∀ s : State, s.busy = false →
    exec .reqReserved s = .next s ∧
    (s.lifecycle ≠ .uninitialized → exec .init s = .next s) ∧
    (s.lifecycle ≠ .configured → exec .refresh s = .next s) ∧
    (s.lifecycle = .teardown → exec .init s = .next s ∧ exec .refresh s = .next s ∧ exec .teardown s = .next s)

/-- While `BUSY` = 1 no request, CLEAR, SETPX, FILLRECT or TEXT of the host is accepted (R152); that it then has no effect, and no
refusal, is the model's reading of U10 (log 13). -/
def Obligations.NothingIsAcceptedWhileBusy : Prop :=
  ∀ (i : Instr) (s : State), isHostOperation i = true → (∀ x y, i ≠ .fbread x y) → s.busy = true →
    exec i s = .next s

/-- The traces' lengths (R34, R141, R146, R148), which the sequencer's end test uses. -/
def Obligations.TraceLengthsAreTheSpecs : Prop :=
  ∀ (op : Op) (p : Params) (fb : Memory), (opTrace op p fb).length = op.traceLength ∧
    op.traceLength = (match op with | .init => 204 | .refresh => 630926 | .teardown => 14)

/-- The layout of REFRESH by index is its trace (R146, R149). -/
def Obligations.RefreshLayoutByIndex : Prop :=
  ∀ (p : Params) (fb : Memory) (i : Nat), refreshEventAt p fb i = (refreshTrace p fb)[i]?

/-- The count table of R221, every row: line writes, `H(PW)`, `H(DEAD)`; and its lower bound on the duration of REFRESH. -/
def Obligations.EventCountsOfTheTraces : Prop :=
  ∀ (p : Params) (fb : Memory) (v : BitVec 16),
    (∀ c : Clock, writeCount (pulseTrace c) = 2 ∧ holdCount .pw (pulseTrace c) = 2 ∧ holdCount .dead (pulseTrace c) = 0) ∧
    (∀ c : Command, writeCount (cmdTrace c) = 2 * c.count + 2 ∧ holdCount .pw (cmdTrace c) = 2 * c.count ∧
      holdCount .dead (cmdTrace c) = 0) ∧
    (writeCount (cfgTrace p v) = 62 ∧ holdCount .pw (cfgTrace p v) = 42 ∧ holdCount .dead (cfgTrace p v) = 0) ∧
    (∀ a, writeCount (scanTrace a) = 4 ∧ holdCount .pw (scanTrace a) = 0 ∧ holdCount .dead (scanTrace a) = 0) ∧
    (∀ s, writeCount (sdataTrace p fb s) = 45058 ∧ holdCount .pw (sdataTrace p fb s) = 11264 ∧
      holdCount .dead (sdataTrace p fb s) = 0) ∧
    (∀ s, writeCount (scanPeriodTrace s) = (if s = 10 then 524 else 518) ∧
      holdCount .pw (scanPeriodTrace s) = (if s = 10 then 518 else 514) ∧
      holdCount .dead (scanPeriodTrace s) = 2) ∧
    (writeCount (initTrace p) = 114 ∧ holdCount .pw (initTrace p) = 90 ∧ holdCount .dead (initTrace p) = 0) ∧
    (writeCount (refreshTrace p fb) = 501342 ∧ holdCount .pw (refreshTrace p fb) = 129562 ∧
      holdCount .dead (refreshTrace p fb) = 22) ∧
    (writeCount teardownTrace = 13 ∧ holdCount .pw teardownTrace = 0 ∧ holdCount .dead teardownTrace = 0) ∧
    leastDuration p (refreshTrace p fb) = 129562 * p.pulseWidth + 22 * p.deadTime

/-- The loop counters name what is in progress: at a position of the data part of REFRESH the next event is event
`IDX % 56322 - 10*q` of the symbol of the counters; in the scan pass, with `k = IDX - 619542`, `S = min(k / 1034, 10)` and the next event
is event `k - 1034*S` of the scan period of `S` (R36, R149). -/
def Obligations.CountersNameTheSymbolInProgress : Prop :=
  ∀ s : State, s.busy = true → s.op = .refresh →
    (s.idx.toNat < 619542 →
      s.nextEvent = (symbolTrace s.params s.fb s.counters.s.toNat s.counters.ic.toNat s.counters.plane.toNat
        s.counters.led.toNat)[s.idx.toNat % 56322 -
          10 * symbolNumber s.counters.ic.toNat s.counters.plane.toNat s.counters.led.toNat]? ∧
      s.counters.s.toNat ≤ 10 ∧ s.counters.ic.toNat ≤ 21 ∧ s.nextEvent ≠ none) ∧
    (619542 ≤ s.idx.toNat →
      s.counters.s.toNat = min ((s.idx.toNat - 619542) / 1034) 10 ∧
      s.nextEvent = (scanPeriodTrace s.counters.s.toNat)[s.idx.toNat - 619542 - 1034 * s.counters.s.toNat]? ∧
      (s.idx.toNat < 630926 → s.nextEvent ≠ none))

/-- What a receiver sees of REFRESH started with GCLK, DCLK and LE low: 2827 GCLK pulses with address s at each of the 257 of
scanline s and LE low; all data shifts before them; one Vsync, between GCLK edges 2826 and 2827 (R156). -/
def Obligations.RefreshWaveform : Prop :=
  ∀ (p : Params) (fb : Memory) (ls : Lines), ls.gclk = false → ls.dclk = false → ls.le = false →
    (clockEdges (waveform ls (refreshTrace p fb))).map Prod.fst =
      List.replicate 61952 .dclk ++ List.replicate 2826 .gclk ++ [.dclk, .dclk, .gclk] ∧
    (∀ v ∈ risingEdges .gclk (waveform ls (refreshTrace p fb)), v.le = false) ∧
    gclkAddresses (waveform ls (refreshTrace p fb)) = (List.range 11).flatMap (List.replicate 257) ∧
    commandsSeen (waveform ls (refreshTrace p fb)) = List.replicate 11 1 ++ [2] ∧
    pulseCount .gclk (waveform ls (refreshTrace p fb)) = 2827 ∧
    pulseCount .le (waveform ls (refreshTrace p fb)) = 12

/-- The commands a receiver sees of each operation started with the clocks and the latch low: INIT sends Reset, PreActive, WriteConfig
and DataLatch, REFRESH a DataLatch per scanline and one Vsync, TEARDOWN none; no reserved count is ever sent (R73, R141, R146, R147). -/
def Obligations.OperationsSendOnlyNamedCommands : Prop :=
  ∀ (op : Op) (p : Params) (fb : Memory) (ls : Lines), ls.idle = true →
    commandsSeen (waveform ls (opTrace op p fb)) =
      (match op with
        | .init => [10, 14, 4, 1]
        | .refresh => List.replicate 11 1 ++ [2]
        | .teardown => []) ∧
    ∀ n ∈ commandsSeen (waveform ls (opTrace op p fb)), isReservedCount n = false

/-- The shape of a frame does not depend on the frame buffer: only the levels written to data lines do (R144). -/
def Obligations.FrameShapeIsIndependentOfTheContents : Prop :=
  ∀ (p : Params) (fb fb' : Memory),
    (refreshTrace p fb).map Event.shape = (refreshTrace p fb').map Event.shape

/-- 17 rows are transmitted; the other 71 never reach the lines (R58, R137). -/
def Obligations.UntransmittedRowsNeverReachTheLines : Prop :=
  ((List.range 88).filter transmittedRow).length = 17 ∧ ∀ (p : Params) (fb fb' : Memory),
    (∀ x y, transmittedRow y = true → fb.fbRead x y = fb'.fbRead x y) → refreshTrace p fb = refreshTrace p fb'

/-- INIT from `Uninitialized` to its end, none of its 114 writes failing: 205 steps, the acceptance and 204 events; `LIFECYCLE = Configured`, `BUSY = 0`, GCLK as before, DCLK and LE
low, `CFG_LINE` at bit 0 of the word, every other line and the frame buffer unchanged (R142). -/
def Obligations.InitRunsToConfigured : Prop :=
  ∀ (s : State) (rest : List StepInput), s.busy = false → s.lifecycle = .uninitialized →
    s.inputs = ⟨false, encode .init⟩ :: rest → (∀ x ∈ rest.take 204, x.rst = false) →
    s.someFails 114 = false →
    Sys2Proof.core.run 205 s = .next { s with
      lines := ({ s.lines with le := false, dclk := false } : Lines).set (dataLine s.params.cfgLine)
        (s.params.configValue.getLsbD 0)
      lifecycle := .configured
      op := .init
      idx := 204
      inputs := rest.drop 204
      wrFail := if s.params.gpioFallible then s.wrFail.drop 114 else s.wrFail
      emitted := (initTrace s.params).reverse ++ s.emitted }

/-- REFRESH runs to its end whatever its writes answer: 630927 steps, the acceptance and 630926 events; `Configured`, `BUSY = 0`, clocks and
latch low, address 10, the data lines at the last symbol of SDATA(10), the frame buffer unchanged, `ERR_STEADY` set if a
write failed (R144, R153, R182). -/
def Obligations.RefreshRunsToItsEnd : Prop :=
  ∀ (s : State) (rest : List StepInput) (c : Pixel), s.busy = false → s.lifecycle = .configured →
    s.inputs = ⟨false, encode .refresh⟩ :: rest → (∀ x ∈ rest.take 630926, x.rst = false) →
    c = s.fb.fbReadAt (colmap s.params 21 15) 80 →
    Sys2Proof.core.run 630927 s = .next { s with
      lines := ⟨false, false, false, false, true, false, true, c.r.getLsbD 0, c.g.getLsbD 0, c.b.getLsbD 0,
        false, false, false⟩
      errSteady := s.errSteady || s.someFails 501342
      op := .refresh
      idx := 630926
      inputs := rest.drop 630926
      wrFail := if s.params.gpioFallible then s.wrFail.drop 501342 else s.wrFail
      emitted := (refreshTrace s.params s.fb).reverse ++ s.emitted }

/-- TEARDOWN runs to its end whatever its writes answer, from every idle state but `Teardown`: frame buffer zero, all lines low, `LIFECYCLE =
Teardown`, `ERR_STEADY` set if a write failed (R147, R148, R183). -/
def Obligations.TeardownRunsToItsEnd : Prop :=
  ∀ (s : State) (rest : List StepInput), s.busy = false → s.lifecycle ≠ .teardown →
    s.inputs = ⟨false, encode .teardown⟩ :: rest → (∀ x ∈ rest.take 14, x.rst = false) →
    ∃ t, Sys2Proof.core.run 15 s = .next t ∧ (∀ x y, t.fb.fbRead x y = Pixel.zero) ∧
      t = { s with
        lines := Lines.low
        lifecycle := .teardown
        errSteady := s.errSteady || s.someFails 13
        op := .teardown
        idx := 14
        fb := t.fb
        inputs := rest.drop 14
        wrFail := if s.params.gpioFallible then s.wrFail.drop 13 else s.wrFail
        emitted := [.w .b2 false, .w .g2 false, .w .r2 false, .w .b1 false, .w .g1 false, .w .r1 false,
          .w .a3 false, .w .a2 false, .w .a1 false, .w .a0 false, .w .le false, .w .dclk false,
          .w .gclk false, .clr] ++ s.emitted }

/-! ## The frame buffer and the text -/

/-- CLEAR: every pixel reads zero whatever it held; nothing else changes; clearing again changes nothing; the frame buffer is what CLR
makes of it (R161). -/
def Obligations.ClearZeroesEveryPixel : Prop :=
  ∀ s : State, s.busy = false → ∃ t, exec .clear s = .next t ∧ (∀ x y, t.fb.fbRead x y = Pixel.zero) ∧
    t = { s with fb := t.fb } ∧ exec .clear t = .next t ∧ ∃ u, exec .clr s = .next u ∧ u.fb = t.fb

/-- SETPX: an in-bounds pixel reads back all three channels as written and every other pixel as before; out of bounds nothing
changes at all (R53, R54, R162). -/
def Obligations.SetPixelReadsBack : Prop :=
  ∀ (x y : Nat) (r g b : Channel) (s : State), s.busy = false → s.fb.wf = true →
    ∃ t, exec (.setpx x y r g b) s = .next t ∧ t = { s with fb := t.fb } ∧
      (∀ x' y', t.fb.fbRead x' y' =
        if x' = x ∧ y' = y ∧ x < 88 ∧ y < 88 then ⟨r, g, b⟩ else s.fb.fbRead x' y') ∧
      (¬(x < 88 ∧ y < 88) → t = s)

/-- FILLRECT: the pixels from (x1, y1) to the clamped (x2, y2), both corners included, and no other; no swapping of corners
(R163). -/
def Obligations.FillRectFillsTheClampedRectangle : Prop :=
  ∀ (x1 y1 x2 y2 : Nat) (r g b : Channel) (s : State), s.busy = false → s.fb.wf = true →
    ∃ t, exec (.fillrect x1 y1 x2 y2 r g b) s = .next t ∧ t = { s with fb := t.fb } ∧
      (∀ x y, t.fb.fbRead x y =
        if x1 ≤ x ∧ x ≤ min x2 87 ∧ y1 ≤ y ∧ y ≤ min y2 87 then ⟨r, g, b⟩ else s.fb.fbRead x y)

/-- TEXT: after it a pixel is white if a set cell of a drawn glyph lies there, and zero otherwise; nothing else changes
(R164, R165). The font is a legal one (U7), or the text is empty: that an empty text still clears with a font that U7 rules out is
the model's reading (log 14). -/
def Obligations.TextDrawsItsGlyphs : Prop :=
  ∀ (cs : List Char) (s : State), s.busy = false → (fontLegal s.params = true ∨ cs = []) →
    ∃ t, exec (.text cs) s = .next t ∧ t = { s with fb := t.fb } ∧
      ∀ x y, (TextSets s.params cs x y → t.fb.fbRead x y = Pixel.white) ∧
        (¬TextSets s.params cs x y → t.fb.fbRead x y = Pixel.zero)

/-- TEXT is cut after `NMAX` characters, always at the same one, and doing it again changes nothing (R165). -/
def Obligations.TextIsCutAtTheSameCharacter : Prop :=
  ∀ (cs : List Char) (s : State), s.busy = false → fontLegal s.params = true →
    exec (.text cs) s = exec (.text (cs.take (maxChars s.params))) s ∧
    ∃ t, exec (.text cs) s = .next t ∧ exec (.text cs) t = .next t

/-- With a font parameter the spec rules out, a text that is not empty is refused (U7); that TEXT stops, and
not the font parameter itself, is the model's reading (log 14). -/
def Obligations.TextWithAFontOutsideTheGridIsRefused : Prop :=
  ∀ (cs : List Char) (s : State), s.busy = false → fontLegal s.params = false → cs ≠ [] →
    exec (.text cs) s = .refused .fontOutsideGrid

/-- FBRead: the pixel in the grid, zeros outside it, never a fault; nothing else changes (R52); that the pixel goes to a
field of the state is the model's (log 11). -/
def Obligations.FrameBufferReadIsGuarded : Prop :=
  ∀ (x y : Nat) (s : State), exec (.fbread x y) s = .next { s with
    readOut := some (if x < 88 ∧ y < 88 then s.fb.get (y * 88 + x) else Pixel.zero) }

/-! ## Whole-machine rules -/

/-- STATUS: LIFECYCLE in bits 2:0, BUSY in 3, ERR_INIT in 4, ERR_STEADY in 5 (R28), with the codes of R23. -/
def Obligations.StatusFieldsAreInPlace : Prop :=
  ∀ s : State, s.status.extractLsb' 0 3 = s.lifecycle.code ∧ s.status.getLsbD 3 = s.busy ∧
    s.status.getLsbD 4 = s.errInit ∧ s.status.getLsbD 5 = s.errSteady ∧
    s.lifecycle.code.toNat = (match s.lifecycle with
      | .uninitialized => 0 | .reset => 1 | .preActive => 2 | .configured => 3 | .teardown => 4 | .initFailed => 5)

/-- The invariant holds after reset. -/
def Obligations.TheInvariantHoldsAtReset : Prop := State.reset.Inv

/-- Every step keeps the invariant: canonical frame buffer, a position in its trace, a lifecycle that fits it, clocks and latch low
when idle unless an INIT was aborted, all lines low in Teardown, no error without a fallible line (R24, R26, R34, R104, R147). -/
def Obligations.EveryStepKeepsTheInvariant : Prop :=
  ∀ s t : State, s.Inv → step s = .next t → t.Inv

/-- While busy the block always has a step, and it moves to the next event or ends the operation: it cannot hang (R153). -/
def Obligations.BusyBlockAlwaysMakesProgress : Prop :=
  ∀ s : State, s.Inv → s.busy = true → s.input.rst = false → ∃ t, step s = .next t ∧
    (t.busy = true → t.idx.toNat = s.idx.toNat + 1 ∧ t.op = s.op)

/-- Every step from every state, whatever the port carries, keeps the frame buffer in its canonical form. -/
def Obligations.EveryStepKeepsTheFrameBufferCanonical : Prop :=
  ∀ s t : State, s.fb.wf = true → step s = .next t → t.fb.wf = true

/-- No step changes a parameter: they are constant from one reset to the next (R9, R204); that the step of a hardware reset keeps
them too is the model's reading (log 26). -/
def Obligations.NoStepChangesAParameter : Prop :=
  ∀ s t : State, step s = .next t → t.params = s.params

/-- LIFECYCLE changes only by the transitions of R24, each at its moment. -/
def Obligations.LifecycleChangesOnlyAsListed : Prop :=
  ∀ s t : State, s.Inv → step s = .next t → t.lifecycle ≠ s.lifecycle →
    (s.input.rst = true ∧ t.lifecycle = .uninitialized) ∨
    (s.busy = true ∧ s.op = .init ∧ s.idx.toNat = 41 ∧ s.lifecycle = .uninitialized ∧ t.lifecycle = .reset) ∨
    (s.busy = true ∧ s.op = .init ∧ s.idx.toNat = 99 ∧ s.lifecycle = .reset ∧ t.lifecycle = .preActive) ∨
    (s.busy = true ∧ s.op = .init ∧ s.idx.toNat = 203 ∧ s.lifecycle = .preActive ∧ t.lifecycle = .configured) ∨
    (s.busy = true ∧ s.op = .init ∧ s.answerFails = true ∧ (∃ l v, s.nextEvent = some (.w l v)) ∧
      (s.lifecycle = .uninitialized ∨ s.lifecycle = .reset ∨ s.lifecycle = .preActive) ∧ t.lifecycle = .initFailed) ∨
    (s.busy = true ∧ s.op = .teardown ∧ s.idx.toNat = 13 ∧
      (s.lifecycle = .uninitialized ∨ s.lifecycle = .configured ∨ s.lifecycle = .initFailed) ∧
      t.lifecycle = .teardown)

/-- The error flags are never cleared except by hardware reset, and without `GPIO_FALLIBLE` never set (R26). -/
def Obligations.ErrorFlagsAreSticky : Prop :=
  ∀ s t : State, step s = .next t → s.input.rst = false →
    (s.errInit = true → t.errInit = true) ∧ (s.errSteady = true → t.errSteady = true) ∧
    (s.params.gpioFallible = false → t.errInit = s.errInit ∧ t.errSteady = s.errSteady)

/-- The frame buffer does not change while the block is busy, but for TEARDOWN's first event (R60, R61). -/
def Obligations.FrameBufferIsFixedWhileBusy : Prop :=
  ∀ s t : State, s.busy = true → s.input.rst = false → step s = .next t →
    t.fb = s.fb ∨ (s.op = .teardown ∧ s.idx = 0 ∧ ∀ x y, t.fb.fbRead x y = Pixel.zero)

/-- Without reset the lines change only by the running trace, by one event a step and so by at most one line: an idle step that runs a
host operation leaves them and emits nothing (R22, R62, R63). -/
def Obligations.LinesChangeOnlyByTheTrace : Prop :=
  ∀ s t : State, s.input.rst = false → s.input.fromHost = true → step s = .next t →
    (s.busy = false → t.lines = s.lines ∧ t.emitted = s.emitted) ∧
    (s.busy = true → ∃ e, s.nextEvent = some e ∧ t.emitted = e :: s.emitted ∧
      ∀ l, t.lines.get l = (match e with | .w k v => if l = k then v else s.lines.get l | _ => s.lines.get l))
end

