-- ==== Sys2Proof/Laws/Decode.lean ====
section
/-! SUPPORT. The small facts of the fields of a word: each field's reader and writer undo each other. -/

namespace Sys2Proof

/-- A 16-bit field is its two bytes put together. -/
@[simp] theorem joinBytes_low_high (v : BitVec 16) : joinBytes (lowByte v) (highByte v) = v := by
  apply BitVec.eq_of_getLsbD_eq
  intro i hi
  simp only [joinBytes, lowByte, highByte, BitVec.getLsbD_append, BitVec.getLsbD_setWidth, BitVec.getLsbD_ushiftRight]
  by_cases h : i < 8
  · simp [h]
  · simp [h, show i - 8 < 8 by omega, show 8 + (i - 8) = i by omega]

@[simp] theorem lowByte_joinBytes (lo hi : Byte) : lowByte (joinBytes lo hi) = lo := by
  apply BitVec.eq_of_toNat_eq
  have := lo.isLt
  simp only [joinBytes, lowByte, BitVec.toNat_setWidth, BitVec.toNat_append, Nat.shiftLeft_eq]
  rw [← Nat.shiftLeft_eq, ← Nat.shiftLeft_add_eq_or_of_lt this, Nat.shiftLeft_eq]
  omega

@[simp] theorem highByte_joinBytes (lo hi : Byte) : highByte (joinBytes lo hi) = hi := by
  apply BitVec.eq_of_toNat_eq
  have := lo.isLt
  have := hi.isLt
  simp only [joinBytes, highByte, BitVec.toNat_setWidth, BitVec.toNat_append, BitVec.toNat_ushiftRight]
  rw [← Nat.shiftLeft_add_eq_or_of_lt lo.isLt, Nat.shiftLeft_eq, Nat.shiftRight_eq_div_pow]
  omega

/-- A coordinate below 65536 is what its two bytes say. -/
theorem coordOf_coordBytes (n : Nat) (h : n < 65536) :
    coordOf (lowByte (BitVec.ofNat 16 n)) (highByte (BitVec.ofNat 16 n)) = n := by
  simp [coordOf, Nat.mod_eq_of_lt h]

/-- Two bytes are what the coordinate they make says. -/
theorem coordBytes_coordOf (lo hi : Byte) : coordBytes (coordOf lo hi) = [lo, hi] := by
  simp [coordBytes, coordOf, halfBytes]

/-- A code point below 2^24 is what its three bytes say. -/
theorem codePoint_charBytes (n : Nat) (h : n < 16777216) :
    codePoint (BitVec.ofNat 8 n) (BitVec.ofNat 8 (n / 256)) (BitVec.ofNat 8 (n / 65536)) = n := by
  simp only [codePoint, BitVec.toNat_ofNat]; omega

theorem Char.toNat_lt (c : Char) : c.toNat < 16777216 := by
  have := c.valid
  simp only [UInt32.isValidChar, Nat.isValidChar] at this
  simp only [Char.toNat]; omega

/-- The value of a character is a valid one. -/
theorem Char.isValidChar_toNat (c : Char) : c.toNat.isValidChar := c.valid

/-- A text is what the bytes of its characters say. -/
@[simp] theorem decodeChars_charBytes (cs : List Char) : decodeChars (cs.flatMap charBytes) = .ok cs := by
  induction cs with
  | nil => rfl
  | cons c cs ih =>
    have hcp := codePoint_charBytes c.toNat (Char.toNat_lt c)
    have hvalid := Char.isValidChar_toNat c
    simp only [List.flatMap_cons, charBytes, List.cons_append, List.nil_append, decodeChars, hcp, hvalid, if_true, ih]
    simp [Except.map]

/-- Bytes that read as a text are the bytes of its characters. -/
theorem charBytes_of_decodeChars : ∀ (bs : List Byte) (cs : List Char), decodeChars bs = .ok cs →
    cs.flatMap charBytes = bs
  | [], cs, h => by
    simp only [decodeChars, Except.ok.injEq] at h
    subst h; rfl
  | [_], cs, h => by simp [decodeChars] at h
  | [_, _], cs, h => by simp [decodeChars] at h
  | a :: b :: c :: rest, cs, h => by
    simp only [decodeChars] at h
    split at h
    · rename_i hv
      cases hr : decodeChars rest with
      | error e => simp [hr, Except.map] at h
      | ok ds =>
        simp only [hr, Except.map, Except.ok.injEq] at h
        subst h
        have hn : (Char.ofNat (codePoint a b c)).toNat = codePoint a b c := by
          rw [Char.toNat_ofNat]; simp [hv]
        have ih := charBytes_of_decodeChars rest ds hr
        have ha := a.isLt; have hb := b.isLt; have hc := c.isLt
        simp only [List.flatMap_cons, charBytes, hn, ih, List.cons_append, List.nil_append]
        simp only [codePoint]
        congr 1
        · apply BitVec.eq_of_toNat_eq; rw [BitVec.toNat_ofNat]; omega
        · congr 1
          · apply BitVec.eq_of_toNat_eq; rw [BitVec.toNat_ofNat]; omega
          · congr 1
            apply BitVec.eq_of_toNat_eq; rw [BitVec.toNat_ofNat]; omega
    · simp at h

/-- The format a format byte names is the format. -/
@[simp] theorem Format.ofCode_code (f : Format) : Format.ofCode f.code = some f := by cases f <;> rfl

/-- A byte that names a format is its format byte. -/
theorem Format.code_of_ofCode {b : Byte} {f : Format} (h : Format.ofCode b = some f) : f.code = b := by
  revert f
  have : ∀ b : Byte, ∀ f : Format, Format.ofCode b = some f → f.code = b := by
    intro b f hb
    unfold Format.ofCode at hb
    split at hb <;> simp at hb <;> subst hb <;> apply BitVec.eq_of_toNat_eq <;> simp_all [Format.code]
  exact fun {f} h => this b f h

@[simp] theorem lineOfCode_lineCode (l : Line) : lineOfCode (lineCode l) = .ok l := by cases l <;> rfl

theorem lineCode_of_lineOfCode {b : Byte} {l : Line} (h : lineOfCode b = .ok l) : lineCode l = b := by
  unfold lineOfCode at h
  split at h <;> simp at h <;> subst h <;> apply BitVec.eq_of_toNat_eq <;> simp_all [lineCode]

@[simp] theorem levelOfCode_levelCode (v : Bool) : levelOfCode (levelCode v) = .ok v := by cases v <;> rfl

theorem levelCode_of_levelOfCode {b : Byte} {v : Bool} (h : levelOfCode b = .ok v) : levelCode v = b := by
  unfold levelOfCode at h
  split at h <;> simp at h <;> subst h <;> apply BitVec.eq_of_toNat_eq <;> simp_all [levelCode]

@[simp] theorem holdOfCode_holdCode (k : Hold) : holdOfCode (holdCode k) = .ok k := by cases k <;> rfl

theorem holdCode_of_holdOfCode {b : Byte} {k : Hold} (h : holdOfCode b = .ok k) : holdCode k = b := by
  unfold holdOfCode at h
  split at h <;> simp at h <;> subst h <;> apply BitVec.eq_of_toNat_eq <;> simp_all [holdCode]

@[simp] theorem clockOfCode_clockCode (c : Clock) : clockOfCode (clockCode c) = .ok c := by cases c <;> rfl

theorem clockCode_of_clockOfCode {b : Byte} {c : Clock} (h : clockOfCode b = .ok c) : clockCode c = b := by
  unfold clockOfCode at h
  split at h <;> simp at h <;> subst h <;> apply BitVec.eq_of_toNat_eq <;> simp_all [clockCode]

@[simp] theorem fourBits_setWidth (f : Format) (a : BitVec 4) : fourBits f (a.setWidth 8) = .ok a := by
  have h := a.isLt
  have : (a.setWidth 8).toNat < 16 := by simp; omega
  simp only [fourBits, this, if_true]
  congr 1
  apply BitVec.eq_of_toNat_eq; simp

theorem setWidth_of_fourBits {f : Format} {b : Byte} {a : BitVec 4} (h : fourBits f b = .ok a) : a.setWidth 8 = b := by
  unfold fourBits at h
  split at h
  · rename_i hb
    simp only [Except.ok.injEq] at h
    subst h
    apply BitVec.eq_of_toNat_eq; simp; omega
  · simp at h

@[simp] theorem fiveBits_setWidth (f : Format) (a : BitVec 5) : fiveBits f (a.setWidth 8) = .ok a := by
  have h := a.isLt
  have : (a.setWidth 8).toNat < 32 := by simp; omega
  simp only [fiveBits, this, if_true]
  congr 1
  apply BitVec.eq_of_toNat_eq; simp

theorem setWidth_of_fiveBits {f : Format} {b : Byte} {a : BitVec 5} (h : fiveBits f b = .ok a) : a.setWidth 8 = b := by
  unfold fiveBits at h
  split at h
  · rename_i hb
    simp only [Except.ok.injEq] at h
    subst h
    apply BitVec.eq_of_toNat_eq; simp; omega
  · simp at h

end Sys2Proof
end

