-- ==== Sys2Proof/Laws/State.lean ====
section
/-! SUPPORT. What each update of the state does to each field, one lemma a field, so that no later proof unfolds an update. -/

namespace Sys2Proof.Machine

/-- A line reads back what was written to it (R12, R100). -/
@[simp] theorem Lines.get_set_same (ls : Lines) (l : Line) (v : Bool) : (ls.set l v).get l = v := by
  cases l <;> rfl

/-- Another line keeps its level (R100). -/
theorem Lines.get_set_ne (ls : Lines) (l k : Line) (v : Bool) (h : k ≠ l) : (ls.set l v).get k = ls.get k := by
  cases l <;> cases k <;> first | rfl | exact absurd rfl h

/-- Writing the level a line has changes nothing (R22, R91). -/
theorem Lines.set_get (ls : Lines) (l : Line) : ls.set l (ls.get l) = ls := by cases l <;> rfl

theorem Lines.set_set (ls : Lines) (l : Line) (v w : Bool) : (ls.set l v).set l w = ls.set l w := by
  cases l <;> rfl

/-- Two line files with the same 13 levels are the same. -/
theorem Lines.ext_get (a b : Lines) (h : ∀ l, a.get l = b.get l) : a = b := by
  have h0 := h .gclk; have h1 := h .dclk; have h2 := h .le
  have h3 := h .a0; have h4 := h .a1; have h5 := h .a2; have h6 := h .a3
  have h7 := h .r1; have h8 := h .g1; have h9 := h .b1
  have h10 := h .r2; have h11 := h .g2; have h12 := h .b2
  cases a; cases b
  simp_all [Lines.get]

@[simp] theorem Lines.after_nil (ls : Lines) : ls.after [] = ls := rfl
@[simp] theorem Lines.after_w (ls : Lines) (l : Line) (v : Bool) (t : List Event) :
    ls.after (.w l v :: t) = (ls.set l v).after t := rfl
@[simp] theorem Lines.after_h (ls : Lines) (k : Hold) (t : List Event) : ls.after (.h k :: t) = ls.after t := rfl
@[simp] theorem Lines.after_clr (ls : Lines) (t : List Event) : ls.after (.clr :: t) = ls.after t := rfl

theorem Lines.after_append (ls : Lines) (t u : List Event) : ls.after (t ++ u) = (ls.after t).after u := by
  induction t generalizing ls with
  | nil => rfl
  | cons e t ih => cases e <;> simp [ih]

theorem Lines.after_cons (ls : Lines) (e : Event) (t : List Event) :
    ls.after (e :: t) = (ls.after [e]).after t := Lines.after_append ls [e] t

@[simp] theorem State.inInit_record (s : State) (e : Event) : (s.record e).inInit = s.inInit := rfl
@[simp] theorem State.inInit_applyEvent (s : State) (e : Event) : (s.applyEvent e).inInit = s.inInit := by
  cases e <;> rfl
@[simp] theorem State.inInit_popAnswer (s : State) : s.popAnswer.inInit = s.inInit := by
  unfold State.popAnswer; split <;> rfl
@[simp] theorem State.inInit_consume (s : State) : s.consume.inInit = s.inInit := rfl
@[simp] theorem State.answerFails_consume (s : State) : s.consume.answerFails = s.answerFails := rfl
@[simp] theorem State.fatal_consume (s : State) (e : Event) : s.consume.fatal e = s.fatal e := rfl
@[simp] theorem State.nextEvent_consume (s : State) : s.consume.nextEvent = s.nextEvent := rfl

@[simp] theorem State.record_lines (s : State) (e : Event) : (s.record e).lines = s.lines := rfl
@[simp] theorem State.record_lifecycle (s : State) (e : Event) : (s.record e).lifecycle = s.lifecycle := rfl
@[simp] theorem State.record_busy (s : State) (e : Event) : (s.record e).busy = s.busy := rfl
@[simp] theorem State.record_errInit (s : State) (e : Event) : (s.record e).errInit = s.errInit := rfl
@[simp] theorem State.record_errSteady (s : State) (e : Event) : (s.record e).errSteady = s.errSteady := rfl
@[simp] theorem State.record_op (s : State) (e : Event) : (s.record e).op = s.op := rfl
@[simp] theorem State.record_idx (s : State) (e : Event) : (s.record e).idx = s.idx := rfl
@[simp] theorem State.record_fb (s : State) (e : Event) : (s.record e).fb = s.fb := rfl
@[simp] theorem State.record_params (s : State) (e : Event) : (s.record e).params = s.params := rfl
@[simp] theorem State.record_inputs (s : State) (e : Event) : (s.record e).inputs = s.inputs := rfl
@[simp] theorem State.record_wrFail (s : State) (e : Event) : (s.record e).wrFail = s.wrFail := rfl
@[simp] theorem State.record_emitted (s : State) (e : Event) : (s.record e).emitted = e :: s.emitted := rfl
@[simp] theorem State.record_readOut (s : State) (e : Event) : (s.record e).readOut = s.readOut := rfl
@[simp] theorem State.record_resets (s : State) (e : Event) : (s.record e).resets = s.resets := rfl

@[simp] theorem State.consume_lines (s : State) : (s.consume).lines = s.lines := rfl
@[simp] theorem State.consume_lifecycle (s : State) : (s.consume).lifecycle = s.lifecycle := rfl
@[simp] theorem State.consume_busy (s : State) : (s.consume).busy = s.busy := rfl
@[simp] theorem State.consume_errInit (s : State) : (s.consume).errInit = s.errInit := rfl
@[simp] theorem State.consume_errSteady (s : State) : (s.consume).errSteady = s.errSteady := rfl
@[simp] theorem State.consume_op (s : State) : (s.consume).op = s.op := rfl
@[simp] theorem State.consume_idx (s : State) : (s.consume).idx = s.idx := rfl
@[simp] theorem State.consume_fb (s : State) : (s.consume).fb = s.fb := rfl
@[simp] theorem State.consume_params (s : State) : (s.consume).params = s.params := rfl
@[simp] theorem State.consume_inputs (s : State) : (s.consume).inputs = s.inputs.tail := rfl
@[simp] theorem State.consume_wrFail (s : State) : (s.consume).wrFail = s.wrFail := rfl
@[simp] theorem State.consume_emitted (s : State) : (s.consume).emitted = s.emitted := rfl
@[simp] theorem State.consume_readOut (s : State) : (s.consume).readOut = s.readOut := rfl
@[simp] theorem State.consume_resets (s : State) : (s.consume).resets = s.resets := rfl

@[simp] theorem State.start_lines (s : State) (op : Op) : (s.start op).lines = s.lines := rfl
@[simp] theorem State.start_lifecycle (s : State) (op : Op) : (s.start op).lifecycle = s.lifecycle := rfl
@[simp] theorem State.start_busy (s : State) (op : Op) : (s.start op).busy = true := rfl
@[simp] theorem State.start_errInit (s : State) (op : Op) : (s.start op).errInit = s.errInit := rfl
@[simp] theorem State.start_errSteady (s : State) (op : Op) : (s.start op).errSteady = s.errSteady := rfl
@[simp] theorem State.start_op (s : State) (op : Op) : (s.start op).op = op := rfl
@[simp] theorem State.start_idx (s : State) (op : Op) : (s.start op).idx = 0 := rfl
@[simp] theorem State.start_fb (s : State) (op : Op) : (s.start op).fb = s.fb := rfl
@[simp] theorem State.start_params (s : State) (op : Op) : (s.start op).params = s.params := rfl
@[simp] theorem State.start_inputs (s : State) (op : Op) : (s.start op).inputs = s.inputs := rfl
@[simp] theorem State.start_wrFail (s : State) (op : Op) : (s.start op).wrFail = s.wrFail := rfl
@[simp] theorem State.start_emitted (s : State) (op : Op) : (s.start op).emitted = s.emitted := rfl
@[simp] theorem State.start_readOut (s : State) (op : Op) : (s.start op).readOut = s.readOut := rfl
@[simp] theorem State.start_resets (s : State) (op : Op) : (s.start op).resets = s.resets := rfl

@[simp] theorem State.advance_lines (s : State) : (s.advance).lines = s.lines := rfl
@[simp] theorem State.advance_lifecycle (s : State) : (s.advance).lifecycle = lifecycleAfter s.op s.idx.toNat s.lifecycle := rfl
@[simp] theorem State.advance_busy (s : State) : (s.advance).busy = decide ((s.idx + 1).toNat ≠ s.op.traceLength) := rfl
@[simp] theorem State.advance_errInit (s : State) : (s.advance).errInit = s.errInit := rfl
@[simp] theorem State.advance_errSteady (s : State) : (s.advance).errSteady = s.errSteady := rfl
@[simp] theorem State.advance_op (s : State) : (s.advance).op = s.op := rfl
@[simp] theorem State.advance_idx (s : State) : (s.advance).idx = s.idx + 1 := rfl
@[simp] theorem State.advance_fb (s : State) : (s.advance).fb = s.fb := rfl
@[simp] theorem State.advance_params (s : State) : (s.advance).params = s.params := rfl
@[simp] theorem State.advance_inputs (s : State) : (s.advance).inputs = s.inputs := rfl
@[simp] theorem State.advance_wrFail (s : State) : (s.advance).wrFail = s.wrFail := rfl
@[simp] theorem State.advance_emitted (s : State) : (s.advance).emitted = s.emitted := rfl
@[simp] theorem State.advance_readOut (s : State) : (s.advance).readOut = s.readOut := rfl
@[simp] theorem State.advance_resets (s : State) : (s.advance).resets = s.resets := rfl

@[simp] theorem State.hardwareReset_lines (s : State) : (s.hardwareReset).lines = Lines.low := rfl
@[simp] theorem State.hardwareReset_lifecycle (s : State) : (s.hardwareReset).lifecycle = .uninitialized := rfl
@[simp] theorem State.hardwareReset_busy (s : State) : (s.hardwareReset).busy = false := rfl
@[simp] theorem State.hardwareReset_errInit (s : State) : (s.hardwareReset).errInit = false := rfl
@[simp] theorem State.hardwareReset_errSteady (s : State) : (s.hardwareReset).errSteady = false := rfl
@[simp] theorem State.hardwareReset_op (s : State) : (s.hardwareReset).op = .init := rfl
@[simp] theorem State.hardwareReset_idx (s : State) : (s.hardwareReset).idx = 0 := rfl
@[simp] theorem State.hardwareReset_fb (s : State) : (s.hardwareReset).fb = ⟨.powerOn (s.resets + 1), []⟩ := rfl
@[simp] theorem State.hardwareReset_params (s : State) : (s.hardwareReset).params = s.params := rfl
@[simp] theorem State.hardwareReset_inputs (s : State) : (s.hardwareReset).inputs = s.inputs := rfl
@[simp] theorem State.hardwareReset_wrFail (s : State) : (s.hardwareReset).wrFail = s.wrFail := rfl
@[simp] theorem State.hardwareReset_emitted (s : State) : (s.hardwareReset).emitted = [] := rfl
@[simp] theorem State.hardwareReset_readOut (s : State) : (s.hardwareReset).readOut = none := rfl
@[simp] theorem State.hardwareReset_resets (s : State) : (s.hardwareReset).resets = s.resets + 1 := rfl

@[simp] theorem State.present_lines (s : State) (word : List Byte) : (s.present word).lines = s.lines := rfl
@[simp] theorem State.present_lifecycle (s : State) (word : List Byte) : (s.present word).lifecycle = s.lifecycle := rfl
@[simp] theorem State.present_busy (s : State) (word : List Byte) : (s.present word).busy = false := rfl
@[simp] theorem State.present_errInit (s : State) (word : List Byte) : (s.present word).errInit = s.errInit := rfl
@[simp] theorem State.present_errSteady (s : State) (word : List Byte) : (s.present word).errSteady = s.errSteady := rfl
@[simp] theorem State.present_op (s : State) (word : List Byte) : (s.present word).op = s.op := rfl
@[simp] theorem State.present_idx (s : State) (word : List Byte) : (s.present word).idx = s.idx := rfl
@[simp] theorem State.present_fb (s : State) (word : List Byte) : (s.present word).fb = s.fb := rfl
@[simp] theorem State.present_params (s : State) (word : List Byte) : (s.present word).params = s.params := rfl
@[simp] theorem State.present_inputs (s : State) (word : List Byte) : (s.present word).inputs = ⟨false, word⟩ :: s.inputs.tail := rfl
@[simp] theorem State.present_wrFail (s : State) (word : List Byte) : (s.present word).wrFail = s.wrFail := rfl
@[simp] theorem State.present_emitted (s : State) (word : List Byte) : (s.present word).emitted = s.emitted := rfl
@[simp] theorem State.present_readOut (s : State) (word : List Byte) : (s.present word).readOut = s.readOut := rfl
@[simp] theorem State.present_resets (s : State) (word : List Byte) : (s.present word).resets = s.resets := rfl

@[simp] theorem State.popAnswer_lines (s : State) : (s.popAnswer).lines = s.lines := by
  unfold State.popAnswer; split <;> rfl
@[simp] theorem State.popAnswer_lifecycle (s : State) : (s.popAnswer).lifecycle = s.lifecycle := by
  unfold State.popAnswer; split <;> rfl
@[simp] theorem State.popAnswer_busy (s : State) : (s.popAnswer).busy = s.busy := by
  unfold State.popAnswer; split <;> rfl
@[simp] theorem State.popAnswer_errInit (s : State) : (s.popAnswer).errInit = s.errInit := by
  unfold State.popAnswer; split <;> rfl
@[simp] theorem State.popAnswer_errSteady (s : State) : (s.popAnswer).errSteady = s.errSteady := by
  unfold State.popAnswer; split <;> rfl
@[simp] theorem State.popAnswer_op (s : State) : (s.popAnswer).op = s.op := by
  unfold State.popAnswer; split <;> rfl
@[simp] theorem State.popAnswer_idx (s : State) : (s.popAnswer).idx = s.idx := by
  unfold State.popAnswer; split <;> rfl
@[simp] theorem State.popAnswer_fb (s : State) : (s.popAnswer).fb = s.fb := by
  unfold State.popAnswer; split <;> rfl
@[simp] theorem State.popAnswer_params (s : State) : (s.popAnswer).params = s.params := by
  unfold State.popAnswer; split <;> rfl
@[simp] theorem State.popAnswer_inputs (s : State) : (s.popAnswer).inputs = s.inputs := by
  unfold State.popAnswer; split <;> rfl
@[simp] theorem State.popAnswer_wrFail (s : State) : (s.popAnswer).wrFail = if s.params.gpioFallible then s.wrFail.tail else s.wrFail := by
  unfold State.popAnswer; split <;> rfl
@[simp] theorem State.popAnswer_emitted (s : State) : (s.popAnswer).emitted = s.emitted := by
  unfold State.popAnswer; split <;> rfl
@[simp] theorem State.popAnswer_readOut (s : State) : (s.popAnswer).readOut = s.readOut := by
  unfold State.popAnswer; split <;> rfl
@[simp] theorem State.popAnswer_resets (s : State) : (s.popAnswer).resets = s.resets := by
  unfold State.popAnswer; split <;> rfl

@[simp] theorem State.takeWriteFailure_lines (s : State) : (s.takeWriteFailure).lines = s.lines := by
  unfold State.takeWriteFailure; cases h : s.inInit <;> simp
@[simp] theorem State.takeWriteFailure_lifecycle (s : State) : (s.takeWriteFailure).lifecycle = if s.inInit then .initFailed else s.lifecycle := by
  unfold State.takeWriteFailure; cases h : s.inInit <;> simp
@[simp] theorem State.takeWriteFailure_busy (s : State) : (s.takeWriteFailure).busy = (s.busy && !s.inInit) := by
  unfold State.takeWriteFailure; cases h : s.inInit <;> simp
@[simp] theorem State.takeWriteFailure_errInit (s : State) : (s.takeWriteFailure).errInit = (s.errInit || s.inInit) := by
  unfold State.takeWriteFailure; cases h : s.inInit <;> simp
@[simp] theorem State.takeWriteFailure_errSteady (s : State) : (s.takeWriteFailure).errSteady = (s.errSteady || !s.inInit) := by
  unfold State.takeWriteFailure; cases h : s.inInit <;> simp
@[simp] theorem State.takeWriteFailure_op (s : State) : (s.takeWriteFailure).op = s.op := by
  unfold State.takeWriteFailure; cases h : s.inInit <;> simp
@[simp] theorem State.takeWriteFailure_idx (s : State) : (s.takeWriteFailure).idx = s.idx := by
  unfold State.takeWriteFailure; cases h : s.inInit <;> simp
@[simp] theorem State.takeWriteFailure_fb (s : State) : (s.takeWriteFailure).fb = s.fb := by
  unfold State.takeWriteFailure; cases h : s.inInit <;> simp
@[simp] theorem State.takeWriteFailure_params (s : State) : (s.takeWriteFailure).params = s.params := by
  unfold State.takeWriteFailure; cases h : s.inInit <;> simp
@[simp] theorem State.takeWriteFailure_inputs (s : State) : (s.takeWriteFailure).inputs = s.inputs := by
  unfold State.takeWriteFailure; cases h : s.inInit <;> simp
@[simp] theorem State.takeWriteFailure_wrFail (s : State) : (s.takeWriteFailure).wrFail = s.wrFail := by
  unfold State.takeWriteFailure; cases h : s.inInit <;> simp
@[simp] theorem State.takeWriteFailure_emitted (s : State) : (s.takeWriteFailure).emitted = s.emitted := by
  unfold State.takeWriteFailure; cases h : s.inInit <;> simp
@[simp] theorem State.takeWriteFailure_readOut (s : State) : (s.takeWriteFailure).readOut = s.readOut := by
  unfold State.takeWriteFailure; cases h : s.inInit <;> simp
@[simp] theorem State.takeWriteFailure_resets (s : State) : (s.takeWriteFailure).resets = s.resets := by
  unfold State.takeWriteFailure; cases h : s.inInit <;> simp

@[simp] theorem State.applyEvent_lines (s : State) (e : Event) : (s.applyEvent e).lines = s.lines.after [e] := by
  cases e <;> rfl
@[simp] theorem State.applyEvent_lifecycle (s : State) (e : Event) : (s.applyEvent e).lifecycle = s.lifecycle := by
  cases e <;> rfl
@[simp] theorem State.applyEvent_busy (s : State) (e : Event) : (s.applyEvent e).busy = s.busy := by
  cases e <;> rfl
@[simp] theorem State.applyEvent_errInit (s : State) (e : Event) : (s.applyEvent e).errInit = s.errInit := by
  cases e <;> rfl
@[simp] theorem State.applyEvent_errSteady (s : State) (e : Event) : (s.applyEvent e).errSteady = s.errSteady := by
  cases e <;> rfl
@[simp] theorem State.applyEvent_op (s : State) (e : Event) : (s.applyEvent e).op = s.op := by
  cases e <;> rfl
@[simp] theorem State.applyEvent_idx (s : State) (e : Event) : (s.applyEvent e).idx = s.idx := by
  cases e <;> rfl
@[simp] theorem State.applyEvent_fb (s : State) (e : Event) : (s.applyEvent e).fb = if e = .clr then s.fb.clear else s.fb := by
  cases e <;> rfl
@[simp] theorem State.applyEvent_params (s : State) (e : Event) : (s.applyEvent e).params = s.params := by
  cases e <;> rfl
@[simp] theorem State.applyEvent_inputs (s : State) (e : Event) : (s.applyEvent e).inputs = s.inputs := by
  cases e <;> rfl
@[simp] theorem State.applyEvent_wrFail (s : State) (e : Event) : (s.applyEvent e).wrFail = s.wrFail := by
  cases e <;> rfl
@[simp] theorem State.applyEvent_emitted (s : State) (e : Event) : (s.applyEvent e).emitted = s.emitted := by
  cases e <;> rfl
@[simp] theorem State.applyEvent_readOut (s : State) (e : Event) : (s.applyEvent e).readOut = s.readOut := by
  cases e <;> rfl
@[simp] theorem State.applyEvent_resets (s : State) (e : Event) : (s.applyEvent e).resets = s.resets := by
  cases e <;> rfl

@[simp] theorem State.hostWrite_lines (s : State) (m : Memory) : (s.hostWrite m).lines = s.lines := by
  unfold State.hostWrite; split <;> rfl
@[simp] theorem State.hostWrite_lifecycle (s : State) (m : Memory) : (s.hostWrite m).lifecycle = s.lifecycle := by
  unfold State.hostWrite; split <;> rfl
@[simp] theorem State.hostWrite_busy (s : State) (m : Memory) : (s.hostWrite m).busy = s.busy := by
  unfold State.hostWrite; split <;> rfl
@[simp] theorem State.hostWrite_errInit (s : State) (m : Memory) : (s.hostWrite m).errInit = s.errInit := by
  unfold State.hostWrite; split <;> rfl
@[simp] theorem State.hostWrite_errSteady (s : State) (m : Memory) : (s.hostWrite m).errSteady = s.errSteady := by
  unfold State.hostWrite; split <;> rfl
@[simp] theorem State.hostWrite_op (s : State) (m : Memory) : (s.hostWrite m).op = s.op := by
  unfold State.hostWrite; split <;> rfl
@[simp] theorem State.hostWrite_idx (s : State) (m : Memory) : (s.hostWrite m).idx = s.idx := by
  unfold State.hostWrite; split <;> rfl
@[simp] theorem State.hostWrite_fb (s : State) (m : Memory) : (s.hostWrite m).fb = if s.busy then s.fb else m := by
  unfold State.hostWrite; split <;> rfl
@[simp] theorem State.hostWrite_params (s : State) (m : Memory) : (s.hostWrite m).params = s.params := by
  unfold State.hostWrite; split <;> rfl
@[simp] theorem State.hostWrite_inputs (s : State) (m : Memory) : (s.hostWrite m).inputs = s.inputs := by
  unfold State.hostWrite; split <;> rfl
@[simp] theorem State.hostWrite_wrFail (s : State) (m : Memory) : (s.hostWrite m).wrFail = s.wrFail := by
  unfold State.hostWrite; split <;> rfl
@[simp] theorem State.hostWrite_emitted (s : State) (m : Memory) : (s.hostWrite m).emitted = s.emitted := by
  unfold State.hostWrite; split <;> rfl
@[simp] theorem State.hostWrite_readOut (s : State) (m : Memory) : (s.hostWrite m).readOut = s.readOut := by
  unfold State.hostWrite; split <;> rfl
@[simp] theorem State.hostWrite_resets (s : State) (m : Memory) : (s.hostWrite m).resets = s.resets := by
  unfold State.hostWrite; split <;> rfl

@[simp] theorem State.request_lines (s : State) (op : Op) (b : Bool) : (s.request op b).lines = s.lines := by
  unfold State.request; cases h : s.busy <;> cases b <;> simp_all
@[simp] theorem State.request_lifecycle (s : State) (op : Op) (b : Bool) : (s.request op b).lifecycle = s.lifecycle := by
  unfold State.request; cases h : s.busy <;> cases b <;> simp_all
@[simp] theorem State.request_busy (s : State) (op : Op) (b : Bool) : (s.request op b).busy = (s.busy || b) := by
  unfold State.request; cases h : s.busy <;> cases b <;> simp_all
@[simp] theorem State.request_errInit (s : State) (op : Op) (b : Bool) : (s.request op b).errInit = s.errInit := by
  unfold State.request; cases h : s.busy <;> cases b <;> simp_all
@[simp] theorem State.request_errSteady (s : State) (op : Op) (b : Bool) : (s.request op b).errSteady = s.errSteady := by
  unfold State.request; cases h : s.busy <;> cases b <;> simp_all
@[simp] theorem State.request_op (s : State) (op : Op) (b : Bool) : (s.request op b).op = if !s.busy && b then op else s.op := by
  unfold State.request; cases h : s.busy <;> cases b <;> simp_all
@[simp] theorem State.request_idx (s : State) (op : Op) (b : Bool) : (s.request op b).idx = if !s.busy && b then 0 else s.idx := by
  unfold State.request; cases h : s.busy <;> cases b <;> simp_all
@[simp] theorem State.request_fb (s : State) (op : Op) (b : Bool) : (s.request op b).fb = s.fb := by
  unfold State.request; cases h : s.busy <;> cases b <;> simp_all
@[simp] theorem State.request_params (s : State) (op : Op) (b : Bool) : (s.request op b).params = s.params := by
  unfold State.request; cases h : s.busy <;> cases b <;> simp_all
@[simp] theorem State.request_inputs (s : State) (op : Op) (b : Bool) : (s.request op b).inputs = s.inputs := by
  unfold State.request; cases h : s.busy <;> cases b <;> simp_all
@[simp] theorem State.request_wrFail (s : State) (op : Op) (b : Bool) : (s.request op b).wrFail = s.wrFail := by
  unfold State.request; cases h : s.busy <;> cases b <;> simp_all
@[simp] theorem State.request_emitted (s : State) (op : Op) (b : Bool) : (s.request op b).emitted = s.emitted := by
  unfold State.request; cases h : s.busy <;> cases b <;> simp_all
@[simp] theorem State.request_readOut (s : State) (op : Op) (b : Bool) : (s.request op b).readOut = s.readOut := by
  unfold State.request; cases h : s.busy <;> cases b <;> simp_all
@[simp] theorem State.request_resets (s : State) (op : Op) (b : Bool) : (s.request op b).resets = s.resets := by
  unfold State.request; cases h : s.busy <;> cases b <;> simp_all

@[simp] theorem State.emit_lines (s : State) (e : Event) : (s.emit e).lines = s.lines.after [e] := by
  cases hw : e.isWrite <;> cases ha : s.answerFails <;> simp [State.emit, State.fatal, hw, ha]
@[simp] theorem State.emit_lifecycle (s : State) (e : Event) : (s.emit e).lifecycle = if s.fatal e then .initFailed else s.lifecycle := by
  cases hw : e.isWrite <;> cases ha : s.answerFails <;> simp [State.emit, State.fatal, hw, ha]
@[simp] theorem State.emit_busy (s : State) (e : Event) : (s.emit e).busy = (s.busy && !s.fatal e) := by
  cases hw : e.isWrite <;> cases ha : s.answerFails <;> simp [State.emit, State.fatal, hw, ha]
@[simp] theorem State.emit_errInit (s : State) (e : Event) : (s.emit e).errInit = (s.errInit || s.fatal e) := by
  cases hw : e.isWrite <;> cases ha : s.answerFails <;> simp [State.emit, State.fatal, hw, ha]
@[simp] theorem State.emit_errSteady (s : State) (e : Event) : (s.emit e).errSteady = (s.errSteady || (e.isWrite && s.answerFails && !s.inInit)) := by
  cases hw : e.isWrite <;> cases ha : s.answerFails <;> simp [State.emit, State.fatal, hw, ha]
@[simp] theorem State.emit_op (s : State) (e : Event) : (s.emit e).op = s.op := by
  cases hw : e.isWrite <;> cases ha : s.answerFails <;> simp [State.emit, State.fatal, hw, ha]
@[simp] theorem State.emit_idx (s : State) (e : Event) : (s.emit e).idx = s.idx := by
  cases hw : e.isWrite <;> cases ha : s.answerFails <;> simp [State.emit, State.fatal, hw, ha]
@[simp] theorem State.emit_fb (s : State) (e : Event) : (s.emit e).fb = if e = .clr then s.fb.clear else s.fb := by
  cases hw : e.isWrite <;> cases ha : s.answerFails <;> simp [State.emit, State.fatal, hw, ha]
@[simp] theorem State.emit_params (s : State) (e : Event) : (s.emit e).params = s.params := by
  cases hw : e.isWrite <;> cases ha : s.answerFails <;> simp [State.emit, State.fatal, hw, ha]
@[simp] theorem State.emit_inputs (s : State) (e : Event) : (s.emit e).inputs = s.inputs := by
  cases hw : e.isWrite <;> cases ha : s.answerFails <;> simp [State.emit, State.fatal, hw, ha]
@[simp] theorem State.emit_wrFail (s : State) (e : Event) : (s.emit e).wrFail = if s.params.gpioFallible && e.isWrite then s.wrFail.tail else s.wrFail := by
  cases hw : e.isWrite <;> cases ha : s.answerFails <;> simp [State.emit, State.fatal, hw, ha]
@[simp] theorem State.emit_emitted (s : State) (e : Event) : (s.emit e).emitted = e :: s.emitted := by
  cases hw : e.isWrite <;> cases ha : s.answerFails <;> simp [State.emit, State.fatal, hw, ha]
@[simp] theorem State.emit_readOut (s : State) (e : Event) : (s.emit e).readOut = s.readOut := by
  cases hw : e.isWrite <;> cases ha : s.answerFails <;> simp [State.emit, State.fatal, hw, ha]
@[simp] theorem State.emit_resets (s : State) (e : Event) : (s.emit e).resets = s.resets := by
  cases hw : e.isWrite <;> cases ha : s.answerFails <;> simp [State.emit, State.fatal, hw, ha]

@[simp] theorem State.failureCode_consume (s : State) (e : Event) : s.consume.failureCode e = s.failureCode e := rfl

/-- Code 1 is the exception that ends INIT (R181). -/
theorem State.failureCode_eq_one (s : State) (e : Event) : s.failureCode e = 1 ↔ s.fatal e = true := by
  unfold State.failureCode State.fatal
  cases e.isWrite <;> cases s.answerFails <;> cases s.inInit <;> decide

/-- Code 2 is the exception that the operation survives (R182). -/
theorem State.failureCode_eq_two (s : State) (e : Event) :
    s.failureCode e = 2 ↔ (e.isWrite && s.answerFails && !s.inInit) = true := by
  unfold State.failureCode
  cases e.isWrite <;> cases s.answerFails <;> cases s.inInit <;> decide

/-- What an event does to the error flags, by its code: 1 sets `ERR_INIT`, 2 sets `ERR_STEADY`, 0 neither (R186). -/
theorem State.emit_flags_of_failureCode (s : State) (e : Event) :
    (s.emit e).errInit = (s.errInit || decide (s.failureCode e = 1)) ∧
    (s.emit e).errSteady = (s.errSteady || decide (s.failureCode e = 2)) := by
  simp only [State.emit_errInit, State.emit_errSteady, State.failureCode_eq_one, State.failureCode_eq_two,
    Bool.decide_eq_true, and_self]

end Sys2Proof.Machine
end

