-- ==== Sys2Proof/Laws/Memory.lean ====
section
/-! SUPPORT. The frame buffer: what its reads give after its writes, and that every operation keeps its canonical form. -/

namespace Sys2Proof.Machine

section cells
variable (k j : Nat) (p : Pixel) (cells : List (Nat × Pixel))

/-- A put cell is found. -/
@[simp] theorem cellsFind_put_same : cellsFind k (cellsPut k p cells) = some p := by
  induction cells with
  | nil => simp [cellsPut, cellsFind]
  | cons c rest ih =>
    unfold cellsPut
    split
    · simp [cellsFind]
    · split
      · simp [cellsFind]
      · rename_i h1 h2
        have : c.1 ≠ k := fun h => h2 h.symm
        simp [cellsFind, this, ih]

/-- Putting a cell leaves every other key alone. -/
theorem cellsFind_put_ne (h : j ≠ k) : cellsFind j (cellsPut k p cells) = cellsFind j cells := by
  have hk : k ≠ j := fun e => h e.symm
  induction cells with
  | nil => simp [cellsPut, cellsFind, hk]
  | cons c rest ih =>
    unfold cellsPut
    split
    · simp [cellsFind, hk]
    · split
      · rename_i h2
        simp [cellsFind, hk, ← h2]
      · simp [cellsFind, ih]

/-- An erased key is not found. -/
@[simp] theorem cellsFind_erase_same : cellsFind k (cellsErase k cells) = none := by
  induction cells with
  | nil => rfl
  | cons c rest ih =>
    by_cases hc : c.1 = k
    · simpa [cellsErase, hc] using ih
    · have : cellsErase k (c :: rest) = c :: cellsErase k rest := by simp [cellsErase, hc]
      simp [this, cellsFind, hc, ih]

/-- Erasing a key leaves every other key alone. -/
theorem cellsFind_erase_ne (h : j ≠ k) : cellsFind j (cellsErase k cells) = cellsFind j cells := by
  induction cells with
  | nil => rfl
  | cons c rest ih =>
    by_cases hc : c.1 = k
    · have hj : c.1 ≠ j := fun e => h (e.symm.trans hc)
      have : cellsErase k (c :: rest) = cellsErase k rest := by simp [cellsErase, hc]
      simp [this, cellsFind, hj, ih]
    · have : cellsErase k (c :: rest) = c :: cellsErase k rest := by simp [cellsErase, hc]
      simp [this, cellsFind, ih]

/-- The cells after a put are the new one and old ones. -/
theorem mem_cellsPut (c : Nat × Pixel) (h : c ∈ cellsPut k p cells) : c = (k, p) ∨ c ∈ cells := by
  induction cells with
  | nil => simpa [cellsPut] using h
  | cons d rest ih =>
    unfold cellsPut at h
    split at h
    · simpa using h
    · split at h
      · rcases List.mem_cons.1 h with h | h
        · exact .inl h
        · exact .inr (List.mem_cons_of_mem _ h)
      · rcases List.mem_cons.1 h with h | h
        · exact .inr (h ▸ List.mem_cons_self)
        · exact (ih h).imp id (List.mem_cons_of_mem _)

/-- A put keeps the keys rising. -/
theorem rising_cellsPut (h : cells.Pairwise fun a b => a.1 < b.1) :
    (cellsPut k p cells).Pairwise fun a b => a.1 < b.1 := by
  induction cells with
  | nil => simp [cellsPut]
  | cons c rest ih =>
    rw [List.pairwise_cons] at h
    unfold cellsPut
    split
    · rename_i hk
      refine List.pairwise_cons.2 ⟨?_, List.pairwise_cons.2 h⟩
      intro d hd
      rcases List.mem_cons.1 hd with rfl | hd
      · exact hk
      · exact hk.trans (h.1 d hd)
    · split
      · rename_i hk
        exact List.pairwise_cons.2 ⟨fun d hd => by simpa [hk] using h.1 d hd, h.2⟩
      · rename_i h1 h2
        refine List.pairwise_cons.2 ⟨fun d hd => ?_, ih h.2⟩
        rcases mem_cellsPut k p rest d hd with rfl | hd
        · exact Nat.lt_of_le_of_ne (Nat.le_of_not_lt h1) (fun e => h2 e.symm)
        · exact h.1 d hd

end cells

/-- A cell that is found is in the list. -/
theorem mem_of_cellsFind {k : Nat} {p : Pixel} {cells : List (Nat × Pixel)}
    (h : cellsFind k cells = some p) : (k, p) ∈ cells := by
  induction cells with
  | nil => simp [cellsFind] at h
  | cons c rest ih =>
    unfold cellsFind at h
    split at h
    · rename_i hk
      obtain ⟨rfl⟩ := h
      exact hk ▸ List.mem_cons_self
    · exact List.mem_cons_of_mem _ (ih h)

/-- With rising keys a cell in the list is the one found. -/
theorem cellsFind_of_mem {c : Nat × Pixel} {cells : List (Nat × Pixel)}
    (hr : cells.Pairwise fun a b => a.1 < b.1) (h : c ∈ cells) : cellsFind c.1 cells = some c.2 := by
  induction cells with
  | nil => simp at h
  | cons d rest ih =>
    rw [List.pairwise_cons] at hr
    rcases List.mem_cons.1 h with rfl | h
    · simp [cellsFind]
    · have : d.1 ≠ c.1 := Nat.ne_of_lt (hr.1 c h)
      simp [cellsFind, this, ih hr.2 h]

/-- With rising keys all below n, a list of n cells has a cell for every key below n. -/
theorem exists_cell_of_full {n : Nat} {cells : List (Nat × Pixel)}
    (hr : cells.Pairwise fun a b => a.1 < b.1) (hb : ∀ c ∈ cells, c.1 < n) (hl : n ≤ cells.length)
    {k : Nat} (hk : k < n) : ∃ p, (k, p) ∈ cells := by
  have hnd : (cells.map Prod.fst).Nodup := by
    rw [List.Nodup, List.pairwise_map]
    exact hr.imp fun h => Nat.ne_of_lt h
  have hsub : (cells.map Prod.fst).toFinset ⊆ Finset.range n := by
    intro x hx
    obtain ⟨c, hc, rfl⟩ := List.mem_map.1 (List.mem_toFinset.1 hx)
    exact Finset.mem_range.2 (hb c hc)
  have hcard : (Finset.range n).card ≤ ((cells.map Prod.fst).toFinset).card := by
    rw [List.toFinset_card_of_nodup hnd]; simpa using hl
  have heq := Finset.eq_of_subset_of_card_le hsub hcard
  have : k ∈ (cells.map Prod.fst).toFinset := heq ▸ Finset.mem_range.2 hk
  obtain ⟨c, hc, rfl⟩ := List.mem_map.1 (List.mem_toFinset.1 this)
  exact ⟨c.2, hc⟩

/-- The canonical form, taken apart. -/
theorem Memory.wf_iff (m : Memory) : m.wf = true ↔
    (m.cells.Pairwise fun a b => a.1 < b.1) ∧ (∀ c ∈ m.cells, c.1 < pixelCount) ∧
    (match m.base with
      | .powerOn _ => m.cells.length < pixelCount
      | .cleared => ∀ c ∈ m.cells, c.2 ≠ Pixel.zero) := by
  unfold Memory.wf
  cases m.base <;> simp [and_assoc]

/-- The buffer hardware reset leaves is in canonical form. -/
theorem Memory.wf_powerOn (n : Nat) : (Memory.mk (.powerOn n) []).wf = true := by simp [Memory.wf]

/-- A cleared buffer is in canonical form. -/
@[simp] theorem Memory.wf_clear (m : Memory) : m.clear.wf = true := by simp [Memory.clear, Memory.wf]

/-- The memory after reset lists nothing and is in canonical form. -/
theorem State.reset_fb_wf : State.reset.fb.wf = true := Memory.wf_powerOn 0

/-- A clear makes every pixel read zero (R161). -/
@[simp] theorem Memory.fbRead_clear (m : Memory) (x y : Nat) : m.clear.fbRead x y = Pixel.zero := by
  unfold Memory.fbRead; split <;> rfl

/-- Settling keeps what rising, bounded cells say. -/
theorem Memory.wf_settle (m : Memory) (hr : m.cells.Pairwise fun a b => a.1 < b.1)
    (hb : ∀ c ∈ m.cells, c.1 < pixelCount) (hz : m.base = .cleared → ∀ c ∈ m.cells, c.2 ≠ Pixel.zero) :
    m.settle.wf = true := by
  rw [Memory.wf_iff]
  unfold Memory.settle
  cases hm : m.base with
  | cleared => dsimp only; rw [hm]; exact ⟨hr, hb, hz hm⟩
  | powerOn n =>
    dsimp only
    split
    · rw [hm]; exact ⟨hr, hb, by assumption⟩
    · refine ⟨hr.sublist List.filter_sublist, fun c hc => hb c (List.mem_filter.1 hc).1, ?_⟩
      intro c hc
      simpa using (List.mem_filter.1 hc).2

/-- A write under a key of the grid keeps the canonical form. -/
theorem Memory.wf_put {m : Memory} (h : m.wf = true) {k : Nat} (hk : k < pixelCount) (p : Pixel) :
    (m.put k p).wf = true := by
  obtain ⟨hr, hb, hbase⟩ := (Memory.wf_iff m).1 h
  have hb' : ∀ c ∈ cellsPut k p m.cells, c.1 < pixelCount := fun c hc => by
    rcases mem_cellsPut k p _ c hc with rfl | hc
    exacts [hk, hb c hc]
  unfold Memory.put
  cases hm : m.base with
  | powerOn n =>
    exact Memory.wf_settle _ (rising_cellsPut k p _ hr) hb' (by simp)
  | cleared =>
    rw [hm] at hbase
    rw [Memory.wf_iff]
    dsimp only
    split
    · refine ⟨hr.sublist List.filter_sublist, fun c hc => hb c (List.mem_filter.1 hc).1, ?_⟩
      exact fun c hc => hbase c (List.mem_filter.1 hc).1
    · rename_i hp
      refine ⟨rising_cellsPut k p _ hr, hb', fun c hc => ?_⟩
      rcases mem_cellsPut k p _ c hc with rfl | hc
      exacts [hp, hbase c hc]

/-- The key of a pixel of the grid lies in the grid. -/
theorem pixelKey_lt {x y : Nat} (h : inGrid x y = true) : pixelKey x y < pixelCount := by
  simp [inGrid, Config.width, Config.height] at h
  simp only [pixelKey, pixelCount]; omega

/-- Different pixels of the grid have different keys. -/
theorem pixelKey_inj {x y x' y' : Nat} (h : inGrid x y = true) (h' : inGrid x' y' = true)
    (e : pixelKey x y = pixelKey x' y') : x = x' ∧ y = y' := by
  simp [inGrid, Config.width, Config.height] at h h'
  simp only [pixelKey] at e; omega

/-- The guarded write keeps the canonical form (R53). -/
theorem Memory.wf_fbWrite {m : Memory} (h : m.wf = true) (x y : Nat) (p : Pixel) :
    (m.fbWrite x y p).wf = true := by
  unfold Memory.fbWrite
  split
  · exact Memory.wf_put h (pixelKey_lt (by assumption)) p
  · exact h

/-- Settling keeps what every key of the grid reads. -/
theorem Memory.get_settle (m : Memory) (hr : m.cells.Pairwise fun a b => a.1 < b.1)
    (hb : ∀ c ∈ m.cells, c.1 < pixelCount) {k : Nat} (hk : k < pixelCount) : m.settle.get k = m.get k := by
  unfold Memory.settle
  cases hm : m.base with
  | cleared => rfl
  | powerOn n =>
    dsimp only
    split
    · rfl
    · rename_i hl
      obtain ⟨p, hp⟩ := exists_cell_of_full hr hb (Nat.le_of_not_lt hl) hk
      have hget : m.get k = p := by simp [Memory.get, cellsFind_of_mem hr hp]
      rw [hget]
      by_cases hz : p = Pixel.zero
      · have hn : cellsFind k (m.cells.filter fun c => decide (c.2 ≠ Pixel.zero)) = none := by
          by_contra hcon
          obtain ⟨q, hq⟩ := Option.ne_none_iff_exists'.1 hcon
          have hmem := List.mem_filter.1 (mem_of_cellsFind hq)
          have : q = p := by
            have := cellsFind_of_mem hr hmem.1
            rw [cellsFind_of_mem hr hp] at this
            exact (Option.some.inj this).symm
          exact (by simpa using hmem.2 : q ≠ Pixel.zero) (this.trans hz)
        simp only [Memory.get, hn, Option.getD_none, Memory.unlisted]
        exact hz.symm
      · have hmem : (k, p) ∈ m.cells.filter fun c => decide (c.2 ≠ Pixel.zero) :=
          List.mem_filter.2 ⟨hp, by simpa using hz⟩
        have := cellsFind_of_mem (hr.sublist List.filter_sublist) hmem
        simp only [Memory.get, this, Option.getD_some]

/-- A write is read back. -/
theorem Memory.get_put_same {m : Memory} (h : m.wf = true) {k : Nat} (hk : k < pixelCount) (p : Pixel) :
    (m.put k p).get k = p := by
  obtain ⟨hr, hb, -⟩ := (Memory.wf_iff m).1 h
  unfold Memory.put
  cases hm : m.base with
  | cleared =>
    dsimp only
    split
    · rename_i hp
      simp [Memory.get, Memory.unlisted, hp]
    · simp [Memory.get]
  | powerOn n =>
    have hb' : ∀ c ∈ cellsPut k p m.cells, c.1 < pixelCount := fun c hc => by
      rcases mem_cellsPut k p _ c hc with rfl | hc
      exacts [hk, hb c hc]
    rw [Memory.get_settle _ (rising_cellsPut k p _ hr) hb' hk]
    simp [Memory.get]

/-- A write leaves every other key alone. -/
theorem Memory.get_put_ne {m : Memory} (h : m.wf = true) {k j : Nat} (hk : k < pixelCount)
    (hj : j < pixelCount) (hjk : j ≠ k) (p : Pixel) : (m.put k p).get j = m.get j := by
  obtain ⟨hr, hb, -⟩ := (Memory.wf_iff m).1 h
  unfold Memory.put
  cases hm : m.base with
  | cleared =>
    dsimp only
    split
    · simp [Memory.get, Memory.unlisted, cellsFind_erase_ne _ _ _ hjk, hm]
    · simp [Memory.get, Memory.unlisted, cellsFind_put_ne _ _ _ _ hjk, hm]
  | powerOn n =>
    have hb' : ∀ c ∈ cellsPut k p m.cells, c.1 < pixelCount := fun c hc => by
      rcases mem_cellsPut k p _ c hc with rfl | hc
      exacts [hk, hb c hc]
    rw [Memory.get_settle _ (rising_cellsPut k p _ hr) hb' hj]
    simp [Memory.get, Memory.unlisted, cellsFind_put_ne _ _ _ _ hjk, hm]

/-- The guarded write, seen through the guarded read (R52, R53, R54). -/
theorem Memory.fbRead_fbWrite {m : Memory} (h : m.wf = true) (x y x' y' : Nat) (p : Pixel) :
    (m.fbWrite x y p).fbRead x' y' = if inGrid x y && (x' == x) && (y' == y) then p else m.fbRead x' y' := by
  unfold Memory.fbWrite
  cases hg : inGrid x y with
  | false => simp
  | true =>
    simp only [if_true, Bool.true_and]
    unfold Memory.fbRead
    cases hg' : inGrid x' y' with
    | false =>
      have : ¬(x' = x ∧ y' = y) := fun e => by rw [e.1, e.2, hg] at hg'; exact Bool.noConfusion hg'
      simp [this]
    | true =>
      by_cases e : x' = x ∧ y' = y
      · obtain ⟨rfl, rfl⟩ := e
        simp [Memory.get_put_same h (pixelKey_lt hg)]
      · have hne : pixelKey x' y' ≠ pixelKey x y := fun he => e (pixelKey_inj hg' hg he)
        simp [e, Memory.get_put_ne h (pixelKey_lt hg) (pixelKey_lt hg') hne]

/-- A fold of operations that keep the canonical form keeps it. -/
theorem Memory.wf_foldl {α : Type} (f : Memory → α → Memory) (hf : ∀ m a, m.wf = true → (f m a).wf = true)
    (l : List α) {m : Memory} (h : m.wf = true) : (l.foldl f m).wf = true := by
  induction l generalizing m with
  | nil => exact h
  | cons a l ih => exact ih (hf m a h)

theorem Memory.wf_fillRow {m : Memory} (h : m.wf = true) (x1 xe y : Nat) (p : Pixel) :
    (m.fillRow x1 xe y p).wf = true :=
  Memory.wf_foldl _ (fun _ _ hm => Memory.wf_fbWrite hm _ _ _) _ h

/-- A fill keeps the canonical form (R163). -/
theorem Memory.wf_fillRect {m : Memory} (h : m.wf = true) (x1 y1 x2 y2 : Nat) (p : Pixel) :
    (m.fillRect x1 y1 x2 y2 p).wf = true :=
  Memory.wf_foldl _ (fun _ _ hm => Memory.wf_fillRow hm _ _ _ _) _ h

theorem Memory.wf_drawGlyphRow {m : Memory} (h : m.wf = true) (g : List (List Bool)) (gw x top cy : Nat) :
    (m.drawGlyphRow g gw x top cy).wf = true :=
  Memory.wf_foldl _ (fun _ _ hm => by split; exacts [Memory.wf_fbWrite hm _ _ _, hm]) _ h

theorem Memory.wf_drawGlyph {m : Memory} (h : m.wf = true) (g : List (List Bool)) (gw gh x top : Nat) :
    (m.drawGlyph g gw gh x top).wf = true :=
  Memory.wf_foldl _ (fun _ _ hm => Memory.wf_drawGlyphRow hm _ _ _ _ _) _ h

/-- Drawing a text keeps the canonical form (R165). -/
theorem Memory.wf_drawChars (p : Params) (cs : List Char) {m : Memory} (h : m.wf = true) (x : Nat) :
    (m.drawChars p x cs).wf = true := by
  induction cs generalizing m x with
  | nil => exact h
  | cons c cs ih =>
    unfold Memory.drawChars
    split
    · exact h
    · refine ih ?_ _
      split
      · exact h
      · exact Memory.wf_drawGlyph h _ _ _ _ _

/-- What a pixel is known to hold: nothing is known of one not written since reset. -/
def Memory.known (m : Memory) (key : Nat) : Option Pixel :=
  match cellsFind key m.cells, m.base with
  | some p, _ => some p
  | none, .cleared => some Pixel.zero
  | none, .powerOn _ => none

/-- Two lists of rising keys that find the same are the same. -/
theorem cells_ext {a b : List (Nat × Pixel)} (ha : a.Pairwise fun x y => x.1 < y.1)
    (hb : b.Pairwise fun x y => x.1 < y.1) (h : ∀ k, cellsFind k a = cellsFind k b) : a = b := by
  have hmem : ∀ c, c ∈ a ↔ c ∈ b := fun c =>
    ⟨fun hc => mem_of_cellsFind (by rw [← h]; exact cellsFind_of_mem ha hc),
     fun hc => mem_of_cellsFind (by rw [h]; exact cellsFind_of_mem hb hc)⟩
  have nd : ∀ {l : List (Nat × Pixel)}, (l.Pairwise fun x y => x.1 < y.1) → l.Nodup :=
    fun hl => hl.imp fun hlt e => Nat.ne_of_lt hlt (congrArg Prod.fst e)
  have hp : a.Perm b := (List.perm_ext_iff_of_nodup (nd ha) (nd hb)).2 hmem
  exact hp.eq_of_pairwise (fun x y _ _ h1 h2 => absurd h1 (Nat.lt_asymm h2)) ha hb

/-- A buffer is its base and its cells. -/
theorem Memory.eq_of {a b : Memory} (h1 : a.base = b.base) (h2 : a.cells = b.cells) : a = b := by
  cases a; cases b; cases h1; cases h2; rfl

/-- EQUAL MEMORIES ARE EQUAL DATA: two buffers in canonical form with the same reset behind them that are known to
hold the same are the same. -/
theorem Memory.ext_known {a b : Memory} (ha : a.wf = true) (hb : b.wf = true)
    (hbase : ∀ n n', a.base = .powerOn n → b.base = .powerOn n' → n = n')
    (h : ∀ k < pixelCount, a.known k = b.known k) : a = b := by
  obtain ⟨ar, ab, az⟩ := (Memory.wf_iff a).1 ha
  obtain ⟨br, bb, bz⟩ := (Memory.wf_iff b).1 hb
  have big : ∀ {l : List (Nat × Pixel)}, (∀ c ∈ l, c.1 < pixelCount) → ∀ k, ¬k < pixelCount →
      cellsFind k l = none := fun hl k hk => by
    by_contra hcon
    obtain ⟨q, hq⟩ := Option.ne_none_iff_exists'.1 hcon
    exact hk (hl _ (mem_of_cellsFind hq))
  have short : ∀ {l : List (Nat × Pixel)}, (l.Pairwise fun x y => x.1 < y.1) → (∀ c ∈ l, c.1 < pixelCount) →
      l.length < pixelCount → ∃ k < pixelCount, cellsFind k l = none := fun {l} hr hb' hl => by
    by_contra hcon
    have hsub : Finset.range pixelCount ⊆ (l.map Prod.fst).toFinset := by
      intro x hx
      have hx' := Finset.mem_range.1 hx
      have : cellsFind x l ≠ none := fun hn => hcon ⟨x, hx', hn⟩
      obtain ⟨q, hq⟩ := Option.ne_none_iff_exists'.1 this
      exact List.mem_toFinset.2 (List.mem_map.2 ⟨_, mem_of_cellsFind hq, rfl⟩)
    have h1 := Finset.card_le_card hsub
    have h2 := List.toFinset_card_le (l.map Prod.fst)
    simp only [Finset.card_range, List.length_map] at h1 h2
    omega
  cases hA : a.base with
  | powerOn n =>
    rw [hA] at az
    cases hB : b.base with
    | powerOn n' =>
      obtain rfl := hbase n n' hA hB
      have : a.cells = b.cells := cells_ext ar br fun k => by
        by_cases hk : k < pixelCount
        · have := h k hk
          simp only [Memory.known, hA, hB] at this
          cases h1 : cellsFind k a.cells <;> cases h2 : cellsFind k b.cells <;> rw [h1, h2] at this <;> exact this
        · rw [big ab k hk, big bb k hk]
      exact Memory.eq_of (hA.trans hB.symm) this
    | cleared =>
      obtain ⟨k, hk, hn⟩ := short ar ab az
      have := h k hk
      simp only [Memory.known, hA, hB, hn] at this
      cases h2 : cellsFind k b.cells <;> rw [h2] at this <;> exact absurd this (by simp)
  | cleared =>
    rw [hA] at az
    cases hB : b.base with
    | powerOn n' =>
      rw [hB] at bz
      obtain ⟨k, hk, hn⟩ := short br bb bz
      have := h k hk
      simp only [Memory.known, hA, hB, hn] at this
      cases h2 : cellsFind k a.cells <;> rw [h2] at this <;> exact absurd this (by simp)
    | cleared =>
      rw [hB] at bz
      have : a.cells = b.cells := cells_ext ar br fun k => by
        by_cases hk : k < pixelCount
        · have := h k hk
          simp only [Memory.known, hA, hB] at this
          cases h1 : cellsFind k a.cells with
          | none =>
            cases h2 : cellsFind k b.cells with
            | none => rfl
            | some q =>
              rw [h1, h2] at this
              exact absurd (Option.some.inj this).symm (bz _ (mem_of_cellsFind h2))
          | some p =>
            cases h2 : cellsFind k b.cells with
            | none =>
              rw [h1, h2] at this
              exact absurd (Option.some.inj this) (az _ (mem_of_cellsFind h1))
            | some q => rw [h1, h2] at this; exact this
        · rw [big ab k hk, big bb k hk]
      exact Memory.eq_of (hA.trans hB.symm) this

end Sys2Proof.Machine
end

