-- ==== Sys2Proof/Laws/Trace.lean ====
section
/-! SUPPORT. What running a trace can do, once for all procedures; the small facts of the traces and of the observables. -/

namespace Sys2Proof.Machine

/-- Two states with the same fields are the same. -/
theorem State.eq_of {a b : State} (h1 : a.lines = b.lines) (h2 : a.lifecycle = b.lifecycle) (h3 : a.busy = b.busy)
    (h4 : a.errInit = b.errInit) (h5 : a.errSteady = b.errSteady) (h6 : a.op = b.op) (h7 : a.idx = b.idx)
    (h8 : a.fb = b.fb) (h9 : a.params = b.params) (h10 : a.inputs = b.inputs) (h11 : a.wrFail = b.wrFail)
    (h12 : a.emitted = b.emitted) (h13 : a.readOut = b.readOut) (h14 : a.resets = b.resets) : a = b := by
  cases a; cases b; simp_all

@[simp] theorem State.runEvents_nil (s : State) : s.runEvents [] = s := rfl

/-- A write that ends INIT is the last event of the run (R184). -/
theorem State.runEvents_fatal {s : State} {e : Event} (h : s.fatal e = true) (t : List Event) :
    s.runEvents (e :: t) = s.emit e := by simp [State.runEvents, h]

/-- Any other event is followed by the rest of the trace (R62). -/
theorem State.runEvents_cons {s : State} {e : Event} (h : s.fatal e = false) (t : List Event) :
    s.runEvents (e :: t) = (s.emit e).runEvents t := by simp [State.runEvents, h]

@[simp] theorem writeCount_nil : writeCount [] = 0 := rfl
@[simp] theorem writeCount_w (l : Line) (v : Bool) (t : List Event) :
    writeCount (.w l v :: t) = writeCount t + 1 := by
  rw [writeCount, List.countP_cons_of_pos rfl]; rfl
@[simp] theorem writeCount_h (k : Hold) (t : List Event) : writeCount (.h k :: t) = writeCount t := by
  simp [writeCount, Event.isWrite]
@[simp] theorem writeCount_clr (t : List Event) : writeCount (.clr :: t) = writeCount t := by
  simp [writeCount, Event.isWrite]
@[simp] theorem writeCount_append (t u : List Event) : writeCount (t ++ u) = writeCount t + writeCount u := by
  simp [writeCount]

/-- The failures among the next n + 1 writes are the next one's and those of the n after it. -/
theorem any_take_succ (l : List Bool) (n : Nat) :
    (l.take (n + 1)).any id = (l.headD false || (l.tail.take n).any id) := by
  cases l <;> simp

/-- THE RUN OF A TRACE that holds no `CLR` and is not cut short: its outcome, and nothing else (R18, R62). -/
theorem State.runEvents_outcome (t : List Event) (s : State) (hc : Event.clr ∉ t) (hu : s.uncut t = true) :
    s.runEvents t = s.outcome (s.lines.after t) t := by
  induction t generalizing s with
  | nil => cases s; simp [State.outcome, State.someFails, writeCount]
  | cons e t ih =>
    have hc' : Event.clr ∉ t := fun h => hc (List.mem_cons_of_mem _ h)
    cases e with
    | clr => exact absurd List.mem_cons_self hc
    | h k =>
      have hf : s.fatal (.h k) = false := rfl
      have he : s.emit (.h k) = s.record (.h k) := by simp [State.emit, Event.isWrite, State.applyEvent]
      rw [State.runEvents_cons hf, he, ih _ hc' (by rw [State.uncut, writeCount_h] at hu; exact hu)]
      refine State.eq_of rfl rfl rfl rfl ?_ rfl rfl rfl rfl rfl ?_ ?_ rfl rfl <;>
        simp [State.outcome, State.someFails] <;> rfl
    | w l v =>
      have hf : s.fatal (.w l v) = false := by
        simp only [State.uncut, State.someFails, writeCount_w, any_take_succ] at hu
        simp only [State.fatal, Event.isWrite, State.answerFails]
        cases h1 : s.inInit <;> cases h2 : s.params.gpioFallible <;> cases h3 : s.wrFail.headD false <;> simp_all
      have hu' : (s.emit (.w l v)).uncut t = true := by
        simp only [State.uncut, State.someFails, writeCount_w, any_take_succ] at hu
        simp only [State.uncut, State.someFails, State.inInit, State.emit_busy, State.emit_op, State.emit_params,
          State.emit_wrFail, hf, Event.isWrite] at hu ⊢
        cases h1 : s.busy <;> cases h2 : s.params.gpioFallible <;> simp_all
        exact hu.imp id (·.2)
      rw [State.runEvents_cons hf, ih _ hc' hu']
      refine State.eq_of ?_ ?_ ?_ ?_ ?_ ?_ ?_ ?_ ?_ ?_ ?_ ?_ ?_ ?_ <;>
        simp only [State.outcome, State.emit_lines, State.emit_lifecycle, State.emit_busy, State.emit_errInit,
          State.emit_errSteady, State.emit_op, State.emit_idx, State.emit_fb, State.emit_params, State.emit_inputs,
          State.emit_wrFail, State.emit_emitted, State.emit_readOut, State.emit_resets, hf, Lines.after_w,
          Lines.after_nil, writeCount_w, Event.isWrite]
      · simp
      · simp
      · simp
      · simp only [State.someFails, State.emit_params, State.emit_wrFail, Event.isWrite, any_take_succ,
          State.answerFails]
        simp only [State.fatal, Event.isWrite, State.answerFails] at hf
        cases h1 : s.inInit <;> cases h2 : s.params.gpioFallible <;> cases h3 : s.wrFail.headD false <;> simp_all
      · simp
      · cases h2 : s.params.gpioFallible <;> simp
      · simp

/-- THE RUN OF A TRACE CUT SHORT: in INIT the first failing write is the last event that takes place (R184). -/
theorem State.runEvents_cut (pre post : List Event) (l : Line) (v : Bool) (s : State) (hc : Event.clr ∉ pre)
    (hin : s.inInit = true) (hno : s.someFails (writeCount pre) = false)
    (hfail : s.someFails (writeCount pre + 1) = true) :
    s.runEvents (pre ++ .w l v :: post) = (s.outcome (s.lines.after pre) pre).emit (.w l v) := by
  have hrun : ∀ (pre : List Event) (s : State), Event.clr ∉ pre → s.inInit = true →
      s.someFails (writeCount pre) = false →
      s.runEvents (pre ++ .w l v :: post) = (s.runEvents pre).runEvents (.w l v :: post) := by
    intro pre
    induction pre with
    | nil => intros; rfl
    | cons e pre ih =>
      intro s hc hin hno
      have hc' : Event.clr ∉ pre := fun h => hc (List.mem_cons_of_mem _ h)
      have hf : s.fatal e = false := by
        cases e with
        | clr => rfl
        | h k => rfl
        | w l' v' =>
          simp only [State.someFails, writeCount_w, any_take_succ] at hno
          simp only [State.fatal, Event.isWrite, State.answerFails]
          cases h2 : s.params.gpioFallible <;> cases h3 : s.wrFail.headD false <;> simp_all
      rw [List.cons_append, State.runEvents_cons hf, State.runEvents_cons hf]
      refine ih _ hc' ?_ ?_
      · simpa [State.inInit, hf] using hin
      · cases e with
        | clr => exact absurd List.mem_cons_self hc
        | h k => simpa [State.someFails, Event.isWrite] using hno
        | w l' v' =>
          simp only [State.someFails, writeCount_w, any_take_succ] at hno
          simp only [State.someFails, State.emit_params, State.emit_wrFail, Event.isWrite]
          cases h2 : s.params.gpioFallible <;> simp_all
  have hu : s.uncut pre = true := by simp [State.uncut, hno]
  rw [hrun pre s hc hin hno, State.runEvents_outcome pre s hc hu]
  refine State.runEvents_fatal ?_ post
  have hcount : ∀ (m : List Bool) (n : Nat), (m.take (n + 1)).any id = ((m.take n).any id || (m.drop n).headD false) := by
    intro m
    induction m with
    | nil => intro n; simp
    | cons b m ih =>
      intro n
      cases n with
      | zero => simp
      | succ n => simp only [List.take_succ_cons, List.any_cons, List.drop_succ_cons, ih, Bool.or_assoc]
  simp only [State.someFails, hcount] at hfail hno
  simp only [State.fatal, Event.isWrite, State.answerFails, State.outcome, State.inInit] at hin ⊢
  cases h2 : s.params.gpioFallible <;> simp_all

/-- The state after a trace cut short in INIT, written out (R181, R184). -/
theorem State.runEvents_aborted (pre post : List Event) (l : Line) (v : Bool) (s : State) (hc : Event.clr ∉ pre)
    (hin : s.inInit = true) (hno : s.someFails (writeCount pre) = false)
    (hfail : s.someFails (writeCount pre + 1) = true) :
    s.runEvents (pre ++ .w l v :: post) = { s with
      lines := (s.lines.after pre).set l v
      errInit := true
      lifecycle := .initFailed
      busy := false
      emitted := .w l v :: (pre.reverse ++ s.emitted)
      wrFail := s.wrFail.drop (writeCount pre + 1) } := by
  have hg : s.params.gpioFallible = true := by
    simp only [State.someFails, Bool.and_eq_true] at hfail
    exact hfail.1
  have hhead : ∀ (m : List Bool) (n : Nat), (m.take n).any id = false → (m.take (n + 1)).any id = true →
      (m.drop n).headD false = true := by
    intro m
    induction m with
    | nil => simp
    | cons b m ih => intro n; cases n <;> simp_all
  have hans : (s.outcome (s.lines.after pre) pre).answerFails = true := by
    simp only [State.someFails, hg, Bool.true_and] at hno hfail
    simp only [State.answerFails, State.outcome, hg, if_true, Bool.true_and]
    exact hhead _ _ hno hfail
  have hin' : (s.outcome (s.lines.after pre) pre).inInit = true := hin
  have hf : (s.outcome (s.lines.after pre) pre).fatal (.w l v) = true := by
    simp only [State.fatal, Event.isWrite, hans, hin', Bool.and_self]
  rw [State.runEvents_cut pre post l v s hc hin hno hfail]
  refine State.eq_of ?_ ?_ ?_ ?_ ?_ ?_ ?_ ?_ ?_ ?_ ?_ ?_ ?_ ?_ <;>
    simp only [State.emit_lines, State.emit_lifecycle, State.emit_busy, State.emit_errInit, State.emit_errSteady,
      State.emit_op, State.emit_idx, State.emit_fb, State.emit_params, State.emit_inputs, State.emit_wrFail,
      State.emit_emitted, State.emit_readOut, State.emit_resets, hf, hans, hin', Event.isWrite] <;>
    simp [State.outcome, hg, hno]

/-- No procedure's trace holds a `CLR`: only TEARDOWN emits it (R13). -/
theorem clr_notMem_pulses (c : Clock) (n : Nat) : Event.clr ∉ pulseTraces c n := by
  simp [pulseTraces, pulseTrace]

@[simp] theorem clr_notMem_pulseTrace (c : Clock) : Event.clr ∉ pulseTrace c := by simp [pulseTrace]

@[simp] theorem clr_notMem_scanTrace (a : Nat) : Event.clr ∉ scanTrace a := by simp [scanTrace]

@[simp] theorem clr_notMem_cmdTrace (c : Command) : Event.clr ∉ cmdTrace c := by
  simp [cmdTrace, clr_notMem_pulses]

@[simp] theorem clr_notMem_cfgTrace (p : Params) (v : BitVec 16) : Event.clr ∉ cfgTrace p v := by
  simp [cfgTrace, bitCell, pulseTrace]

@[simp] theorem clr_notMem_symbolTrace (p : Params) (fb : Memory) (s ic plane led : Nat) :
    Event.clr ∉ symbolTrace p fb s ic plane led := by
  unfold symbolTrace symbolClock
  split <;> simp [symbolWrites, pulseTrace]

@[simp] theorem clr_notMem_sdataTrace (p : Params) (fb : Memory) (s : Nat) : Event.clr ∉ sdataTrace p fb s := by
  simp [sdataTrace]

@[simp] theorem clr_notMem_scanPeriodTrace (s : Nat) : Event.clr ∉ scanPeriodTrace s := by
  unfold scanPeriodTrace
  split <;> simp [scanTrace, clr_notMem_pulses, pulseTrace]

end Sys2Proof.Machine
end

