-- ==== Sys2Proof/Laws/Layout.lean ====
section
/-! SUPPORT. The traces as one list over their symbol numbers or scanlines, their lengths and event counts, and the event at an
index of a list of blocks. -/

namespace Sys2Proof.Machine

/-- Two nested counted loops are one loop over the quotient and the remainder. -/
theorem flatMap_range_mul {α : Type} (a b : Nat) (hb : 0 < b) (F : Nat → Nat → List α) :
    (List.range (a * b)).flatMap (fun q => F (q / b) (q % b)) =
      (List.range a).flatMap fun i => (List.range b).flatMap fun j => F i j := by
  induction a with
  | zero => simp
  | succ a ih =>
    have hsplit : List.range ((a + 1) * b) = List.range (a * b) ++ (List.range b).map (a * b + ·) := by
      rw [Nat.succ_mul, List.range_add]
    rw [hsplit, List.flatMap_append, ih, List.range_succ, List.flatMap_append]
    congr 1
    simp only [List.flatMap_singleton, List.flatMap_map]
    refine List.flatMap_congr fun j hj => ?_
    have hj : j < b := List.mem_range.mp hj
    rw [Nat.mul_comm a b, Nat.mul_add_div hb, Nat.mul_add_mod, Nat.div_eq_of_lt hj, Nat.mod_eq_of_lt hj, Nat.add_zero]

theorem countDown_sixteen : countDown 16 = (List.range 16).map (15 - ·) := by decide

/-- `SDATA(s)` is its 5632 symbols in the order of their numbers (R78). -/
theorem sdataTrace_eq_symbols (p : Params) (fb : Memory) (s : Nat) :
    sdataTrace p fb s =
      (List.range 5632).flatMap fun q => symbolTrace p fb s (q / 256) (15 - q % 256 / 16) (q % 16) := by
  have h2 := flatMap_range_mul 22 256 (by decide)
    fun ic r => symbolTrace p fb s ic (15 - r / 16) (r % 16)
  have h1 := fun ic => flatMap_range_mul 16 16 (by decide)
    fun i led => symbolTrace p fb s ic (15 - i) led
  have hmod : ∀ q : Nat, q % 256 % 16 = q % 16 := fun q => by omega
  simp only [hmod] at h2
  rw [show (5632 : Nat) = 22 * 256 from rfl, h2]
  unfold sdataTrace
  rw [show Config.planes = 16 from rfl, countDown_sixteen]
  simp only [List.flatMap_map]
  exact List.flatMap_congr fun ic _ => (h1 ic).symm

/-- The last symbol is the one numbered 5631 (R29, R78). -/
theorem lastSymbol_number {q : Nat} (h : q < 5632) :
    lastSymbol (q / 256) (15 - q % 256 / 16) (q % 16) = decide (q = 5631) := by
  simp only [lastSymbol, ← Bool.decide_and]
  exact decide_eq_decide.mpr ⟨by omega, by omega⟩

@[simp] theorem length_symbolTrace (p : Params) (fb : Memory) (s ic plane led : Nat) :
    (symbolTrace p fb s ic plane led).length = if lastSymbol ic plane led then 12 else 10 := by
  unfold symbolTrace symbolClock
  split <;> simp [symbolWrites, pulseTrace]

/-- The length of a list of blocks of one length. -/
theorem length_flatMap_const {α β : Type} (l : List α) (F : α → List β) (n : Nat) (h : ∀ a ∈ l, (F a).length = n) :
    (l.flatMap F).length = n * l.length := by
  induction l with
  | nil => rfl
  | cons a l ih =>
    simp only [List.flatMap_cons, List.length_append, List.length_cons, h a List.mem_cons_self,
      ih fun b hb => h b (List.mem_cons_of_mem _ hb)]
    rw [Nat.mul_succ, Nat.add_comm]

/-- The element at an index of a list of blocks of one length. -/
theorem getElem?_flatMap_range {α : Type} (F : Nat → List α) (n b i : Nat) (hb : 0 < b)
    (h : ∀ a < n, (F a).length = b) (hi : i < n * b) :
    ((List.range n).flatMap F)[i]? = (F (i / b))[i % b]? := by
  induction n with
  | zero => omega
  | succ n ih =>
    rw [List.range_succ, List.flatMap_append, List.flatMap_singleton]
    have hlen : ((List.range n).flatMap F).length = n * b := by
      rw [length_flatMap_const _ _ b fun a ha => h a (by have := List.mem_range.mp ha; omega), List.length_range,
        Nat.mul_comm]
    rcases Nat.lt_or_ge i (n * b) with hlt | hge
    · rw [List.getElem?_append_left (by omega), ih (fun a ha => h a (by omega)) hlt]
    · rw [List.getElem?_append_right (by omega), hlen]
      have hq : i / b = n := by
        rw [Nat.div_eq_of_lt_le (by omega) (by omega)]
      have hr : i % b = i - n * b := by
        have := Nat.div_add_mod i b
        rw [hq, Nat.mul_comm] at this; omega
      rw [hq, hr]

/-- The last of the blocks of a counted loop. -/
theorem flatMap_range_succ {α : Type} (F : Nat → List α) (n : Nat) :
    (List.range (n + 1)).flatMap F = (List.range n).flatMap F ++ F n := by
  rw [List.range_succ, List.flatMap_append, List.flatMap_singleton]

/-- `SDATA(s)` is 5631 symbols of 10 events and the last one of 12 (R133). -/
theorem sdataTrace_split (p : Params) (fb : Memory) (s : Nat) :
    sdataTrace p fb s =
      (List.range 5631).flatMap (fun q => symbolTrace p fb s (q / 256) (15 - q % 256 / 16) (q % 16))
        ++ symbolTrace p fb s 21 0 15 := by
  rw [sdataTrace_eq_symbols, flatMap_range_succ]

theorem length_symbols (p : Params) (fb : Memory) (s q : Nat) (h : q < 5631) :
    (symbolTrace p fb s (q / 256) (15 - q % 256 / 16) (q % 16)).length = 10 := by
  rw [length_symbolTrace, lastSymbol_number (by omega), decide_eq_false (by omega)]
  rfl

@[simp] theorem length_sdataTrace (p : Params) (fb : Memory) (s : Nat) : (sdataTrace p fb s).length = 56322 := by
  rw [sdataTrace_split, List.length_append,
    length_flatMap_const _ _ 10 fun q hq => length_symbols p fb s q (List.mem_range.mp hq)]
  simp [lastSymbol]

@[simp] theorem length_pulseTrace (c : Clock) : (pulseTrace c).length = 4 := rfl

@[simp] theorem length_pulseTraces (c : Clock) (n : Nat) : (pulseTraces c n).length = 4 * n := by
  simp [pulseTraces, Nat.mul_comm]

@[simp] theorem length_cmdTrace (c : Command) : (cmdTrace c).length = 4 * c.count + 2 := by
  simp [cmdTrace]

@[simp] theorem length_scanPeriodTrace (s : Nat) :
    (scanPeriodTrace s).length = if s = 10 then 1044 else 1034 := by
  by_cases h : s = 10 <;> simp [scanPeriodTrace, scanTrace, lastScanline, h, Command.count, Config.gclkPulses]

@[simp] theorem writeCount_pulseTrace (c : Clock) : writeCount (pulseTrace c) = 2 := by cases c <;> rfl

@[simp] theorem writeCount_pulseTraces (c : Clock) (n : Nat) : writeCount (pulseTraces c n) = 2 * n := by
  induction n with
  | zero => rfl
  | succ n ih =>
    rw [show pulseTraces c (n + 1) = pulseTrace c ++ pulseTraces c n from rfl, writeCount_append, ih,
      writeCount_pulseTrace]
    omega

@[simp] theorem writeCount_cmdTrace (c : Command) : writeCount (cmdTrace c) = 2 * c.count + 2 := by
  simp [cmdTrace]

/-- The lines after an append (R62). -/
theorem after_pulseTrace (ls : Lines) (c : Clock) : ls.after (pulseTrace c) = ls.set (clockLine c) false := by
  cases c <;> rfl

/-- The lines after n pulses, n at least 1 (R103). -/
theorem after_pulseTraces (ls : Lines) (c : Clock) (n : Nat) :
    ls.after (pulseTraces c (n + 1)) = ls.set (clockLine c) false := by
  induction n generalizing ls with
  | zero => cases c <;> rfl
  | succ n ih =>
    rw [show pulseTraces c (n + 1 + 1) = pulseTrace c ++ pulseTraces c (n + 1) from rfl, Lines.after_append, ih,
      after_pulseTrace]
    cases c <;> rfl

/-- The lines after a command (R111). -/
@[simp] theorem after_cmdTrace (ls : Lines) (c : Command) :
    ls.after (cmdTrace c) = { ls with le := false, dclk := false } := by
  obtain ⟨n, hn⟩ : ∃ n, c.count = n + 1 := by cases c <;> exact ⟨_, rfl⟩
  rw [cmdTrace, hn, Lines.after_w, Lines.after_append, after_pulseTraces]
  rfl

/-- The operand ranges, as bounds (R131, R133, R145). -/
theorem scanlineLegal_of_le {a : BitVec 4} (h : a.toNat ≤ 10) : scanlineLegal a = true :=
  decide_eq_true (Nat.lt_succ_of_le h)

theorem scanlineLegal_of_lt {a : BitVec 4} (h : 10 < a.toNat) : scanlineLegal a = false :=
  decide_eq_false (Nat.not_lt.mpr h)

theorem icLegal_of_le {ic : BitVec 5} (h : ic.toNat ≤ 21) : icLegal ic = true :=
  decide_eq_true (Nat.lt_succ_of_le h)

theorem icLegal_of_lt {ic : BitVec 5} (h : 21 < ic.toNat) : icLegal ic = false :=
  decide_eq_false (Nat.not_lt.mpr h)

/-- The last scanline and the last symbol, as operands (R29). -/
theorem lastScanline_toNat (a : BitVec 4) : lastScanline a.toNat = decide (a = 10) :=
  decide_eq_decide.mpr ⟨fun h => BitVec.eq_of_toNat_eq h, fun h => by rw [h]; rfl⟩

theorem lastSymbol_toNat (ic : BitVec 5) (plane led : BitVec 4) :
    lastSymbol ic.toNat plane.toNat led.toNat = decide (ic = 21 ∧ plane = 0 ∧ led = 15) := by
  have h1 : ic.toNat = 21 ↔ ic = 21 := ⟨fun h => BitVec.eq_of_toNat_eq h, fun h => by rw [h]; rfl⟩
  have h2 : plane.toNat = 0 ↔ plane = 0 := ⟨fun h => BitVec.eq_of_toNat_eq h, fun h => by rw [h]; rfl⟩
  have h3 : led.toNat = 15 ↔ led = 15 := ⟨fun h => BitVec.eq_of_toNat_eq h, fun h => by rw [h]; rfl⟩
  simp only [lastSymbol, ← Bool.decide_and, h1, h2, h3, and_assoc]

/-- The lines after a scanline address (R131). -/
@[simp] theorem after_scanTrace (ls : Lines) (a : Nat) :
    ls.after (scanTrace a) =
      { ls with a0 := a.testBit 0, a1 := a.testBit 1, a2 := a.testBit 2, a3 := a.testBit 3 } := rfl

/-- The six data lines after a symbol's writes, the others as before (R133). -/
theorem after_symbolWrites (ls : Lines) (p : Params) (fb : Memory) (s ic plane led : Nat) :
    ls.after (symbolWrites p fb s ic plane led) = { ls with
      r1 := (chain1Pixel p fb s ic led).r.getLsbD plane
      g1 := (chain1Pixel p fb s ic led).g.getLsbD plane
      b1 := (chain1Pixel p fb s ic led).b.getLsbD plane
      r2 := (chain2Pixel p fb s ic led).r.getLsbD plane
      g2 := (chain2Pixel p fb s ic led).g.getLsbD plane
      b2 := (chain2Pixel p fb s ic led).b.getLsbD plane } := rfl

/-- DCLK, and on the last symbol LE, after a symbol's clock (R133). -/
theorem after_symbolClock (ls : Lines) (last : Bool) :
    ls.after (symbolClock last) = { ls with dclk := false, le := if last then false else ls.le } := by
  cases last <;> rfl

/-- The lines after one symbol (R133). -/
theorem after_symbolTrace (ls : Lines) (p : Params) (fb : Memory) (s ic plane led : Nat) :
    ls.after (symbolTrace p fb s ic plane led) = { ls with
      r1 := (chain1Pixel p fb s ic led).r.getLsbD plane
      g1 := (chain1Pixel p fb s ic led).g.getLsbD plane
      b1 := (chain1Pixel p fb s ic led).b.getLsbD plane
      r2 := (chain2Pixel p fb s ic led).r.getLsbD plane
      g2 := (chain2Pixel p fb s ic led).g.getLsbD plane
      b2 := (chain2Pixel p fb s ic led).b.getLsbD plane
      dclk := false
      le := if lastSymbol ic plane led then false else ls.le } := by
  rw [symbolTrace, Lines.after_append, after_symbolWrites, after_symbolClock]

/-- What a list of blocks leaves alone, if each of them does. -/
theorem after_flatMap {α γ : Type} (F : α → List Event) (q : Lines → γ) (h : ∀ a ls, q (ls.after (F a)) = q ls)
    (l : List α) (ls : Lines) : q (ls.after (l.flatMap F)) = q ls := by
  induction l generalizing ls with
  | nil => rfl
  | cons a l ih => rw [List.flatMap_cons, Lines.after_append, ih, h]

/-- The lines that a symbol never writes: GCLK and the address. -/
theorem after_symbols_others (p : Params) (fb : Memory) (s : Nat) (l : List Nat) (ls : Lines) :
    let u := ls.after (l.flatMap fun q => symbolTrace p fb s (q / 256) (15 - q % 256 / 16) (q % 16))
    (u.gclk, u.a0, u.a1, u.a2, u.a3) = (ls.gclk, ls.a0, ls.a1, ls.a2, ls.a3) :=
  after_flatMap _ (fun u : Lines => (u.gclk, u.a0, u.a1, u.a2, u.a3)) (fun _ _ => by simp [after_symbolTrace]) l ls

/-- The lines after a scanline's data: the last symbol on the data lines, DCLK and LE low, the others as before (R133). -/
theorem after_sdataTrace (ls : Lines) (p : Params) (fb : Memory) (s : Nat) :
    ls.after (sdataTrace p fb s) = { ls with
      r1 := (chain1Pixel p fb s 21 15).r.getLsbD 0
      g1 := (chain1Pixel p fb s 21 15).g.getLsbD 0
      b1 := (chain1Pixel p fb s 21 15).b.getLsbD 0
      r2 := (chain2Pixel p fb s 21 15).r.getLsbD 0
      g2 := (chain2Pixel p fb s 21 15).g.getLsbD 0
      b2 := (chain2Pixel p fb s 21 15).b.getLsbD 0
      dclk := false
      le := false } := by
  have h := after_symbols_others p fb s (List.range 5631) ls
  simp only [Prod.mk.injEq] at h
  obtain ⟨h1, h2, h3, h4, h5⟩ := h
  rw [sdataTrace_split, Lines.after_append, after_symbolTrace]
  simp only [h1, h2, h3, h4, h5, show lastSymbol 21 0 15 = true from rfl, if_true]

/-- The lines after a scan period: its address, GCLK low, on scanline 10 DCLK and LE low too (R145). -/
theorem after_scanPeriodTrace (ls : Lines) (s : Nat) :
    ls.after (scanPeriodTrace s) = { ls with
      gclk := false
      a0 := s.testBit 0, a1 := s.testBit 1, a2 := s.testBit 2, a3 := s.testBit 3
      dclk := if lastScanline s then false else ls.dclk
      le := if lastScanline s then false else ls.le } := by
  rw [scanPeriodTrace, show Config.gclkPulses = 255 + 1 from rfl]
  simp only [Lines.after_append, after_scanTrace, after_pulseTraces, after_pulseTrace]
  cases lastScanline s
  · rfl
  · simp only [if_true, after_cmdTrace]; rfl

/-- The lines after one bit cell (R74). -/
theorem after_bitCell (ls : Lines) (p : Params) (v : Bool) :
    ls.after (bitCell p v) = ({ ls with dclk := false } : Lines).set (dataLine p.cfgLine) v := by
  rw [bitCell, Lines.after_w, after_pulseTrace]
  cases p.cfgLine <;> rfl

/-- The lines after the bits of a configuration word: the last one on `CFG_LINE`, DCLK low (R117). -/
theorem after_bitCells (p : Params) (f : Nat → Bool) (l : List Nat) (i : Nat) (ls : Lines) :
    ls.after ((l ++ [i]).flatMap fun j => bitCell p (f j)) =
      ({ ls with dclk := false } : Lines).set (dataLine p.cfgLine) (f i) := by
  induction l generalizing ls with
  | nil => rw [List.nil_append, List.flatMap_singleton, after_bitCell]
  | cons j l ih =>
    rw [List.cons_append, List.flatMap_cons, Lines.after_append, ih, after_bitCell]
    cases p.cfgLine <;> rfl

/-- The lines after a configuration frame (R117). -/
theorem after_cfgTrace (ls : Lines) (p : Params) (v : BitVec 16) :
    ls.after (cfgTrace p v) =
      ({ ls with le := false, dclk := false } : Lines).set (dataLine p.cfgLine) (v.getLsbD 0) := by
  rw [cfgTrace, show countDown 16 = [15, 14, 13, 12, 11, 10, 9, 8, 7, 6, 5, 4, 3, 2, 1] ++ [0] by decide]
  simp only [Lines.after_append, after_cmdTrace, after_bitCells]
  cases p.cfgLine <;> rfl

end Sys2Proof.Machine
end

