-- ==== Sys2Proof/Laws/Observe.lean ====
section
/-! SUPPORT. Reading a waveform: what an observer that looks at consecutive vectors sees of a trace, event by event. -/

namespace Sys2Proof.Machine

variable {σ β : Type}

/-- An observer with a state `x` walks a list of vectors and says something at each consecutive pair. -/
def walk (f : σ → Lines → Lines → σ × List β) (x : σ) : List Lines → List β
  | a :: b :: rest => (f x a b).2 ++ walk f (f x a b).1 (b :: rest)
  | _ => []

/-- The same observer fed with the events of a trace. -/
def observe (f : σ → Lines → Lines → σ × List β) (x : σ) (ls : Lines) : List Event → List β
  | [] => []
  | .w l v :: t => (f x ls (ls.set l v)).2 ++ observe f (f x ls (ls.set l v)).1 (ls.set l v) t
  | .h _ :: t => observe f x ls t
  | .clr :: t => observe f x ls t

/-- The observer's state after a trace. -/
def observed (f : σ → Lines → Lines → σ × List β) (x : σ) (ls : Lines) : List Event → σ
  | [] => x
  | .w l v :: t => observed f (f x ls (ls.set l v)).1 (ls.set l v) t
  | .h _ :: t => observed f x ls t
  | .clr :: t => observed f x ls t

/-- An observer that says nothing of two equal vectors sees of a waveform what it sees of the trace. -/
theorem walk_waveform (f : σ → Lines → Lines → σ × List β) (hf : ∀ x a, f x a a = (x, [])) (x : σ) (ls : Lines)
    (t : List Event) : walk f x (waveform ls t) = observe f x ls t := by
  induction t generalizing x ls with
  | nil => rfl
  | cons e t ih =>
    cases e with
    | h k => exact ih x ls
    | clr => exact ih x ls
    | w l v =>
      have hw : waveform ls (.w l v :: t) =
          if ls.set l v = ls then waveform ls t else ls :: waveform (ls.set l v) t := by
        by_cases h : ls.set l v = ls <;> simp [waveform, lineTrace, vectorsAfter, dropRepeats, h]
      rw [hw]
      by_cases h : ls.set l v = ls
      · simp [h, observe, hf, ih]
      · simp only [h, if_false, observe, waveform, walk]
        congr 1
        exact ih _ _

theorem observe_append (f : σ → Lines → Lines → σ × List β) (x : σ) (ls : Lines) (t u : List Event) :
    observe f x ls (t ++ u) = observe f x ls t ++ observe f (observed f x ls t) (ls.after t) u := by
  induction t generalizing x ls with
  | nil => rfl
  | cons e t ih => cases e <;> simp [observe, observed, ih]

theorem observed_append (f : σ → Lines → Lines → σ × List β) (x : σ) (ls : Lines) (t u : List Event) :
    observed f x ls (t ++ u) = observed f (observed f x ls t) (ls.after t) u := by
  induction t generalizing x ls with
  | nil => rfl
  | cons e t ih => cases e <;> simp [observed, ih]

/-- A list of blocks, each of which the observer leaves in the state it met it in and reads as `g a` whatever the lines, so
long as they meet `P`: it reads them one after another. -/
theorem observe_flatMap {α : Type} (f : σ → Lines → Lines → σ × List β) (P : Lines → Prop) (F : α → List Event)
    (g : α → List β) (x : σ) (l : List α)
    (h : ∀ a ∈ l, ∀ ls, P ls → observe f x ls (F a) = g a ∧ observed f x ls (F a) = x ∧ P (ls.after (F a)))
    (ls : Lines) (hl : P ls) :
    observe f x ls (l.flatMap F) = l.flatMap g ∧ observed f x ls (l.flatMap F) = x ∧ P (ls.after (l.flatMap F)) := by
  induction l generalizing ls with
  | nil => exact ⟨rfl, rfl, hl⟩
  | cons a l ih =>
    obtain ⟨h1, h2, h3⟩ := h a List.mem_cons_self ls hl
    obtain ⟨i1, i2, i3⟩ := ih (fun b hb => h b (List.mem_cons_of_mem _ hb)) _ h3
    simp only [List.flatMap_cons, observe_append, observed_append, Lines.after_append, h1, h2, i1, i2]
    exact ⟨trivial, trivial, i3⟩

/-- The observer of one line's rising edges. -/
def seeRise (l : Line) (x : Unit) (a b : Lines) : Unit × List Lines :=
  (x, if !a.get l && b.get l then [b] else [])

/-- The observer of both clocks' rising edges. -/
def seeClock (x : Unit) (a b : Lines) : Unit × List (Clock × Lines) :=
  (x, if !a.gclk && b.gclk then [(.gclk, b)] else if !a.dclk && b.dclk then [(.dclk, b)] else [])

/-- The observer of commands, which counts DCLK edges while LE is high (R92). -/
def seeCommand (n : Nat) (a b : Lines) : Nat × List Nat :=
  if a.le && !b.le then (0, [n]) else if b.le && !a.dclk && b.dclk then (n + 1, []) else (n, [])

theorem risingEdges_eq_walk (l : Line) (ws : List Lines) : risingEdges l ws = walk (seeRise l) () ws := by
  induction ws with
  | nil => rfl
  | cons a ws ih =>
    cases ws with
    | nil => rfl
    | cons b ws =>
      rw [risingEdges, walk, ← ih]
      unfold seeRise
      split <;> simp [*]

theorem clockEdges_eq_walk (ws : List Lines) : clockEdges ws = walk seeClock () ws := by
  induction ws with
  | nil => rfl
  | cons a ws ih =>
    cases ws with
    | nil => rfl
    | cons b ws =>
      rw [clockEdges, walk, ← ih]
      unfold seeClock
      split
      · simp [*]
      · split <;> simp [*]

theorem commandsFrom_eq_walk (n : Nat) (ws : List Lines) : commandsFrom n ws = walk seeCommand n ws := by
  induction ws generalizing n with
  | nil => rfl
  | cons a ws ih =>
    cases ws with
    | nil => rfl
    | cons b ws =>
      by_cases h1 : (a.le && !b.le) = true
      · simp only [commandsFrom, walk, h1, if_true, ih, show seeCommand n a b = (0, [n]) by simp only [seeCommand, h1, if_true],
          List.singleton_append]
      · by_cases h2 : (b.le && !a.dclk && b.dclk) = true
        · simp only [commandsFrom, walk, h1, h2, if_true, if_false, ih, Bool.false_eq_true,
            show seeCommand n a b = (n + 1, []) by simp only [seeCommand, h1, h2, if_true, if_false, Bool.false_eq_true],
            List.nil_append]
        · simp only [commandsFrom, walk, h1, h2, if_false, ih, Bool.false_eq_true,
            show seeCommand n a b = (n, []) by simp only [seeCommand, h1, h2, if_false, Bool.false_eq_true],
            List.nil_append]

theorem receivedFrom_eq_walk (held : List (List Bool)) (ws : List Lines) : receivedFrom held ws = walk receive held ws := by
  induction ws generalizing held with
  | nil => rfl
  | cons a ws ih =>
    cases ws with
    | nil => rfl
    | cons b ws => rw [receivedFrom, walk, ih]

/-- What a receiver reads of a trace's waveform (R92). -/
theorem received_waveform (ls : Lines) (t : List Event) : received (waveform ls t) = observe receive [] ls t := by
  rw [received, receivedFrom_eq_walk, walk_waveform]
  intro x a
  simp [receive]

/-- The number of a command, if it is one; the address of a GCLK edge, if it is one. -/
def Received.command? : Received → Option Nat
  | .command n => some n
  | .shift _ => none
  | .row _ => none

def Received.row? : Received → Option Nat
  | .row a => some a
  | .shift _ => none
  | .command _ => none

@[simp] theorem Received.command?_command (n : Nat) : (Received.command n).command? = some n := rfl
@[simp] theorem Received.command?_shift (d : List Bool) : (Received.shift d).command? = none := rfl
@[simp] theorem Received.command?_row (a : Nat) : (Received.row a).command? = none := rfl
@[simp] theorem Received.row?_row (a : Nat) : (Received.row a).row? = some a := rfl
@[simp] theorem Received.row?_shift (d : List Bool) : (Received.shift d).row? = none := rfl
@[simp] theorem Received.row?_command (n : Nat) : (Received.command n).row? = none := rfl

/-- An interval with one edge, and an interval with another number of them (R92 (3), (1)). -/
theorem intervalRead_one (d : List Bool) : intervalRead [d] = [.shift d, .command 1] := rfl

theorem intervalRead_of_ne_one {held : List (List Bool)} (h : held.length ≠ 1) :
    intervalRead held = [.command held.length] := by
  rw [intervalRead, if_neg h, List.nil_append]

@[simp] theorem intervalRead_commands (held : List (List Bool)) :
    (intervalRead held).filterMap Received.command? = [held.length] := by
  by_cases h : held.length = 1
  · obtain ⟨d, rfl⟩ := List.length_eq_one_iff.mp h; rfl
  · rw [intervalRead_of_ne_one h]; rfl

@[simp] theorem intervalRead_rows (held : List (List Bool)) : (intervalRead held).filterMap Received.row? = [] := by
  by_cases h : held.length = 1
  · obtain ⟨d, rfl⟩ := List.length_eq_one_iff.mp h; rfl
  · rw [intervalRead_of_ne_one h]; rfl

/-- The receiver's step, seen as the command observer's. -/
theorem receive_commands (held : List (List Bool)) (a b : Lines) :
    (receive held a b).2.filterMap Received.command? = (seeCommand held.length a b).2 ∧
      (receive held a b).1.length = (seeCommand held.length a b).1 := by
  unfold receive seeCommand
  cases a.gclk <;> cases b.gclk <;> cases a.le <;> cases b.le <;> cases a.dclk <;> cases b.dclk <;>
    simp [List.filterMap_append, List.filterMap_cons]

/-- The receiver's step, seen as the observer of GCLK's rising edges. -/
theorem receive_rows (held : List (List Bool)) (a b : Lines) :
    (receive held a b).2.filterMap Received.row? = ((seeRise .gclk () a b).2).map Lines.address := by
  unfold receive seeRise Lines.get
  cases a.gclk <;> cases b.gclk <;> cases a.le <;> cases b.le <;> cases a.dclk <;> cases b.dclk <;>
    simp [List.filterMap_append, List.filterMap_cons]

/-- The commands of the reading are the intervals that `commandsSeen` counts (R92 (1)). -/
theorem received_commands (held : List (List Bool)) (ws : List Lines) :
    (receivedFrom held ws).filterMap Received.command? = commandsFrom held.length ws := by
  rw [commandsFrom_eq_walk]
  induction ws generalizing held with
  | nil => rfl
  | cons a ws ih =>
    cases ws with
    | nil => rfl
    | cons b ws =>
      rw [receivedFrom, walk, List.filterMap_append, ih, (receive_commands held a b).1, (receive_commands held a b).2]

/-- The addresses of the reading are the levels at the GCLK rising edges (R92 (4)). -/
theorem received_rows (held : List (List Bool)) (ws : List Lines) :
    (receivedFrom held ws).filterMap Received.row? = gclkAddresses ws := by
  rw [gclkAddresses, risingEdges_eq_walk]
  induction ws generalizing held with
  | nil => rfl
  | cons a ws ih =>
    cases ws with
    | nil => rfl
    | cons b ws => rw [receivedFrom, walk, List.filterMap_append, ih, receive_rows, List.map_append]

/-- The rising edges in a trace's waveform (R14). -/
theorem risingEdges_waveform (l : Line) (ls : Lines) (t : List Event) :
    risingEdges l (waveform ls t) = observe (seeRise l) () ls t := by
  rw [risingEdges_eq_walk, walk_waveform]
  intro x a
  simp [seeRise]

/-- The clock edges in a trace's waveform. -/
theorem clockEdges_waveform (ls : Lines) (t : List Event) :
    clockEdges (waveform ls t) = observe seeClock () ls t := by
  rw [clockEdges_eq_walk, walk_waveform]
  intro x a
  simp [seeClock]

/-- The commands in a trace's waveform (R92). -/
theorem commandsSeen_waveform (ls : Lines) (t : List Event) :
    commandsSeen (waveform ls t) = observe seeCommand 0 ls t := by
  rw [commandsSeen, commandsFrom_eq_walk, walk_waveform]
  intro x a
  simp [seeCommand]

end Sys2Proof.Machine
end

