-- ==== Sys2Proof/Laws/PerInstr.lean ====
section
/-! SUPPORT. What holds of every instruction as syntax, one lemma per constructor. -/

namespace Sys2Proof.Laws

/-- The first byte of an instruction's word names the instruction's format, to the encoder and to the decoder, and no other
byte stands before it (the port's layout, log 1). -/
def EncodeHead.Statement (i : Instr) : Prop :=
  encode i = i.format.code :: encodeFields i ∧ (encode i).head? = some i.format.code ∧
    Format.ofCode i.format.code = some i.format

theorem EncodeHead.cmdDataLatch : EncodeHead.Statement .cmdDataLatch := ⟨rfl, rfl, rfl⟩
theorem EncodeHead.cmdVsync : EncodeHead.Statement .cmdVsync := ⟨rfl, rfl, rfl⟩
theorem EncodeHead.cmdWriteConfig : EncodeHead.Statement .cmdWriteConfig := ⟨rfl, rfl, rfl⟩
theorem EncodeHead.cmdReset : EncodeHead.Statement .cmdReset := ⟨rfl, rfl, rfl⟩
theorem EncodeHead.cmdPreActive : EncodeHead.Statement .cmdPreActive := ⟨rfl, rfl, rfl⟩
theorem EncodeHead.cmdReserved (n : Nat) : EncodeHead.Statement (.cmdReserved n) := ⟨rfl, rfl, rfl⟩
theorem EncodeHead.init : EncodeHead.Statement .init := ⟨rfl, rfl, rfl⟩
theorem EncodeHead.refresh : EncodeHead.Statement .refresh := ⟨rfl, rfl, rfl⟩
theorem EncodeHead.teardown : EncodeHead.Statement .teardown := ⟨rfl, rfl, rfl⟩
theorem EncodeHead.reqReserved : EncodeHead.Statement .reqReserved := ⟨rfl, rfl, rfl⟩
theorem EncodeHead.cfg (v : BitVec 16) : EncodeHead.Statement (.cfg v) := ⟨rfl, rfl, rfl⟩
theorem EncodeHead.scan (a : BitVec 4) : EncodeHead.Statement (.scan a) := ⟨rfl, rfl, rfl⟩
theorem EncodeHead.sdata (s : BitVec 4) : EncodeHead.Statement (.sdata s) := ⟨rfl, rfl, rfl⟩
theorem EncodeHead.sdataSymbol (s : BitVec 4) (ic : BitVec 5) (plane : BitVec 4) (led : BitVec 4) : EncodeHead.Statement (.sdataSymbol s ic plane led) := ⟨rfl, rfl, rfl⟩
theorem EncodeHead.scanPeriod (s : BitVec 4) : EncodeHead.Statement (.scanPeriod s) := ⟨rfl, rfl, rfl⟩
theorem EncodeHead.w (l : Line) (v : Bool) : EncodeHead.Statement (.w l v) := ⟨rfl, rfl, rfl⟩
theorem EncodeHead.h (k : Hold) : EncodeHead.Statement (.h k) := ⟨rfl, rfl, rfl⟩
theorem EncodeHead.pulse (c : Clock) : EncodeHead.Statement (.pulse c) := ⟨rfl, rfl, rfl⟩
theorem EncodeHead.clr : EncodeHead.Statement .clr := ⟨rfl, rfl, rfl⟩
theorem EncodeHead.clear : EncodeHead.Statement .clear := ⟨rfl, rfl, rfl⟩
theorem EncodeHead.setpx (x y : Nat) (r g b : Channel) : EncodeHead.Statement (.setpx x y r g b) := ⟨rfl, rfl, rfl⟩
theorem EncodeHead.fillrect (x1 y1 x2 y2 : Nat) (r g b : Channel) : EncodeHead.Statement (.fillrect x1 y1 x2 y2 r g b) := ⟨rfl, rfl, rfl⟩
theorem EncodeHead.text (cs : List Char) : EncodeHead.Statement (.text cs) := ⟨rfl, rfl, rfl⟩
theorem EncodeHead.fbread (x y : Nat) : EncodeHead.Statement (.fbread x y) := ⟨rfl, rfl, rfl⟩

end Sys2Proof.Laws
end

