-- ==== Sys2Proof/Laws/Step.lean ====
section
/-! SUPPORT. Once for all claims: what a step can do, and what an operation of the host can do. -/

namespace Sys2Proof.Machine

/-- An event run as an operation of the table is emitted. -/
@[simp] theorem exec_toInstr (e : Event) (s : State) : exec e.toInstr s = .next (s.emit e) := by cases e <;> rfl


/-- A busy step with an event to run (R150). -/
theorem step_busy {s : State} {e : Event} (hr : s.input.rst = false) (hb : s.busy = true) (he : s.nextEvent = some e) :
    step s = .next (if s.fatal e then s.consume.emit e else (s.consume.emit e).advance) := by
  have hc : busyStep s.consume = .next (if s.consume.fatal e then s.consume.emit e else (s.consume.emit e).advance) := by
    simp only [busyStep, State.nextEvent_consume, he, exec_toInstr]
    split <;> rfl
  simp only [step, cycle, hr, hb, Bool.false_eq_true, if_false, if_true]
  exact hc

/-- WHAT A STEP CAN DO when it answers a next state: reset; the event at the position of the running operation; nothing; the
operation on the port (R150). -/
theorem step_cases {s t : State} (h : step s = .next t) :
    (s.input.rst = true ∧ t = s.consume.hardwareReset) ∨
    (s.input.rst = false ∧ s.busy = true ∧ ∃ e, s.nextEvent = some e ∧
      t = if s.fatal e then s.consume.emit e else (s.consume.emit e).advance) ∨
    (s.input.rst = false ∧ s.busy = false ∧ s.input.port = [] ∧ t = s.consume) ∨
    (s.input.rst = false ∧ s.busy = false ∧ ∃ i, decode s.input.port = .ok i ∧ exec i s.consume = .next t) := by
  cases hr : s.input.rst with
  | true =>
    simp only [step, cycle, hr, if_true, Host.Outcome.next.injEq] at h
    exact .inl ⟨rfl, h.symm⟩
  | false =>
    cases hb : s.busy with
    | true =>
      cases he : s.nextEvent with
      | none => simp [step, cycle, hr, hb, busyStep, he] at h
      | some e =>
        rw [step_busy hr hb he, Host.Outcome.next.injEq] at h
        exact .inr (.inl ⟨rfl, rfl, e, rfl, h.symm⟩)
    | false =>
      simp only [step, cycle, hr, hb, idleStep, Bool.false_eq_true, if_false] at h
      cases hp : s.input.port with
      | nil =>
        simp only [hp, List.isEmpty_nil, if_true, Host.Outcome.next.injEq] at h
        exact .inr (.inr (.inl ⟨rfl, rfl, rfl, h.symm⟩))
      | cons b bs =>
        simp only [hp, List.isEmpty_cons, Bool.false_eq_true, if_false] at h
        cases hd : decode (b :: bs) with
        | error e => simp [hd] at h
        | ok i =>
          simp only [hd] at h
          exact .inr (.inr (.inr ⟨rfl, rfl, i, rfl, h⟩))

/-- WHAT AN OPERATION OF THE HOST CAN DO while the block is idle: nothing; start the operation its lifecycle admits (R35); write
the frame buffer, keeping its canonical form (R160); answer a read (R52). -/
theorem exec_host_cases {i : Instr} {s t : State} (hi : isHostOperation i = true) (hb : s.busy = false)
    (h : exec i s = .next t) :
    t = s ∨
    (s.lifecycle = .uninitialized ∧ t = s.start .init) ∨
    (s.lifecycle = .configured ∧ t = s.start .refresh) ∨
    (s.lifecycle ≠ .teardown ∧ t = s.start .teardown) ∨
    (∃ fb, t = { s with fb := fb } ∧ (s.fb.wf = true → fb.wf = true)) ∨
    (∃ p, t = { s with readOut := some p }) := by
  have hw : ∀ fb, s.hostWrite fb = { s with fb := fb } := fun fb => by simp [State.hostWrite, hb]
  cases i <;> simp only [isHostOperation, Instr.format, reduceCtorEq, decide_false, Bool.or_self,
    Bool.false_eq_true] at hi <;> simp only [exec] at h
  case init =>
    simp only [execInit, State.request, hb, Bool.false_eq_true, if_false, decide_eq_true_eq, Host.Outcome.next.injEq] at h
    split at h
    · rename_i hl; exact .inr (.inl ⟨hl, h.symm⟩)
    · exact .inl h.symm
  case refresh =>
    simp only [execRefresh, State.request, hb, Bool.false_eq_true, if_false, decide_eq_true_eq,
      Host.Outcome.next.injEq] at h
    split at h
    · rename_i hl; exact .inr (.inr (.inl ⟨hl, h.symm⟩))
    · exact .inl h.symm
  case teardown =>
    simp only [execTeardown, State.request, hb, Bool.false_eq_true, if_false, decide_eq_true_eq,
      Host.Outcome.next.injEq] at h
    split at h
    · rename_i hl; exact .inr (.inr (.inr (.inl ⟨hl, h.symm⟩)))
    · exact .inl h.symm
  case reqReserved =>
    simp only [execReqReserved, Host.Outcome.next.injEq] at h
    exact .inl h.symm
  case clear =>
    simp only [execClear, hw, Host.Outcome.next.injEq] at h
    exact .inr (.inr (.inr (.inr (.inl ⟨_, h.symm, fun _ => Memory.wf_clear _⟩))))
  case setpx x y r g b =>
    simp only [execSetpx, hw, Host.Outcome.next.injEq] at h
    exact .inr (.inr (.inr (.inr (.inl ⟨_, h.symm, fun hf => Memory.wf_fbWrite hf _ _ _⟩))))
  case fillrect x1 y1 x2 y2 r g b =>
    simp only [execFillrect, hw, Host.Outcome.next.injEq] at h
    exact .inr (.inr (.inr (.inr (.inl ⟨_, h.symm, fun hf => Memory.wf_fillRect hf _ _ _ _ _⟩))))
  case text cs =>
    rw [execText, if_neg (by simp [hb])] at h
    simp only [hw] at h
    split at h
    · simp only [Host.Outcome.next.injEq] at h
      exact .inr (.inr (.inr (.inr (.inl ⟨_, h.symm, fun _ => Memory.wf_clear _⟩))))
    · split at h
      · simp only [Host.Outcome.next.injEq] at h
        exact .inr (.inr (.inr (.inr (.inl ⟨_, h.symm, fun _ => Memory.wf_drawChars _ _ (Memory.wf_clear _) _⟩))))
      · cases h
  case fbread x y =>
    simp only [execFbread, Host.Outcome.next.injEq] at h
    exact .inr (.inr (.inr (.inr (.inr ⟨_, h.symm⟩))))

end Sys2Proof.Machine
end

