-- ==== Sys2Proof/Tests/Slice0.lean ====
section
/-! SUPPORT. The model's own tests: ill-formed terms, words written out from the spec's codes, one step or one procedure per
operation with the value the spec gives (V<n>, P<n> are of spec/95_test_vectors.md), and for each obligation with hypotheses
a state that meets them. -/

open Sys2Proof Sys2Proof.Machine

namespace Sys2Proof.Tests

/-! ## Ill-formed terms -/

theorem test_wf_reserved_count_names_no_command : (Instr.cmdReserved 4).wellFormed = false := by decide
theorem test_wf_reserved_count_fits_the_port : (Instr.cmdReserved 256).wellFormed = false := by decide
theorem test_wf_scan : (Instr.scan 11).wellFormed = false := by decide
theorem test_wf_sdata : (Instr.sdata 15).wellFormed = false := by decide
theorem test_wf_symbol_scanline : (Instr.sdataSymbol 11 0 0 0).wellFormed = false := by decide
theorem test_wf_symbol_ic : (Instr.sdataSymbol 0 22 0 0).wellFormed = false := by decide
theorem test_wf_scanPeriod : (Instr.scanPeriod 12).wellFormed = false := by decide
theorem test_wf_setpx : (Instr.setpx 0 65536 1 1 1).wellFormed = false := by decide
theorem test_wf_fillrect : (Instr.fillrect 0 0 65536 0 1 1 1).wellFormed = false := by decide
theorem test_wf_fbread : (Instr.fbread 65536 0).wellFormed = false := by decide

/-! ## Decoding: codes of R21, R72, R77, R86; the layout around them is log 1 -/

theorem test_decode_requests :
    decode [0, 0b00] = .ok .init ∧ decode [0, 0b01] = .ok .refresh ∧ decode [0, 0b10] = .ok .teardown ∧
    decode [0, 0b11] = .ok .reqReserved := by decide
theorem test_decode_commands :
    decode [1, 0b0001] = .ok .cmdDataLatch ∧ decode [1, 0b0010] = .ok .cmdVsync ∧
    decode [1, 0b0100] = .ok .cmdWriteConfig ∧ decode [1, 0b1010] = .ok .cmdReset ∧
    decode [1, 0b1110] = .ok .cmdPreActive := by decide
theorem test_decode_reserved_counts :
    decode [1, 0] = .ok (.cmdReserved 0) ∧ decode [1, 15] = .ok (.cmdReserved 15) ∧
    decode [1, 16] = .ok (.cmdReserved 16) := by decide
theorem test_decode_cfg : decode [2, 0xC3, 0xA5] = .ok (.cfg 0xA5C3) := by decide
theorem test_decode_scan : decode [3, 0b0111] = .ok (.scan 7) := by decide
theorem test_decode_sdata : decode [4, 5] = .ok (.sdata 5) := by decide
theorem test_decode_symbol : decode [5, 10, 21, 0, 15] = .ok (.sdataSymbol 10 21 0 15) := by decide
theorem test_decode_scanPeriod : decode [6, 10] = .ok (.scanPeriod 10) := by decide
theorem test_decode_line_write :
    decode [7, 0, 0, 1] = .ok (.w .gclk true) ∧ decode [7, 0, 12, 0] = .ok (.w .b2 false) := by decide
theorem test_decode_hold : decode [7, 1, 0] = .ok (.h .pw) ∧ decode [7, 1, 1] = .ok (.h .dead) := by decide
theorem test_decode_pulse : decode [7, 2, 0] = .ok (.pulse .gclk) ∧ decode [7, 2, 1] = .ok (.pulse .dclk) := by decide
theorem test_decode_clr : decode [7, 3] = .ok .clr := by decide
theorem test_decode_clear : decode [8, 0] = .ok .clear := by decide
theorem test_decode_setpx :
    decode [8, 1, 4, 0, 40, 0, 0x00, 0x80, 0x01, 0x00, 0xFF, 0xFF] = .ok (.setpx 4 40 0x8000 0x0001 0xFFFF) := by decide
theorem test_decode_fillrect :
    decode [8, 2, 86, 0, 86, 0, 200, 0, 200, 0, 1, 0, 2, 0, 3, 0] = .ok (.fillrect 86 86 200 200 1 2 3) := by decide
theorem test_decode_text : decode [8, 3, 0x48, 0, 0, 0x49, 0, 0] = .ok (.text ['H', 'I']) := by decide
theorem test_decode_fbread : decode [8, 4, 0x2C, 0x01, 0x58, 0x00] = .ok (.fbread 300 88) := by decide
theorem test_decode_refusals :
    decode [] = .error .noWord ∧ decode [9] = .error (.unknownFormat 9) ∧ decode [0, 4] = .error (.fieldTooWide .req 4) ∧
    decode [7, 0, 13, 0] = .error (.unknownLine 13) ∧ decode [3, 16] = .error (.fieldTooWide .addr 16) ∧
    decode [2, 1] = .error (.badLength .cfgFrame) := by decide
theorem test_table_words :
    decodeTableWord 2 2 = some .teardown ∧ decodeTableWord 4 14 = some .cmdPreActive ∧
    decodeTableWord 8 10 = some .cmdReset ∧ decodeTableWord 8 3 = some .reqReserved ∧
    decodeTableWord 16 0x8001 = some (.cfg 0x8001) := by decide

/-! ## States for the tests -/

/-- The test font of V16. -/
def font : List (Char × List (List Bool)) :=
  [('H', [[true, false, false, false, true], [true, false, false, false, true], [true, false, false, false, true],
      [true, true, true, true, true], [true, false, false, false, true], [true, false, false, false, true],
      [true, false, false, false, true]]),
   ('I', [[true, true, true, true, true], [false, false, true, false, false], [false, false, true, false, false],
      [false, false, true, false, false], [false, false, true, false, false], [false, false, true, false, false],
      [true, true, true, true, true]])]

/-- Parameters: those of P1 and V16, lines that can fail. -/
def params : Params := ⟨0xA5C3, 1, 1, .r1, Config.defaultColmap, true, 5, 7, font, 13⟩

/-- An idle machine after reset, with the frame buffer of V9. -/
def idle : State := { State.reset with params := params, fb := ⟨.cleared, [(40 * 88 + 4, ⟨0x8000, 0x0001, 0xFFFF⟩)]⟩ }

/-- The same after a good INIT. -/
def ready : State := { idle with lifecycle := .configured, idx := 204 }

/-- INIT running at a position. -/
def running (l : Lifecycle) (idx : BitVec 20) (ls : Lines) : State :=
  { idle with busy := true, op := .init, idx := idx, lifecycle := l, lines := ls }

/-- What an outcome's state answers to a question. -/
def ask {α : Type} (q : State → α) : Result → Option α
  | .next s => some (q s)
  | .fault _ => none
  | .refused _ => none

/-! ## Commands and configuration: V2, V6 -/

theorem test_cmdDataLatch : ask State.emitted (exec .cmdDataLatch idle) = some
    [.w .le false, .h .pw, .w .dclk false, .h .pw, .w .dclk true, .w .le true] := by decide
theorem test_cmdVsync : ask State.emitted (exec .cmdVsync idle) = some
    [.w .le false, .h .pw, .w .dclk false, .h .pw, .w .dclk true, .h .pw, .w .dclk false, .h .pw, .w .dclk true,
      .w .le true] := by decide
theorem test_cmdWriteConfig :
    ask (fun s => (s.emitted.length, commandsSeen (waveform Lines.low s.emitted.reverse))) (exec .cmdWriteConfig idle)
      = some (18, [4]) := by decide
theorem test_cmdReset :
    ask (fun s => (s.emitted.length, commandsSeen (waveform Lines.low s.emitted.reverse))) (exec .cmdReset idle)
      = some (42, [10]) := by decide
theorem test_cmdPreActive :
    ask (fun s => (s.emitted.length, commandsSeen (waveform Lines.low s.emitted.reverse))) (exec .cmdPreActive idle)
      = some (58, [14]) := by decide
theorem test_cmdReserved : exec (.cmdReserved 16) idle = .refused (.reservedCommandCount 16) := rfl
theorem test_cfg_writes : ask (fun s => (s.emitted.reverse.filterMap fun
      | .w .r1 v => some v
      | _ => none)) (exec (.cfg 0x8001) idle) =
    some [true, false, false, false, false, false, false, false, false, false, false, false, false, false, false, true] := by
  decide
theorem test_cfg_counts :
    ask (fun s => (s.emitted.length, writeCount s.emitted, holdCount .pw s.emitted)) (exec (.cfg 0x8001) idle)
      = some (104, 62, 42) := by decide

/-! ## Scanlines: V8, V9, V12 -/

theorem test_scan : ask (fun s => (s.emitted, s.lines.address)) (exec (.scan 10) idle) =
    some ([.w .a3 true, .w .a2 false, .w .a1 true, .w .a0 false], 10) := by decide
theorem test_scan_refused : exec (.scan 11) idle = .refused (.reservedScanAddress 11) := rfl
theorem test_sdata_event : (sdataEventAt params idle.fb 5 40, sdataEventAt params idle.fb 5 41,
      sdataEventAt params idle.fb 5 56316, sdataEventAt params idle.fb 5 56322) =
    (some (.w .r1 true), some (.w .g1 false), some (.w .le true), none) := by decide
theorem test_sdata_refused : exec (.sdata 11) idle = .refused (.reservedScanline 11) := rfl
theorem test_symbol : ask State.emitted (exec (.sdataSymbol 5 0 0 4) idle) = some
    [.h .pw, .w .dclk false, .h .pw, .w .dclk true, .w .b2 false, .w .g2 false, .w .r2 false, .w .b1 true, .w .g1 true,
      .w .r1 false] := by decide
theorem test_symbol_last : ask State.emitted (exec (.sdataSymbol 5 21 0 15) idle) = some
    [.w .le false, .h .pw, .w .dclk false, .h .pw, .w .dclk true, .w .le true, .w .b2 false, .w .g2 false, .w .r2 false,
      .w .b1 false, .w .g1 false, .w .r1 false] := by decide
theorem test_scanPeriod_refused : exec (.scanPeriod 11) idle = .refused (.reservedScanline 11) := rfl
/-- The events after the 256 pulses of SCANPERIOD 3 and of SCANPERIOD 10 (V12). -/
theorem test_scanPeriod_tail :
    scanPeriodTrace 3 = scanTrace 3 ++ pulseTraces .gclk 256 ++
      [.h .dead, .w .gclk true, .h .pw, .w .gclk false, .h .pw, .h .dead] ∧
    scanPeriodTrace 10 = scanTrace 10 ++ pulseTraces .gclk 256 ++
      ([.w .le true, .w .dclk true, .h .pw, .w .dclk false, .h .pw, .w .dclk true, .h .pw, .w .dclk false, .h .pw,
        .w .le false] ++ [.h .dead, .w .gclk true, .h .pw, .w .gclk false, .h .pw, .h .dead]) := by
  constructor <;> simp only [scanPeriodTrace, List.append_assoc] <;> rfl

/-! ## Events: V1, R100, V17 -/

theorem test_w : ask (fun s => s.lines.vector) (exec (.w .le true) idle) = some 0b0000000000100#13 := by decide
/-- A failed write in INIT: the row "index 1" of V17. -/
theorem test_w_fails_in_init :
    ask (fun s => (s.status, s.idx, s.lines.le, s.lines.dclk))
      (step { running .uninitialized 1 { Lines.low with le := true } with wrFail := [true] })
      = some (0x15, 1, true, true) := by decide
/-- The codes of R186: a write that succeeds, one that fails in INIT, one that fails in REFRESH, a hold. -/
theorem test_failure_codes :
    ready.failureCode (.w .le true) = 0 ∧
    ({ running .uninitialized 1 Lines.low with wrFail := [true] } : State).failureCode (.w .le true) = 1 ∧
    ({ ready with busy := true, op := .refresh, wrFail := [true] } : State).failureCode (.w .le true) = 2 ∧
    ({ ready with wrFail := [true] } : State).failureCode (.h .pw) = 0 := by decide
theorem test_h : ask (fun s => (s.lines, s.emitted)) (exec (.h .dead) idle) = some (Lines.low, [.h .dead]) := by decide
theorem test_pulse : ask (fun s => (s.lines, pulseCount .gclk (waveform Lines.low s.emitted.reverse)))
    (exec (.pulse .gclk) idle) = some (Lines.low, 1) := by decide
/-- A pulse that starts from 1 has no rising edge (V1). -/
theorem test_pulse_from_high : pulseCount .dclk (waveform { Lines.low with dclk := true } (pulseTrace .dclk)) = 0 := by
  decide
/-- R92 (3), (1), (4): one edge with LE high is a shift and a DataLatch, two are a Vsync and no shift; an address at GCLK. -/
theorem test_received :
    received (waveform { Lines.low with g1 := true } (cmdTrace .dataLatch)) =
      [.shift [false, true, false, false, false, false], .command 1] ∧
    received (waveform Lines.low (cmdTrace .vsync)) = [.command 2] ∧
    received (waveform Lines.low (.w .r2 true :: pulseTrace .dclk)) = [.shift [false, false, false, true, false, false]] ∧
    received (waveform Lines.low (scanTrace 9 ++ pulseTrace .gclk)) = [.row 9] := by decide
/-- An interval with LE still high at the end of the waveform is no command (log 22): INIT cut at its second write (V17). -/
theorem test_open_interval_is_no_command :
    commandsSeen (waveform Lines.low [.w .le true, .w .dclk true]) = [] := by decide
theorem test_clr : ask (fun s => s.fb.fbRead 4 40) (exec .clr idle) = some Pixel.zero := by decide

/-! ## Requests: V14, V18, P4 -/

theorem test_init_accepted : ask (fun s => (s.status, s.op, s.idx)) (exec .init ready) = some (0x03, .init, 204) ∧
    ask (fun s => (s.status, s.op, s.idx)) (exec .init idle) = some (0x08, .init, 0) := by decide
theorem test_init_lifecycle_at_41 :
    ask State.status (step (running .uninitialized 41 { Lines.low with le := true })) = some 0x09 := by decide
theorem test_refresh_noop : exec .refresh idle = .next idle := rfl
theorem test_refresh_accepted : ask (fun s => (s.status, s.op, s.idx)) (exec .refresh ready) = some (0x0B, .refresh, 0) := by
  decide
theorem test_teardown_accepted :
    ask (fun s => (s.status, s.op)) (exec .teardown { idle with lifecycle := .initFailed, errInit := true })
      = some (0x1D, .teardown) := by decide
/-- The last event of TEARDOWN (V17, the row "A0 fails"). -/
theorem test_teardown_end :
    ask State.status (step { ready with busy := true, op := .teardown, idx := 13, errSteady := true }) = some 0x24 := by
  decide
theorem test_reqReserved : exec .reqReserved idle = .next idle := rfl

/-! ## The frame buffer and the text: V15, V16 -/

theorem test_clear : ask (fun s => s.fb.fbRead 4 40) (exec .clear idle) = some Pixel.zero := by decide
theorem test_setpx : ask (fun s => (s.fb.fbRead 87 87, s.fb.fbRead 4 40)) (exec (.setpx 87 87 0xFFFF 0 0x8000) idle) =
    some (⟨0xFFFF, 0, 0x8000⟩, ⟨0x8000, 0x0001, 0xFFFF⟩) := by decide
theorem test_setpx_outside : exec (.setpx 88 0 1 1 1) idle = .next idle := rfl
theorem test_fillrect : ask (fun s => s.fb.cells) (exec (.fillrect 86 86 200 200 1 2 3) { idle with fb := ⟨.cleared, []⟩ }) =
    some [(86 * 88 + 86, ⟨1, 2, 3⟩), (86 * 88 + 87, ⟨1, 2, 3⟩), (87 * 88 + 86, ⟨1, 2, 3⟩), (87 * 88 + 87, ⟨1, 2, 3⟩)] := by
  decide
theorem test_fillrect_reversed : exec (.fillrect 5 5 4 9 1 1 1) idle = .next idle := rfl
theorem test_text : ask (fun s => s.fb.cells.length) (exec (.text ['H', 'I']) idle) = some 32 := by decide
theorem test_text_miss : ask (fun s => (s.fb.fbRead 16 40, s.fb.fbRead 10 40)) (exec (.text ['H', '?', 'I']) idle) =
    some (Pixel.white, Pixel.zero) := by decide
theorem test_fbread : ask State.readOut (exec (.fbread 4 40) idle) = some (some ⟨0x8000, 0x0001, 0xFFFF⟩) ∧
    ask State.readOut (exec (.fbread 200 200) idle) = some (some Pixel.zero) := by decide
/-- `NMAX` for the widths V16 lists. -/
theorem test_maxChars : [1, 3, 5, 8, 42, 43].map (fun w => maxChars { params with glyphWidth := w }) =
    [42, 20, 13, 8, 1, 0] := by decide

/-- A word placed for the next step runs from reset. -/
theorem test_withFetchWord : ask State.status (step (State.reset.withFetchWord 2 0)) = some 0x08 := by decide

/-! ## A state that meets the hypotheses of each obligation -/

theorem witness_DecodeOfEncodeIsTheInstruction :
    (Instr.sdataSymbol 10 21 0 15).wellFormed = true ∧ (Instr.cmdReserved 255).wellFormed = true ∧
    (Instr.fillrect 0 0 65535 65535 1 2 3).wellFormed = true ∧ (Instr.text ['é', 'H']).wellFormed = true := by decide
theorem witness_EncodeOfDecodedIsTheWord : decode [5, 10, 21, 0, 15] = .ok (.sdataSymbol 10 21 0 15) := by decide

/-- `idle` with the operation of a word on the port. -/
def given (word : List Byte) (s : State) : State := { s with inputs := [⟨false, word⟩] }

theorem witness_IdleStepRunsThePortInstruction :
    (given [0, 0] idle).input.rst = false ∧ (given [0, 0] idle).busy = false ∧
    decode (given [0, 0] idle).input.port = .ok .init := by decide

/-- INIT just started. -/
def started : State := running .uninitialized 0 Lines.low

theorem witness_BusyStepRunsTheNextEvent :
    started.input.rst = false ∧ started.busy = true ∧ started.nextEvent = some (.w .le true) := by decide
theorem witness_AdvanceMovesThePosition :
    started.idx.toNat < started.op.traceLength ∧
    (running .preActive 203 Lines.low).idx.toNat < (running .preActive 203 Lines.low).op.traceLength := by decide
theorem witness_IdleStepWithoutRequestChangesNothing : idle.input = ⟨false, []⟩ ∧ idle.busy = false := by decide
theorem witness_ResetGivesTheResetValues : ({ started with inputs := [⟨true, [0, 1]⟩] } : State).input.rst = true := by
  decide
theorem witness_BusyStepIgnoresThePort : started.busy = true := rfl
theorem witness_LineWriteSetsThatLineOnly : idle.answerFails = false := by decide

/-- `idle` whose next write fails. -/
def failing : State := { idle with wrFail := [true] }

theorem witness_FailedWriteOutsideInitIsLogged : failing.answerFails = true ∧ failing.inInit = false := by decide
theorem witness_FailedWriteInInitEndsIt :
    ({ started with wrFail := [true] } : State).input.rst = false ∧ ({ started with wrFail := [true] } : State).busy = true ∧
    ({ started with wrFail := [true] } : State).op = .init ∧
    ({ started with wrFail := [true] } : State).nextEvent = some (.w .le true) ∧
    ({ started with wrFail := [true] } : State).answerFails = true := by decide
theorem witness_PulseRaisesAndLowersItsClock :
    idle.uncut [.w (clockLine .gclk) true, .h .pw, .w (clockLine .gclk) false, .h .pw] = true := by decide
theorem witness_InitAbortIsPrecise :
    procedureTrace params idle.fb .cmdDataLatch =
      some ([.w .le true, .w .dclk true, .h .pw] ++ .w .dclk false :: [.h .pw, .w .le false]) ∧
    started.inInit = true ∧
    ({ started with wrFail := [false, false, true] } : State).someFails (writeCount [.w .le true, .w .dclk true, .h .pw])
      = false ∧
    ({ started with wrFail := [false, false, true] } : State).someFails
      (writeCount [.w .le true, .w .dclk true, .h .pw] + 1) = true := by decide
theorem witness_CommandsSendTheirPulseCount :
    (Instr.cmdVsync, 2) ∈
      [(Instr.cmdDataLatch, 1), (.cmdVsync, 2), (.cmdWriteConfig, 4), (.cmdReset, 10), (.cmdPreActive, 14)] ∧
    failing.uncut (.w .le true :: ((List.replicate 2 [.w .dclk true, .h .pw, .w .dclk false, .h .pw]).flatten
      ++ [.w .le false])) = true := by decide
theorem witness_ReservedCountsAreRefused :
    isReservedCount (0 : Byte).toNat = true ∧ isReservedCount (3 : Byte).toNat = true ∧
    isReservedCount (255 : Byte).toNat = true := by decide
theorem witness_ConfigShiftsTheWordMostSignificantBitFirst :
    idle.uncut (cmdTrace .writeConfig ++
      [15, 14, 13, 12, 11, 10, 9, 8, 7, 6, 5, 4, 3, 2, 1, 0].flatMap
        (fun i => .w (dataLine idle.params.cfgLine) ((0x8001 : BitVec 16).getLsbD i) :: pulseTrace .dclk)
      ++ cmdTrace .dataLatch) = true := by decide
theorem witness_CommandAndConfigWaveforms : Lines.low.le = false ∧ Lines.low.dclk = false := by decide
theorem witness_ScanDrivesTheAddress :
    (10 : BitVec 4).toNat ≤ 10 ∧ idle.uncut [.w .a0 false, .w .a1 true, .w .a2 false, .w .a3 true] = true := by decide
theorem witness_ScanlinesAboveTenAreRefused :
    10 < (11 : BitVec 4).toNat ∧ 10 < (15 : BitVec 4).toNat ∧ (10 : BitVec 4).toNat ≤ 10 ∧ 21 < (22 : BitVec 5).toNat := by
  decide
theorem witness_SymbolDrivesTheBitsOfItsPlane :
    (10 : BitVec 4).toNat ≤ 10 ∧ (21 : BitVec 5).toNat ≤ 21 ∧
    idle.uncut (symbolTrace params idle.fb 10 21 0 15) = true ∧
    idle.uncut (symbolTrace params idle.fb 10 21 0 14) = true := by decide
theorem witness_ScanlineDataSendsAllSymbols :
    (10 : BitVec 4).toNat ≤ 10 ∧ idle.uncut (sdataTrace idle.params idle.fb 10) = true := ⟨by decide, rfl⟩
theorem witness_ScanlineDataWaveform :
    ({ Lines.low with gclk := true, r1 := true } : Lines).le = false ∧
    ({ Lines.low with gclk := true, r1 := true } : Lines).dclk = false := by decide
/-- The clauses of scanline 5 and of scanline 6 are of different scanlines. -/
theorem witness_ChainTwoReadsZerosFromScanlineSix : (5 : Nat) < 6 ∧ 6 ≤ 6 ∧ ¬(6 : Nat) < 6 := by decide
theorem witness_ScanPeriodAddressesAndClocksARow :
    (10 : BitVec 4).toNat ≤ 10 ∧ idle.uncut (scanPeriodTrace 10) = true ∧
    (9 : BitVec 4).toNat ≤ 10 ∧ idle.uncut (scanPeriodTrace 9) = true := ⟨by decide, rfl, by decide, rfl⟩
theorem witness_AdmittedRequestsStartTheirOperation :
    idle.busy = false ∧ idle.lifecycle = .uninitialized ∧ ready.busy = false ∧ ready.lifecycle = .configured ∧
    ready.lifecycle ≠ .teardown := by decide
theorem witness_OtherRequestsHaveNoEffect :
    ready.busy = false ∧ ready.lifecycle ≠ .uninitialized ∧ idle.busy = false ∧ idle.lifecycle ≠ .configured ∧
    ({ idle with lifecycle := .teardown } : State).busy = false ∧
    ({ idle with lifecycle := .teardown } : State).lifecycle = .teardown := by decide
theorem witness_NothingIsAcceptedWhileBusy :
    isHostOperation (.setpx 0 0 1 1 1) = true ∧ (∀ x y, Instr.setpx 0 0 1 1 1 ≠ .fbread x y) ∧ started.busy = true :=
  ⟨by decide, fun _ _ => by simp, rfl⟩

/-- REFRESH running at a position. -/
def refreshing (idx : BitVec 20) : State := { ready with busy := true, op := .refresh, idx := idx }

theorem witness_CountersNameTheSymbolInProgress :
    (refreshing 0).busy = true ∧ (refreshing 0).op = .refresh ∧ (refreshing 0).idx.toNat < 619542 ∧
    (refreshing 619541).idx.toNat < 619542 ∧ 619542 ≤ (refreshing 619542).idx.toNat ∧
    619542 ≤ (refreshing 630925).idx.toNat ∧ (refreshing 630925).idx.toNat < 630926 := by decide
theorem witness_RefreshWaveform :
    Lines.low.gclk = false ∧ Lines.low.dclk = false ∧ Lines.low.le = false := by decide
theorem witness_OperationsSendOnlyNamedCommands : ({ Lines.low with r1 := true } : Lines).idle = true := by decide
/-- Two buffers that differ at (0, 1), a pixel of a row that is not transmitted. -/
theorem witness_UntransmittedRowsNeverReachTheLines :
    (⟨.cleared, [(88, Pixel.white)]⟩ : Memory).fbRead 0 1 ≠ (⟨.cleared, []⟩ : Memory).fbRead 0 1 ∧
    ∀ x y, transmittedRow y = true →
      (⟨.cleared, [(88, Pixel.white)]⟩ : Memory).fbRead x y = (⟨.cleared, []⟩ : Memory).fbRead x y := by
  refine ⟨by decide, fun x y h => ?_⟩
  have hy : y ≠ 1 := by rintro rfl; exact absurd h (by decide)
  by_cases hg : inGrid x y = true
  · have hx : x < 88 := by simp only [inGrid, Bool.and_eq_true, decide_eq_true_eq] at hg; exact hg.1
    have hk : ¬(88 = pixelKey x y) := by simp only [pixelKey]; omega
    simp [Memory.fbRead, hg, Memory.get, cellsFind, hk, Memory.unlisted]
  · simp [Memory.fbRead, hg]
theorem witness_InitRunsToConfigured :
    (given (encode .init) idle).busy = false ∧ (given (encode .init) idle).lifecycle = .uninitialized ∧
    (given (encode .init) idle).inputs = ⟨false, encode .init⟩ :: [] ∧
    (∀ x ∈ ([] : List StepInput).take 204, x.rst = false) ∧ (given (encode .init) idle).someFails 114 = false := by decide
theorem witness_RefreshRunsToItsEnd :
    (given (encode .refresh) ready).busy = false ∧ (given (encode .refresh) ready).lifecycle = .configured ∧
    (given (encode .refresh) ready).inputs = ⟨false, encode .refresh⟩ :: [] ∧
    (∀ x ∈ ([] : List StepInput).take 630926, x.rst = false) := ⟨rfl, rfl, rfl, by simp⟩
theorem witness_TeardownRunsToItsEnd :
    (given (encode .teardown) ready).busy = false ∧ (given (encode .teardown) ready).lifecycle ≠ .teardown ∧
    (given (encode .teardown) ready).inputs = ⟨false, encode .teardown⟩ :: [] ∧
    (∀ x ∈ ([] : List StepInput).take 14, x.rst = false) := by decide
theorem witness_ClearZeroesEveryPixel : idle.busy = false := rfl
theorem witness_SetPixelReadsBack :
    idle.busy = false ∧ idle.fb.wf = true ∧ ((87 : Nat) < 88 ∧ (87 : Nat) < 88) ∧ ¬((88 : Nat) < 88 ∧ (0 : Nat) < 88) := by
  decide
theorem witness_FillRectFillsTheClampedRectangle : idle.busy = false ∧ idle.fb.wf = true := by decide
theorem witness_TextDrawsItsGlyphs :
    idle.busy = false ∧ fontLegal idle.params = true ∧ TextSets idle.params ['H'] 4 40 ∧
    ¬TextSets idle.params [] 4 40 := by
  refine ⟨rfl, by decide, ⟨0, 'H', (font[0]).2, 0, 0, rfl, by decide, rfl, by decide, by decide, rfl, rfl, rfl⟩, ?_⟩
  rintro ⟨k, ch, g, cx, cy, h, _⟩
  simp at h
/-- The other case of the font: an empty text with a font that U7 rules out. -/
theorem witness_TextDrawsItsGlyphs_empty_text :
    ({ idle with params := { params with glyphHeight := 89 } } : State).busy = false ∧
    fontLegal { params with glyphHeight := 89 } = false ∧ ([] : List Char) = [] := by decide
theorem witness_TextIsCutAtTheSameCharacter : idle.busy = false ∧ fontLegal idle.params = true := by decide
theorem witness_TextWithAFontOutsideTheGridIsRefused :
    ({ idle with params := { params with glyphHeight := 89 } } : State).busy = false ∧
    fontLegal { params with glyphHeight := 89 } = false ∧ ['H'] ≠ [] := by decide

/-- The invariant, clause by clause, as a check. -/
def invCheck (s : State) : Bool :=
  s.fb.wf && s.inputs.all StepInput.fromHost && decide (s.busy = true → s.idx.toNat < s.op.traceLength) &&
  s.lifecycleFits && decide (s.params.gpioFallible = false → s.errInit = false ∧ s.errSteady = false) &&
  decide (s.lifecycle = .initFailed → s.errInit = true) &&
  decide (s.errInit = true → s.lifecycle = .initFailed ∨ s.lifecycle = .teardown) &&
  decide (s.busy = false → s.lifecycle ≠ .initFailed → s.lines.idle = true) &&
  decide (s.busy = true → (s.lines.after s.remaining).idle = true) &&
  decide (s.lifecycle = .teardown → s.lines = Lines.low) &&
  decide (s.busy = true → s.op = .teardown → s.lines.after s.remaining = Lines.low)

theorem inv_of_check {s : State} (h : invCheck s = true) : s.Inv := by
  simp only [invCheck, Bool.and_eq_true, decide_eq_true_eq, List.all_eq_true] at h
  obtain ⟨⟨⟨⟨⟨⟨⟨⟨⟨⟨h1, h2⟩, h3⟩, h4⟩, h5⟩, h6⟩, h7⟩, h8⟩, h9⟩, h10⟩, h11⟩ := h
  exact ⟨h1, h2, h3, h4, h5, h6, h7, h8, h9, h10, h11⟩

/-- INIT at the last event of CMD(Reset), of CMD(PreActive), of CFG; TEARDOWN at its last event. -/
def atReset : State := running .uninitialized 41 { Lines.low with le := true }
def atPreActive : State := running .reset 99 { Lines.low with le := true }
def atConfigured : State := running .preActive 203 { Lines.low with le := true }
def atTeardown : State := { ready with busy := true, op := .teardown, idx := 13 }

theorem witness_EveryStepKeepsTheInvariant_idle : ready.Inv ∧ ∃ t, step (given [0, 1] ready) = .next t :=
  ⟨inv_of_check (by decide), _, rfl⟩
theorem witness_EveryStepKeepsTheInvariant : atReset.Inv ∧ ∃ t, step atReset = .next t := ⟨inv_of_check (by decide), _, rfl⟩
theorem witness_BusyBlockAlwaysMakesProgress : atReset.Inv ∧ atReset.busy = true ∧ atReset.input.rst = false :=
  ⟨inv_of_check (by decide), rfl, rfl⟩
theorem witness_EveryStepKeepsTheFrameBufferCanonical :
    (given [8, 0] idle).fb.wf = true ∧ ∃ t, step (given [8, 0] idle) = .next t := ⟨by decide, _, rfl⟩
theorem witness_NoStepChangesAParameter : ∃ t, step atReset = .next t := ⟨_, rfl⟩
theorem witness_LifecycleChangesOnlyAsListed_hardwareReset :
    ({ ready with inputs := [⟨true, []⟩] } : State).Inv ∧
    ∃ t, step { ready with inputs := [⟨true, []⟩] } = .next t ∧ t.lifecycle ≠ ready.lifecycle :=
  ⟨inv_of_check (by decide), _, rfl, by decide⟩
theorem witness_LifecycleChangesOnlyAsListed_reset :
    atReset.Inv ∧ ∃ t, step atReset = .next t ∧ t.lifecycle ≠ atReset.lifecycle :=
  ⟨inv_of_check (by decide), _, rfl, by decide⟩
theorem witness_LifecycleChangesOnlyAsListed_preActive :
    atPreActive.Inv ∧ ∃ t, step atPreActive = .next t ∧ t.lifecycle ≠ atPreActive.lifecycle :=
  ⟨inv_of_check (by decide), _, rfl, by decide⟩
theorem witness_LifecycleChangesOnlyAsListed_configured :
    atConfigured.Inv ∧ ∃ t, step atConfigured = .next t ∧ t.lifecycle ≠ atConfigured.lifecycle :=
  ⟨inv_of_check (by decide), _, rfl, by decide⟩
theorem witness_LifecycleChangesOnlyAsListed_initFailed :
    ({ atReset with wrFail := [true] } : State).Inv ∧
    ∃ t, step { atReset with wrFail := [true] } = .next t ∧ t.lifecycle ≠ atReset.lifecycle :=
  ⟨inv_of_check (by decide), _, rfl, by decide⟩
theorem witness_LifecycleChangesOnlyAsListed_teardown :
    atTeardown.Inv ∧ ∃ t, step atTeardown = .next t ∧ t.lifecycle ≠ atTeardown.lifecycle :=
  ⟨inv_of_check (by decide), _, rfl, by decide⟩
theorem witness_ErrorFlagsAreSticky :
    ({ atTeardown with errInit := true, errSteady := true } : State).input.rst = false ∧
    ∃ t, step { atTeardown with errInit := true, errSteady := true } = .next t := ⟨rfl, _, rfl⟩
theorem witness_FrameBufferIsFixedWhileBusy :
    ({ atTeardown with idx := 0 } : State).busy = true ∧ ({ atTeardown with idx := 0 } : State).input.rst = false ∧
    (∃ t, step { atTeardown with idx := 0 } = .next t ∧ t.fb ≠ atTeardown.fb) ∧
    ∃ t, step atReset = .next t ∧ t.fb = atReset.fb := ⟨rfl, rfl, ⟨_, rfl, by decide⟩, _, rfl, by decide⟩
theorem witness_LinesChangeOnlyByTheTrace :
    (given [8, 0] idle).input.rst = false ∧ (given [8, 0] idle).input.fromHost = true ∧ (given [8, 0] idle).busy = false ∧
    (∃ t, step (given [8, 0] idle) = .next t) ∧
    started.input.rst = false ∧ started.input.fromHost = true ∧ started.busy = true ∧ ∃ t, step started = .next t :=
  ⟨by decide, by decide, rfl, ⟨_, rfl⟩, by decide, by decide, rfl, _, rfl⟩

end Sys2Proof.Tests
end

/-! The host's writes to the frame buffer of an idle block (R161 to R163). -/
section

namespace Sys2Proof.Machine

/-- The coordinates of the grid, by its width and height (R51). -/
theorem inGrid_iff {x y : Nat} : inGrid x y = true ↔ x < 88 ∧ y < 88 := by
  simp [inGrid, Config.width, Config.height]

/-- An idle block takes the host's buffer and keeps every other field. -/
theorem State.hostWrite_of_idle {s : State} (hb : s.busy = false) (m : Memory) :
    s.hostWrite m = { s with fb := m } := by
  simp [State.hostWrite, hb]

/-- The guarded write outside the grid changes nothing (R53). -/
theorem Memory.fbWrite_outside (m : Memory) {x y : Nat} (h : ¬inGrid x y = true) (p : Pixel) :
    m.fbWrite x y p = m :=
  if_neg h

/-- SETPX of an idle block is the guarded write (R162). -/
theorem exec_setpx_of_idle {s : State} (hb : s.busy = false) (x y : Nat) (r g b : Channel) :
    exec (.setpx x y r g b) s = .next { s with fb := s.fb.fbWrite x y ⟨r, g, b⟩ } :=
  congrArg Host.Outcome.next (State.hostWrite_of_idle hb _)

/-- Settles O45: SETPX is the guarded write, which reads back in the grid (`Memory.fbRead_fbWrite`) and does nothing
outside it. -/
theorem setPixelReadsBack : Obligations.SetPixelReadsBack := by
  intro x y r g b s hb hwf
  refine ⟨_, exec_setpx_of_idle hb x y r g b, rfl, fun x' y' => ?_, fun hout => ?_⟩
  · refine (Memory.fbRead_fbWrite hwf x y x' y' ⟨r, g, b⟩).trans (if_congr ?_ rfl rfl)
    simp only [Bool.and_eq_true, beq_iff_eq, inGrid_iff]
    tauto
  · rw [Memory.fbWrite_outside _ (mt inGrid_iff.1 hout)]

end Sys2Proof.Machine
end

/-! The commands a receiver sees of each trace (R73, R92), and the counts that name none. -/
section

namespace Sys2Proof.Machine

/-- A reserved count is carried by the reserved constructor (R73). -/
theorem commandOfCount_of_reserved {n : Nat} (h : isReservedCount n = true) : commandOfCount n = .cmdReserved n := by
  simp only [isReservedCount, Bool.not_eq_true', Bool.or_eq_false_iff, beq_eq_false_iff_ne] at h
  obtain ⟨⟨⟨⟨h1, h2⟩, h4⟩, h10⟩, h14⟩ := h
  simp only [commandOfCount, h1, h2, h4, h10, h14, if_false]

/-- Settles O19: the port's count decodes to the reserved constructor, whose meaning is the refusal. -/
theorem reservedCountsAreRefused : Obligations.ReservedCountsAreRefused := fun _ _ h =>
  ⟨congrArg Except.ok (commandOfCount_of_reserved h), fun _ => rfl⟩

/-- The latch and the data clock are low, so that the receiver is in no LE-high interval and no clock pulse. -/
def Lines.latchLow (ls : Lines) : Prop := ls.le = false ∧ ls.dclk = false

theorem Lines.latchLow_of_idle {ls : Lines} (h : ls.idle = true) : ls.latchLow := by
  simp only [Lines.idle, Bool.and_eq_true, Bool.not_eq_true'] at h
  exact ⟨h.2, h.1.2⟩

/-- Started with LE and DCLK low, the trace sends the commands of the counts `cs` and leaves LE and DCLK low again, no
count begun. -/
def SendsCommands (t : List Event) (cs : List Nat) : Prop :=
  ∀ ls : Lines, ls.latchLow →
    observe seeCommand 0 ls t = cs ∧ observed seeCommand 0 ls t = 0 ∧ (ls.after t).latchLow

/-- The commands of a trace are what a receiver sees in its waveform. -/
theorem SendsCommands.commandsSeen {t : List Event} {cs : List Nat} (h : SendsCommands t cs) {ls : Lines}
    (hl : ls.latchLow) : commandsSeen (waveform ls t) = cs :=
  (commandsSeen_waveform ls t).trans (h ls hl).1

theorem sendsCommands_nil : SendsCommands [] [] := fun _ hl => ⟨rfl, rfl, hl⟩

theorem SendsCommands.append {t u : List Event} {cs ds : List Nat} (ht : SendsCommands t cs)
    (hu : SendsCommands u ds) : SendsCommands (t ++ u) (cs ++ ds) := fun ls hl => by
  obtain ⟨seen, count, low⟩ := ht ls hl
  obtain ⟨seen', count', low'⟩ := hu _ low
  rw [observe_append, observed_append, Lines.after_append, seen, count]
  exact ⟨congrArg (cs ++ ·) seen', count', low'⟩

theorem SendsCommands.flatMap {α : Type} {l : List α} {F : α → List Event} {g : α → List Nat}
    (h : ∀ a ∈ l, SendsCommands (F a) (g a)) : SendsCommands (l.flatMap F) (l.flatMap g) :=
  observe_flatMap seeCommand Lines.latchLow F g 0 l h

/-- Blocks that send no command send none one after another. -/
theorem SendsCommands.flatMap_nil {α : Type} {l : List α} {F : α → List Event}
    (h : ∀ a ∈ l, SendsCommands (F a) []) : SendsCommands (l.flatMap F) [] := by
  have hnone : l.flatMap (fun _ => ([] : List Nat)) = [] := List.flatMap_eq_nil_iff.2 fun _ _ => rfl
  exact hnone ▸ SendsCommands.flatMap h

theorem sendsCommands_hold (k : Hold) : SendsCommands [.h k] [] := fun _ hl => ⟨rfl, rfl, hl⟩

theorem sendsCommands_clr : SendsCommands [.clr] [] := fun _ hl => ⟨rfl, rfl, hl⟩

/-- A low line stays low under every write that does not raise it. -/
theorem Lines.get_set_of_low {ls : Lines} {k l : Line} {v : Bool} (hk : ls.get k = false) (h : v = true → l ≠ k) :
    (ls.set l v).get k = false := by
  by_cases hkl : k = l
  · subst hkl
    rw [Lines.get_set_same]
    exact Bool.eq_false_iff.2 fun hv => h hv rfl
  · rw [Lines.get_set_ne ls l k v hkl, hk]

/-- The command observer takes no notice of what happens with LE low (R92). -/
theorem seeCommand_of_le_low (n : Nat) {a b : Lines} (ha : a.le = false) (hb : b.le = false) :
    seeCommand n a b = (n, []) := by
  simp [seeCommand, ha, hb]

/-- A write that does not raise LE or DCLK sends nothing. -/
theorem sendsCommands_write (l : Line) (v : Bool) (h : v = true → l ≠ .le ∧ l ≠ .dclk) :
    SendsCommands [.w l v] [] := by
  rintro ls ⟨hle, hdclk⟩
  have hle' : (ls.set l v).le = false := Lines.get_set_of_low (k := .le) hle fun hv => (h hv).1
  have hdclk' : (ls.set l v).dclk = false := Lines.get_set_of_low (k := .dclk) hdclk fun hv => (h hv).2
  simp only [observe, observed, seeCommand_of_le_low 0 hle hle', List.append_nil]
  exact ⟨trivial, trivial, hle', hdclk'⟩

/-- A pulse with LE low is part of no command, on either clock (R92). -/
theorem sendsCommands_pulseTrace (c : Clock) : SendsCommands (pulseTrace c) [] := by
  rintro ls ⟨hle, hdclk⟩
  cases c <;> simp [pulseTrace, clockLine, observe, observed, seeCommand, Lines.set, Lines.latchLow, hle, hdclk]

theorem sendsCommands_pulseTraces (c : Clock) (n : Nat) : SendsCommands (pulseTraces c n) [] := by
  induction n with
  | zero => exact sendsCommands_nil
  | succ n ih => exact (sendsCommands_pulseTrace c).append ih

/-- With LE high each DCLK pulse adds one to the count of the interval at hand, and none ends it (R92). -/
theorem observe_pulseTraces_latched (n k : Nat) {ls : Lines} (hle : ls.le = true) (hdclk : ls.dclk = false) :
    observe seeCommand k ls (pulseTraces .dclk n) = [] ∧ observed seeCommand k ls (pulseTraces .dclk n) = k + n ∧
      ls.after (pulseTraces .dclk n) = ls := by
  induction n generalizing k with
  | zero => exact ⟨rfl, rfl, rfl⟩
  | succ n ih =>
    have hpulse : observe seeCommand k ls (pulseTrace .dclk) = [] ∧
        observed seeCommand k ls (pulseTrace .dclk) = k + 1 ∧ ls.after (pulseTrace .dclk) = ls := by
      refine ⟨?_, ?_, ?_⟩
      · simp [pulseTrace, clockLine, observe, seeCommand, Lines.set, hle, hdclk]
      · simp [pulseTrace, clockLine, observed, seeCommand, Lines.set, hle, hdclk]
      · rw [after_pulseTrace, clockLine, ← hdclk]; exact ls.set_get .dclk
    obtain ⟨seen, count, lines⟩ := hpulse
    obtain ⟨seen', count', lines'⟩ := ih (k + 1)
    rw [show pulseTraces .dclk (n + 1) = pulseTrace .dclk ++ pulseTraces .dclk n from rfl, observe_append,
      observed_append, Lines.after_append, seen, count, lines, seen', count']
    exact ⟨rfl, by omega, lines'⟩

/-- `CMD(cmd)` sends its command: the falling LE ends an interval of its pulse count (R92, R111). -/
theorem sendsCommands_cmdTrace (c : Command) : SendsCommands (cmdTrace c) [c.count] := by
  rintro ls ⟨hle, hdclk⟩
  obtain ⟨seen, count, lines⟩ := observe_pulseTraces_latched c.count 0 (ls := ls.set .le true) rfl hdclk
  have hrise : seeCommand 0 ls (ls.set .le true) = (0, []) := by simp [seeCommand, Lines.set, hle, hdclk]
  have hfall (n : Nat) : seeCommand n (ls.set .le true) ((ls.set .le true).set .le false) = (0, [n]) := rfl
  refine ⟨?_, ?_, ?_⟩
  · simp [cmdTrace, observe, observe_append, hrise, hfall, seen, count, lines]
  · simp [cmdTrace, observed, observed_append, hrise, hfall, count, lines]
  · rw [after_cmdTrace]; exact ⟨rfl, rfl⟩

/-- A configuration bit is a shift and no command: its pulse comes with LE low (R74). -/
theorem sendsCommands_bitCell (p : Params) (v : Bool) : SendsCommands (bitCell p v) [] :=
  (sendsCommands_write _ v fun _ => by cases p.cfgLine <;> decide).append (sendsCommands_pulseTrace .dclk)

/-- `CFG(v)` sends WriteConfig and DataLatch (R117). -/
theorem sendsCommands_cfgTrace (p : Params) (v : BitVec 16) : SendsCommands (cfgTrace p v) [4, 1] :=
  ((sendsCommands_cmdTrace .writeConfig).append (.flatMap_nil fun _ _ => sendsCommands_bitCell p _)).append
    (sendsCommands_cmdTrace .dataLatch)

/-- The address lines send nothing (R131). -/
theorem sendsCommands_scanTrace (a : Nat) : SendsCommands (scanTrace a) [] := by
  have hwrite (l : Line) (v : Bool) (h : l ≠ .le ∧ l ≠ .dclk) := sendsCommands_write l v fun _ => h
  exact (hwrite .a0 _ (by decide)).append <| (hwrite .a1 _ (by decide)).append <|
    (hwrite .a2 _ (by decide)).append (hwrite .a3 _ (by decide))

/-- The data lines send nothing (R133). -/
theorem sendsCommands_symbolWrites (p : Params) (fb : Memory) (s ic plane led : Nat) :
    SendsCommands (symbolWrites p fb s ic plane led) [] := by
  have hwrite (l : Line) (v : Bool) (h : l ≠ .le ∧ l ≠ .dclk) := sendsCommands_write l v fun _ => h
  exact (hwrite .r1 _ (by decide)).append <| (hwrite .g1 _ (by decide)).append <|
    (hwrite .b1 _ (by decide)).append <| (hwrite .r2 _ (by decide)).append <|
    (hwrite .g2 _ (by decide)).append (hwrite .b2 _ (by decide))

/-- The last symbol's clock is DataLatch's frame, every other symbol's a shift (R82, R133). -/
theorem sendsCommands_symbolTrace (p : Params) (fb : Memory) (s ic plane led : Nat) :
    SendsCommands (symbolTrace p fb s ic plane led) (if lastSymbol ic plane led then [1] else []) := by
  refine (sendsCommands_symbolWrites p fb s ic plane led).append ?_
  cases lastSymbol ic plane led with
  | false => exact sendsCommands_pulseTrace .dclk
  | true => exact sendsCommands_cmdTrace .dataLatch

/-- `SDATA(s)` sends one DataLatch, at its last symbol (R133). -/
theorem sendsCommands_sdataTrace (p : Params) (fb : Memory) (s : Nat) : SendsCommands (sdataTrace p fb s) [1] := by
  rw [sdataTrace_split]
  refine SendsCommands.append (.flatMap_nil fun q hq => ?_) (sendsCommands_symbolTrace p fb s 21 0 15)
  have hq : q < 5631 := List.mem_range.mp hq
  have hlast : lastSymbol (q / 256) (15 - q % 256 / 16) (q % 16) = false := by
    rw [lastSymbol_number (by omega)]
    exact decide_eq_false (by omega)
  simpa [hlast] using sendsCommands_symbolTrace p fb s (q / 256) (15 - q % 256 / 16) (q % 16)

/-- `SCANPERIOD(s)` sends Vsync on the last scanline and nothing on the others (R145). -/
theorem sendsCommands_scanPeriodTrace (s : Nat) :
    SendsCommands (scanPeriodTrace s) (if lastScanline s then [2] else []) := by
  have hvsync : SendsCommands (if lastScanline s then cmdTrace .vsync else []) (if lastScanline s then [2] else []) := by
    cases lastScanline s with
    | false => exact sendsCommands_nil
    | true => exact sendsCommands_cmdTrace .vsync
  have h := (((((sendsCommands_scanTrace s).append (sendsCommands_pulseTraces .gclk Config.gclkPulses)).append
    hvsync).append (sendsCommands_hold .dead)).append (sendsCommands_pulseTrace .gclk)).append (sendsCommands_hold .dead)
  simpa [scanPeriodTrace] using h

/-- The commands of an operation, by their pulse counts (R141, R146, R147). -/
def Op.commands : Op → List Nat
  | .init => [10, 14, 4, 1]
  | .refresh => List.replicate 11 1 ++ [2]
  | .teardown => []

theorem sendsCommands_initTrace (p : Params) : SendsCommands (initTrace p) [10, 14, 4, 1] :=
  ((sendsCommands_cmdTrace .reset).append (sendsCommands_cmdTrace .preActive)).append
    (sendsCommands_cfgTrace p p.configValue)

/-- A frame is eleven scanlines of data, a DataLatch each, and eleven scan periods, of which the last sends Vsync. -/
theorem sendsCommands_refreshTrace (p : Params) (fb : Memory) :
    SendsCommands (refreshTrace p fb) (List.replicate 11 1 ++ [2]) :=
  SendsCommands.append (.flatMap fun s _ => sendsCommands_sdataTrace p fb s)
    (.flatMap fun s _ => sendsCommands_scanPeriodTrace s)

/-- TEARDOWN only clears the buffer and lowers lines. -/
theorem sendsCommands_teardownTrace : SendsCommands teardownTrace [] := by
  rw [teardownTrace, List.map_eq_flatMap]
  exact sendsCommands_clr.append (.flatMap_nil fun l _ => sendsCommands_write l false nofun)

theorem sendsCommands_opTrace (op : Op) (p : Params) (fb : Memory) : SendsCommands (opTrace op p fb) op.commands := by
  cases op with
  | init => exact sendsCommands_initTrace p
  | refresh => exact sendsCommands_refreshTrace p fb
  | teardown => exact sendsCommands_teardownTrace

theorem Op.commands_named (op : Op) : ∀ n ∈ op.commands, isReservedCount n = false := by
  cases op <;> decide

/-- Settles O38: each operation's trace is put together from procedures whose commands are known, and none of the counts
is reserved. -/
theorem operationsSendOnlyNamedCommands : Obligations.OperationsSendOnlyNamedCommands := by
  intro op p fb ls hidle
  have hseen := (sendsCommands_opTrace op p fb).commandsSeen (Lines.latchLow_of_idle hidle)
  rw [hseen]
  exact ⟨by cases op <;> rfl, op.commands_named⟩

end Sys2Proof.Machine
end

/-! What a receiver reads of the waveform of a command and of a configuration word (R92, R119). -/
section

namespace Sys2Proof.Machine

@[simp] theorem Lines.data_set_le (ls : Lines) (v : Bool) : (ls.set .le v).data = ls.data := rfl
@[simp] theorem Lines.data_set_dclk (ls : Lines) (v : Bool) : (ls.set .dclk v).data = ls.data := rfl
@[simp] theorem Lines.le_set_le (ls : Lines) (v : Bool) : (ls.set .le v).le = v := rfl
@[simp] theorem Lines.le_set_dclk (ls : Lines) (v : Bool) : (ls.set .dclk v).le = ls.le := rfl

/-- A data line is neither a clock nor the latch (R21). -/
theorem dataLine_ne (d : DataLine) : dataLine d ≠ .gclk ∧ dataLine d ≠ .dclk ∧ dataLine d ≠ .le := by
  cases d <;> decide

@[simp] theorem Lines.le_set_dataLine (ls : Lines) (d : DataLine) (v : Bool) : (ls.set (dataLine d) v).le = ls.le :=
  Lines.get_set_ne ls _ .le v (dataLine_ne d).2.2.symm

@[simp] theorem Lines.dclk_set_dataLine (ls : Lines) (d : DataLine) (v : Bool) :
    (ls.set (dataLine d) v).dclk = ls.dclk :=
  Lines.get_set_ne ls _ .dclk v (dataLine_ne d).2.1.symm

@[simp] theorem Lines.get_dataLine_set_le (ls : Lines) (d : DataLine) (v : Bool) :
    (ls.set .le v).get (dataLine d) = ls.get (dataLine d) :=
  Lines.get_set_ne ls .le _ v (dataLine_ne d).2.2

@[simp] theorem Lines.get_dataLine_set_dclk (ls : Lines) (d : DataLine) (v : Bool) :
    (ls.set .dclk v).get (dataLine d) = ls.get (dataLine d) :=
  Lines.get_set_ne ls .dclk _ v (dataLine_ne d).2.1

theorem Lines.latchLow.set_dataLine {ls : Lines} (low : ls.latchLow) (d : DataLine) (v : Bool) :
    (ls.set (dataLine d) v).latchLow :=
  ⟨(ls.le_set_dataLine d v).trans low.1, (ls.dclk_set_dataLine d v).trans low.2⟩

@[simp] theorem seeRise_state (l : Line) (a b : Lines) : (seeRise l () a b).1 = () := rfl
@[simp] theorem observed_seeRise (l : Line) (ls : Lines) (t : List Event) : observed (seeRise l) () ls t = () := rfl

/-- A write of another line is no rising edge (R14). -/
theorem seeRise_set_ne {l k : Line} (h : l ≠ k) (ls : Lines) (v : Bool) : seeRise l () ls (ls.set k v) = ((), []) := by
  simp [seeRise, Lines.get_set_ne ls k l v h]

/-- A line that a trace never writes has no rising edge in its waveform. -/
theorem observe_seeRise_of_notMem {l : Line} {t : List Event} (h : ∀ v, Event.w l v ∉ t) (ls : Lines) :
    observe (seeRise l) () ls t = [] := by
  induction t generalizing ls with
  | nil => rfl
  | cons e t ih =>
    have ih := ih fun v hv => h v (List.mem_cons_of_mem e hv)
    cases e with
    | h k => exact ih ls
    | clr => exact ih ls
    | w k v =>
      have hk : l ≠ k := by rintro rfl; exact h v List.mem_cons_self
      simp [observe, seeRise_set_ne hk, ih]

/-- While LE keeps its level and GCLK is quiet, a DCLK rising edge is a shift with LE low and is held with LE high
(R92 (2), (1), (3)). -/
theorem receive_of_le_kept (held : List (List Bool)) {a b : Lines} (hle : b.le = a.le) (hgclk : b.gclk = a.gclk) :
    receive held a b =
      (held ++ (if a.le then (seeRise .dclk () a b).2.map Lines.data else []),
        if a.le then [] else (seeRise .dclk () a b).2.map fun u => .shift u.data) := by
  simp only [receive, seeRise, Lines.get, hle, hgclk]
  by_cases high : a.le = true <;> by_cases rise : (!a.dclk && b.dclk) = true <;> simp [high, rise]

/-- A trace that writes neither LE nor GCLK is read by its DCLK rising edges: each is a shift with LE low, and its data
are added to the interval at hand with LE high (R92). -/
theorem observe_receive_of_notMem {t : List Event} (hle : ∀ v, Event.w .le v ∉ t)
    (hgclk : ∀ v, Event.w .gclk v ∉ t) (held : List (List Bool)) (ls : Lines) :
    observe receive held ls t = (if ls.le then [] else (observe (seeRise .dclk) () ls t).map fun u => .shift u.data) ∧
      observed receive held ls t = held ++ if ls.le then (observe (seeRise .dclk) () ls t).map Lines.data else [] := by
  induction t generalizing held ls with
  | nil => simp [observe, observed]
  | cons e t ih =>
    have ih := ih (fun v hv => hle v (List.mem_cons_of_mem e hv)) fun v hv => hgclk v (List.mem_cons_of_mem e hv)
    cases e with
    | h k => exact ih held ls
    | clr => exact ih held ls
    | w k v =>
      have hk : Line.le ≠ k := by rintro rfl; exact hle v List.mem_cons_self
      have hk' : Line.gclk ≠ k := by rintro rfl; exact hgclk v List.mem_cons_self
      have kept : (ls.set k v).le = ls.le := Lines.get_set_ne ls k .le v hk
      have hstep := receive_of_le_kept held kept (Lines.get_set_ne ls k .gclk v hk')
      obtain ⟨seen, count⟩ := ih (receive held ls (ls.set k v)).1 (ls.set k v)
      simp only [observe, observed, seeRise_state, seen, count]
      by_cases high : ls.le = true <;> simp [hstep, kept, high]

/-- A pulse from a low clock is one rising edge of it, and the lines end as they began (R102). -/
theorem observe_rises_pulseTrace (c : Clock) {ls : Lines} (low : ls.get (clockLine c) = false) :
    observe (seeRise (clockLine c)) () ls (pulseTrace c) = [ls.set (clockLine c) true] ∧
      ls.after (pulseTrace c) = ls := by
  refine ⟨?_, ?_⟩
  · simp [pulseTrace, observe, seeRise, low]
  · rw [after_pulseTrace, ← low, Lines.set_get]

/-- Each of a clock's pulses is one rising edge of it (R103, R106). -/
theorem observe_rises_pulseTraces (c : Clock) (n : Nat) {ls : Lines} (low : ls.get (clockLine c) = false) :
    observe (seeRise (clockLine c)) () ls (pulseTraces c n) = List.replicate n (ls.set (clockLine c) true) ∧
      ls.after (pulseTraces c n) = ls := by
  induction n with
  | zero => exact ⟨rfl, rfl⟩
  | succ n ih =>
    obtain ⟨seen, lines⟩ := ih
    obtain ⟨rise, same⟩ := observe_rises_pulseTrace c low
    rw [show pulseTraces c (n + 1) = pulseTrace c ++ pulseTraces c n from rfl, observe_append, Lines.after_append,
      rise, same, seen, lines]
    exact ⟨rfl, rfl⟩

/-- The pulses of a clock write that clock's line only (R102). -/
theorem write_notMem_pulseTraces {c : Clock} {l : Line} (h : l ≠ clockLine c) (n : Nat) (v : Bool) :
    Event.w l v ∉ pulseTraces c n := by
  simp [pulseTraces, pulseTrace, h]

/-- A command started with LE and DCLK low leaves every line as it was (R111). -/
theorem after_cmdTrace_of_latchLow (c : Command) {ls : Lines} (low : ls.latchLow) : ls.after (cmdTrace c) = ls := by
  obtain ⟨hle, hdclk⟩ := low
  cases ls
  subst hle hdclk
  exact after_cmdTrace _ c

/-- A command raises LE once (R111). -/
theorem observe_le_rises_cmdTrace (c : Command) {ls : Lines} (low : ls.latchLow) :
    observe (seeRise .le) () ls (cmdTrace c) = [ls.set .le true] := by
  obtain ⟨hle, hdclk⟩ := low
  have hquiet := observe_seeRise_of_notMem (write_notMem_pulseTraces (c := .dclk) (l := .le) (by decide) c.count)
  simp [cmdTrace, observe, observe_append, hquiet, seeRise, show ls.get .le = false from hle]

/-- A command's DCLK rising edges: its count of them, with LE high and the other lines as before (R111). -/
theorem observe_dclk_rises_cmdTrace (c : Command) {ls : Lines} (low : ls.latchLow) :
    observe (seeRise .dclk) () ls (cmdTrace c) = List.replicate c.count ((ls.set .le true).set .dclk true) := by
  have rises := (observe_rises_pulseTraces .dclk c.count (ls := ls.set .le true) low.2).1
  rw [clockLine] at rises
  simp [cmdTrace, observe, observe_append, rises, seeRise_set_ne]

/-- With LE high each DCLK pulse adds the data lines' levels to the interval at hand (R92 (1), (3)). -/
theorem observe_receive_pulseTraces_of_le_high (n : Nat) (held : List (List Bool)) {ls : Lines} (high : ls.le = true)
    (hdclk : ls.dclk = false) :
    observe receive held ls (pulseTraces .dclk n) = [] ∧
      observed receive held ls (pulseTraces .dclk n) = held ++ List.replicate n ls.data := by
  have rises := (observe_rises_pulseTraces .dclk n hdclk).1
  have h := observe_receive_of_notMem (t := pulseTraces .dclk n) (write_notMem_pulseTraces (by decide) n)
    (write_notMem_pulseTraces (by decide) n) held ls
  rw [clockLine] at rises
  simpa [high, rises] using h

/-- A command is read as one LE-high interval with the data lines' levels at each of its pulses (R92 (1), (3)). -/
theorem observe_receive_cmdTrace (c : Command) {ls : Lines} (low : ls.latchLow) :
    observe receive [] ls (cmdTrace c) = intervalRead (List.replicate c.count ls.data) ∧
      observed receive [] ls (cmdTrace c) = [] := by
  obtain ⟨hle, hdclk⟩ := low
  obtain ⟨seen, held⟩ := observe_receive_pulseTraces_of_le_high c.count [] (ls := ls.set .le true) rfl hdclk
  have lines := (observe_rises_pulseTraces .dclk c.count (ls := ls.set .le true) hdclk).2
  have hrise : receive [] ls (ls.set .le true) = ([], []) := by simp [receive, Lines.set, hle, hdclk]
  have hfall (h : List (List Bool)) :
      receive h (ls.set .le true) ((ls.set .le true).set .le false) = ([], intervalRead h) := by
    simp [receive, Lines.set]
  constructor <;>
    simp [cmdTrace, observe, observed, observe_append, observed_append, hrise, hfall, seen, held, lines]

/-- DataLatch's interval is a shift as well, every other command's is the command alone (R92 (1), (3)). -/
theorem intervalRead_replicate_count (c : Command) (d : List Bool) :
    intervalRead (List.replicate c.count d) = (if c = .dataLatch then [.shift d] else []) ++ [.command c.count] := by
  cases c <;> rfl

/-- One configuration bit met with DCLK low: one DCLK rising edge, with the bit on `CFG_LINE` (R74). -/
theorem observe_dclk_rises_bitCell (p : Params) (v : Bool) {ls : Lines} (hdclk : ls.dclk = false) :
    observe (seeRise .dclk) () ls (bitCell p v) = [(ls.set (dataLine p.cfgLine) v).set .dclk true] ∧
      ls.after (bitCell p v) = ls.set (dataLine p.cfgLine) v := by
  obtain ⟨rise, same⟩ := observe_rises_pulseTrace .dclk (ls := ls.set (dataLine p.cfgLine) v)
    ((ls.dclk_set_dataLine p.cfgLine v).trans hdclk)
  rw [clockLine] at rise
  simp only [bitCell, observe, seeRise_set_ne (dataLine_ne p.cfgLine).2.1.symm, rise, Lines.after_w, same]
  exact ⟨rfl, trivial⟩

/-- Configuration bits met with DCLK low: one DCLK rising edge each, with the bit on `CFG_LINE` and the other lines as
before (R74, R117). -/
theorem observe_dclk_rises_bitCells (p : Params) (f : Nat → Bool) (l : List Nat) {ls : Lines} (hdclk : ls.dclk = false) :
    observe (seeRise .dclk) () ls (l.flatMap fun i => bitCell p (f i)) =
      l.map fun i => (ls.set (dataLine p.cfgLine) (f i)).set .dclk true := by
  have hcell (i : Nat) (b : Bool) :=
    observe_dclk_rises_bitCell p (f i) (ls := ls.set (dataLine p.cfgLine) b)
      ((ls.dclk_set_dataLine p.cfgLine b).trans hdclk)
  simp only [Lines.set_set] at hcell
  have hcells := observe_flatMap (seeRise .dclk) (fun u => ∃ b, u = ls.set (dataLine p.cfgLine) b)
    (fun i => bitCell p (f i)) (fun i => [(ls.set (dataLine p.cfgLine) (f i)).set .dclk true]) () l
    (by rintro i - _ ⟨b, rfl⟩; exact ⟨(hcell i b).1, rfl, f i, (hcell i b).2⟩) ls
    ⟨ls.get (dataLine p.cfgLine), (ls.set_get _).symm⟩
  exact hcells.1.trans List.map_eq_flatMap.symm

/-- The cells of the configuration bits write `CFG_LINE` and DCLK only (R74). -/
theorem write_notMem_bitCells (p : Params) (f : Nat → Bool) (l : List Nat) {k : Line}
    (hcfg : k ≠ dataLine p.cfgLine) (hdclk : k ≠ .dclk) (v : Bool) :
    Event.w k v ∉ l.flatMap fun i => bitCell p (f i) := by
  simp [bitCell, pulseTrace, clockLine, hcfg, hdclk]

/-- Configuration bits met with LE and DCLK low are one shift each (R92 (2), R74). -/
theorem observe_receive_bitCells (p : Params) (f : Nat → Bool) (l : List Nat) {ls : Lines} (low : ls.latchLow) :
    observe receive [] ls (l.flatMap fun i => bitCell p (f i)) =
        l.map (fun i => .shift (ls.set (dataLine p.cfgLine) (f i)).data) ∧
      observed receive [] ls (l.flatMap fun i => bitCell p (f i)) = [] := by
  obtain ⟨hgclk, -, hle⟩ := dataLine_ne p.cfgLine
  have h := observe_receive_of_notMem (write_notMem_bitCells p f l hle.symm nofun)
    (write_notMem_bitCells p f l hgclk.symm nofun) [] ls
  simpa [low.1, observe_dclk_rises_bitCells p f l low.2, Function.comp_def] using h

/-- The lines after a configuration frame's bits: the last bit on `CFG_LINE`, the others as before (R117). -/
theorem after_countDown_bitCells (p : Params) (v : BitVec 16) {ls : Lines} (hdclk : ls.dclk = false) :
    ls.after ((countDown 16).flatMap fun i => bitCell p (v.getLsbD i)) = ls.set (dataLine p.cfgLine) (v.getLsbD 0) := by
  rw [show countDown 16 = [15, 14, 13, 12, 11, 10, 9, 8, 7, 6, 5, 4, 3, 2, 1] ++ [0] by decide, after_bitCells, ← hdclk]

/-- A configuration frame's DCLK rising edges: WriteConfig's four, one for each bit, DataLatch's one (R119). -/
theorem observe_dclk_rises_cfgTrace (p : Params) (v : BitVec 16) {ls : Lines} (low : ls.latchLow) :
    observe (seeRise .dclk) () ls (cfgTrace p v) =
      List.replicate 4 ((ls.set .le true).set .dclk true) ++
      (countDown 16).map (fun i => (ls.set (dataLine p.cfgLine) (v.getLsbD i)).set .dclk true) ++
      [((ls.set (dataLine p.cfgLine) (v.getLsbD 0)).set .le true).set .dclk true] := by
  rw [cfgTrace, observe_append, observe_append, Lines.after_append, after_cmdTrace_of_latchLow _ low,
    after_countDown_bitCells p v low.2, observe_dclk_rises_cmdTrace _ low, observe_dclk_rises_bitCells p _ _ low.2,
    observed_seeRise, observe_dclk_rises_cmdTrace _ (low.set_dataLine _ _)]
  rfl

/-- A configuration frame is read as WriteConfig, one shift for each bit, and a DataLatch that shifts the last bit again
(R92, R119). -/
theorem observe_receive_cfgTrace (p : Params) (v : BitVec 16) {ls : Lines} (low : ls.latchLow) :
    observe receive [] ls (cfgTrace p v) =
      .command 4 :: ((countDown 16).map (fun i => .shift (ls.set (dataLine p.cfgLine) (v.getLsbD i)).data) ++
        [.shift (ls.set (dataLine p.cfgLine) (v.getLsbD 0)).data, .command 1]) := by
  obtain ⟨writeConfig, closed⟩ := observe_receive_cmdTrace .writeConfig low
  obtain ⟨bits, still⟩ := observe_receive_bitCells p v.getLsbD (countDown 16) low
  obtain ⟨dataLatch, -⟩ := observe_receive_cmdTrace .dataLatch (low.set_dataLine p.cfgLine (v.getLsbD 0))
  rw [cfgTrace, observe_append, observe_append, observed_append, Lines.after_append, after_cmdTrace_of_latchLow _ low,
    after_countDown_bitCells p v low.2, writeConfig, closed, bits, still, dataLatch, List.append_assoc]
  rfl

/-- A receiver names each command by its pulse count (R72). -/
theorem commandNamed_count (c : Command) : commandNamed c.count = some c := by cases c <;> rfl

/-- Settles O21: the edges and the reading of a command and of a configuration frame, as found event by event above. -/
theorem commandAndConfigWaveforms : Obligations.CommandAndConfigWaveforms := by
  intro p ls hle hdclk
  have low : ls.latchLow := ⟨hle, hdclk⟩
  refine ⟨fun c => ⟨?_, ?_, ?_, ?_, commandNamed_count c, ?_⟩, fun v => ⟨?_, ?_, ?_⟩⟩
  · rw [pulseCount, risingEdges_waveform, observe_le_rises_cmdTrace c low]; rfl
  · rw [pulseCount, risingEdges_waveform, observe_dclk_rises_cmdTrace c low, List.length_replicate]
  · rw [risingEdges_waveform, observe_dclk_rises_cmdTrace c low]
    intro u hu
    rw [List.eq_of_mem_replicate hu]; rfl
  · exact (sendsCommands_cmdTrace c).commandsSeen low
  · rw [received_waveform, (observe_receive_cmdTrace c low).1, intervalRead_replicate_count]
  · rw [risingEdges_waveform, observe_dclk_rises_cfgTrace p v low]
    simp [show countDown 16 = [15, 14, 13, 12, 11, 10, 9, 8, 7, 6, 5, 4, 3, 2, 1, 0] by decide, hle]
  · exact (sendsCommands_cfgTrace p v).commandsSeen low
  · rw [received_waveform, observe_receive_cfgTrace p v low]; rfl

end Sys2Proof.Machine
end

/-! The waveform of a scanline's data, and its layout by index (R134, R136). -/
section

namespace Sys2Proof.Machine

/-- Every symbol but the last is its writes and a plain clock pulse (R133). -/
theorem symbolTrace_of_lt (p : Params) (fb : Memory) (s : Nat) {q : Nat} (hq : q < 5631) :
    symbolTrace p fb s (q / 256) (15 - q % 256 / 16) (q % 16) =
      symbolWrites p fb s (q / 256) (15 - q % 256 / 16) (q % 16) ++ pulseTrace .dclk := by
  have hlast : lastSymbol (q / 256) (15 - q % 256 / 16) (q % 16) = false := by
    rw [lastSymbol_number (by omega)]
    exact decide_eq_false (by omega)
  rw [symbolTrace, hlast]
  rfl

/-- Settles O26: the symbols below 5631 are blocks of 10 events, and all that follows lies in the last symbol. -/
theorem scanlineDataLayoutByIndex : Obligations.ScanlineDataLayoutByIndex := by
  intro p fb s j
  have hlen := length_flatMap_const (List.range 5631)
    (fun q => symbolTrace p fb s (q / 256) (15 - q % 256 / 16) (q % 16)) 10
    fun q hq => length_symbols p fb s q (List.mem_range.mp hq)
  rw [List.length_range] at hlen
  rw [sdataTrace_split, sdataEventAt]
  rcases Nat.lt_or_ge j 56310 with hlt | hge
  · rw [List.getElem?_append_left (by omega),
      getElem?_flatMap_range _ 5631 10 j (by omega) (length_symbols p fb s) (by omega),
      show min (j / 10) 5631 = j / 10 by omega, show j - 10 * (j / 10) = j % 10 by omega]
  · rw [List.getElem?_append_right (by omega), hlen, show min (j / 10) 5631 = 5631 by omega]

/-- The observer of DCLK's samples: LE and the data lines at each rising edge (R92). -/
def seeSample (x : Unit) (a b : Lines) : Unit × List (Bool × List Bool) :=
  (x, (seeRise .dclk () a b).2.map fun u => (u.le, u.data))

theorem observe_seeSample (ls : Lines) (t : List Event) :
    observe seeSample () ls t = (observe (seeRise .dclk) () ls t).map fun u => (u.le, u.data) := by
  induction t generalizing ls with
  | nil => rfl
  | cons e t ih => cases e <;> simp [observe, seeSample, ih]

/-- The six bits of the symbol numbered `q`, in the order of the data lines (R78, R79). -/
def symbolBits (p : Params) (fb : Memory) (s q : Nat) : List Bool :=
  let c1 := chain1Pixel p fb s (q / 256) (q % 16)
  let c2 := chain2Pixel p fb s (q / 256) (q % 16)
  let plane := 15 - q % 256 / 16
  [c1.r.getLsbD plane, c1.g.getLsbD plane, c1.b.getLsbD plane,
    c2.r.getLsbD plane, c2.g.getLsbD plane, c2.b.getLsbD plane]

/-- A symbol's writes are the data lines' only. -/
theorem write_notMem_symbolWrites (p : Params) (fb : Memory) (s ic plane led : Nat) {l : Line}
    (hl : l = .le ∨ l = .gclk ∨ l = .dclk) (v : Bool) : Event.w l v ∉ symbolWrites p fb s ic plane led := by
  obtain rfl | rfl | rfl := hl <;> simp [symbolWrites]

/-- A symbol's writes raise no clock (R133). -/
theorem observe_dclk_rises_symbolWrites (p : Params) (fb : Memory) (s ic plane led : Nat) (ls : Lines) :
    observe (seeRise .dclk) () ls (symbolWrites p fb s ic plane led) = [] :=
  observe_seeRise_of_notMem (write_notMem_symbolWrites p fb s ic plane led (.inr (.inr rfl))) ls

/-- A symbol's writes put its bits on the data lines (R133). -/
theorem data_after_symbolWrites (p : Params) (fb : Memory) (s q : Nat) (ls : Lines) :
    (ls.after (symbolWrites p fb s (q / 256) (15 - q % 256 / 16) (q % 16))).data = symbolBits p fb s q := rfl

/-- A symbol's writes leave LE and DCLK low (R133). -/
theorem latchLow_after_symbolWrites (p : Params) (fb : Memory) (s ic plane led : Nat) {ls : Lines}
    (low : ls.latchLow) : (ls.after (symbolWrites p fb s ic plane led)).latchLow := by
  rw [after_symbolWrites]
  exact low

/-- The data of SDATA up to the frame of its DataLatch: 5631 symbols and the writes of the last (R133). -/
def sdataShifts (p : Params) (fb : Memory) (s : Nat) : List Event :=
  (List.range 5631).flatMap (fun q => symbolTrace p fb s (q / 256) (15 - q % 256 / 16) (q % 16)) ++
    symbolWrites p fb s 21 0 15

/-- The last symbol's clock is DataLatch's frame (R82, R133). -/
theorem sdataTrace_eq_shifts_dataLatch (p : Params) (fb : Memory) (s : Nat) :
    sdataTrace p fb s = sdataShifts p fb s ++ cmdTrace .dataLatch := by
  rw [sdataTrace_split, sdataShifts, List.append_assoc]
  rfl

/-- Neither LE nor GCLK is written before the last symbol's clock. -/
theorem write_notMem_sdataShifts (p : Params) (fb : Memory) (s : Nat) {l : Line} (hl : l = .le ∨ l = .gclk)
    (v : Bool) : Event.w l v ∉ sdataShifts p fb s := by
  have hwrites (ic plane led : Nat) := write_notMem_symbolWrites p fb s ic plane led (hl.imp_right .inl) v
  have hpulse : Event.w l v ∉ pulseTrace .dclk := by
    obtain rfl | rfl := hl <;> simp [pulseTrace, clockLine]
  simp only [sdataShifts, List.mem_append, List.mem_flatMap, not_or, not_exists, not_and]
  refine ⟨fun q hq => ?_, hwrites 21 0 15⟩
  rw [symbolTrace_of_lt p fb s (List.mem_range.mp hq), List.mem_append, not_or]
  exact ⟨hwrites _ _ _, hpulse⟩

/-- A symbol below the last, met with LE and DCLK low, is one sample of its bits with LE low, and leaves both low (R133). -/
theorem observe_seeSample_symbolTrace (p : Params) (fb : Memory) (s : Nat) {q : Nat} (hq : q < 5631) {ls : Lines}
    (low : ls.latchLow) :
    observe seeSample () ls (symbolTrace p fb s (q / 256) (15 - q % 256 / 16) (q % 16)) =
        [(false, symbolBits p fb s q)] ∧
      (ls.after (symbolTrace p fb s (q / 256) (15 - q % 256 / 16) (q % 16))).latchLow := by
  have low' := latchLow_after_symbolWrites p fb s (q / 256) (15 - q % 256 / 16) (q % 16) low
  obtain ⟨rise, same⟩ := observe_rises_pulseTrace .dclk low'.2
  rw [clockLine] at rise
  rw [symbolTrace_of_lt p fb s hq, observe_seeSample, observe_append, Lines.after_append, same,
    observe_dclk_rises_symbolWrites, observed_seeRise, rise]
  refine ⟨?_, low'⟩
  simp [low'.1, data_after_symbolWrites]

/-- The samples before the last symbol's clock: the symbols below 5631 in the order of their numbers, all with LE low; the
lines then hold the last symbol's bits (R78, R136). -/
theorem observe_seeSample_sdataShifts (p : Params) (fb : Memory) (s : Nat) {ls : Lines} (low : ls.latchLow) :
    observe seeSample () ls (sdataShifts p fb s) = (List.range 5631).map (fun q => (false, symbolBits p fb s q)) ∧
      (ls.after (sdataShifts p fb s)).latchLow ∧
      (ls.after (sdataShifts p fb s)).data = symbolBits p fb s 5631 := by
  obtain ⟨seen, state, low'⟩ := observe_flatMap seeSample Lines.latchLow
    (fun q => symbolTrace p fb s (q / 256) (15 - q % 256 / 16) (q % 16)) (fun q => [(false, symbolBits p fb s q)]) ()
    (List.range 5631)
    (fun q hq u hu =>
      have ⟨sample, still⟩ := observe_seeSample_symbolTrace p fb s (List.mem_range.mp hq) hu
      ⟨sample, rfl, still⟩) ls low
  rw [sdataShifts, observe_append, Lines.after_append, seen, state, observe_seeSample _ (symbolWrites p fb s 21 0 15),
    observe_dclk_rises_symbolWrites, List.map_nil, List.append_nil]
  exact ⟨List.map_eq_flatMap.symm, latchLow_after_symbolWrites p fb s 21 0 15 low',
    data_after_symbolWrites p fb s 5631 _⟩

section DataLatch

variable {t : List Event} {ls : Lines} (hle : ∀ v, Event.w .le v ∉ t) (low : (ls.after t).latchLow)
include low

/-- After a trace, a DataLatch adds one DCLK rising edge, with LE high and the data as the trace left them (R82). -/
theorem observe_dclk_rises_append_dataLatch :
    observe (seeRise .dclk) () ls (t ++ cmdTrace .dataLatch) =
      observe (seeRise .dclk) () ls t ++ [((ls.after t).set .le true).set .dclk true] := by
  rw [observe_append, observed_seeRise, observe_dclk_rises_cmdTrace _ low]
  rfl

include hle

/-- A trace that never writes LE has one LE pulse with the DataLatch after it. -/
theorem observe_le_rises_append_dataLatch :
    observe (seeRise .le) () ls (t ++ cmdTrace .dataLatch) = [(ls.after t).set .le true] := by
  rw [observe_append, observe_seeRise_of_notMem hle, observed_seeRise, observe_le_rises_cmdTrace _ low,
    List.nil_append]

/-- A trace that writes neither LE nor GCLK, met with LE low, is read with the DataLatch after it as one shift for each DCLK
rising edge, the latch's own included, and then the latch (R92 (2), (3)). -/
theorem observe_receive_append_dataLatch (hgclk : ∀ v, Event.w .gclk v ∉ t) (hlow : ls.le = false) :
    observe receive [] ls (t ++ cmdTrace .dataLatch) =
      (observe (seeRise .dclk) () ls (t ++ cmdTrace .dataLatch)).map (fun u => .shift u.data) ++ [.command 1] := by
  obtain ⟨shifts, held⟩ := observe_receive_of_notMem hle hgclk [] ls
  simp only [hlow, Bool.false_eq_true, if_false, List.append_nil] at shifts held
  rw [observe_dclk_rises_append_dataLatch low, observe_append, shifts, held, (observe_receive_cmdTrace _ low).1,
    intervalRead_replicate_count]
  simp [Command.count]

end DataLatch

/-- DCLK's samples in SDATA met with LE and DCLK low: the symbols in the order of their numbers, LE high at the last only
(R136). -/
theorem dclkSamples_sdataTrace (p : Params) (fb : Memory) (s : Nat) {ls : Lines} (low : ls.latchLow) :
    dclkSamples (waveform ls (sdataTrace p fb s)) =
      (List.range 5632).map fun q => (decide (q = 5631), symbolBits p fb s q) := by
  obtain ⟨seen, low', data⟩ := observe_seeSample_sdataShifts p fb s low
  have hbelow : (List.range 5631).map (fun q => (decide (q = 5631), symbolBits p fb s q)) =
      (List.range 5631).map fun q => (false, symbolBits p fb s q) :=
    List.map_congr_left fun q hq => by
      rw [decide_eq_false (Nat.ne_of_lt (List.mem_range.mp hq))]
  rw [List.range_succ, List.map_append, List.map_singleton, hbelow, ← seen, observe_seeSample, ← data, dclkSamples,
    risingEdges_waveform, sdataTrace_eq_shifts_dataLatch, observe_dclk_rises_append_dataLatch low',
    List.map_append, List.map_singleton, Lines.le_set_dclk, Lines.le_set_le, Lines.data_set_dclk,
    Lines.data_set_le, decide_eq_true rfl]

/-- Settles O27: SDATA is its shifts and a DataLatch, so that each clause is a fact about a trace with LE low throughout and
the DataLatch after it. -/
theorem scanlineDataWaveform : Obligations.ScanlineDataWaveform := by
  intro p fb s ls hle hdclk
  have low : ls.latchLow := ⟨hle, hdclk⟩
  obtain ⟨-, low', -⟩ := observe_seeSample_sdataShifts p fb s low
  have hnoLe := write_notMem_sdataShifts p fb s (.inl rfl)
  refine ⟨dclkSamples_sdataTrace p fb s low, ?_, (sendsCommands_sdataTrace p fb s).commandsSeen low, ?_⟩
  · rw [pulseCount, risingEdges_waveform, sdataTrace_eq_shifts_dataLatch,
      observe_le_rises_append_dataLatch hnoLe low', List.length_singleton]
  · rw [received_waveform, dclkSamples, risingEdges_waveform, List.map_map, sdataTrace_eq_shifts_dataLatch]
    exact observe_receive_append_dataLatch hnoLe low' (write_notMem_sdataShifts p fb s (.inr rfl)) hle

end Sys2Proof.Machine
end

/-! The requests that have no effect (R87, R151). -/
section

namespace Sys2Proof.Machine

/-- A request that its lifecycle does not admit leaves the state as it is (R87). -/
theorem State.request_of_not_admitted (s : State) (op : Op) {admitted : Prop} [Decidable admitted] (h : ¬admitted) :
    s.request op (decide admitted) = s := by
  simp [State.request, h]

/-- Settles O31: the reserved request has no meaning but the state itself, and the other three are requests that are not
admitted. -/
theorem otherRequestsHaveNoEffect : Obligations.OtherRequestsHaveNoEffect := by
  intro s _
  have init (h : s.lifecycle ≠ .uninitialized) : exec .init s = .next s :=
    congrArg Host.Outcome.next (s.request_of_not_admitted .init h)
  have refresh (h : s.lifecycle ≠ .configured) : exec .refresh s = .next s :=
    congrArg Host.Outcome.next (s.request_of_not_admitted .refresh h)
  have teardown (h : s.lifecycle = .teardown) : exec .teardown s = .next s :=
    congrArg Host.Outcome.next (s.request_of_not_admitted .teardown (not_not.2 h))
  exact ⟨rfl, init, refresh, fun h => ⟨init (by simp [h]), refresh (by simp [h]), teardown h⟩⟩

end Sys2Proof.Machine
end

/-! The waveform of a frame: the clock edges of its data and of its scan pass, in order (R156). -/
section

namespace Sys2Proof.Machine

theorem clockLine_injective : Function.Injective clockLine := by
  rintro (_ | _) (_ | _) h <;> trivial

theorem Lines.idle_iff {ls : Lines} : ls.idle = true ↔ ls.gclk = false ∧ ls.dclk = false ∧ ls.le = false := by
  simp [Lines.idle, and_assoc]

/-- While the other clock is quiet, the clock edges are those of the one clock. -/
theorem seeClock_of_kept {c : Clock} {a b : Lines} (h : ∀ d, d ≠ c → b.get (clockLine d) = a.get (clockLine d)) :
    seeClock () a b = ((), (seeRise (clockLine c) () a b).2.map (Prod.mk c)) := by
  cases c with
  | gclk =>
    have hdclk : b.dclk = a.dclk := h .dclk nofun
    by_cases rise : (!a.gclk && b.gclk) = true <;> simp [seeClock, seeRise, clockLine, Lines.get, hdclk, rise]
  | dclk =>
    have hgclk : b.gclk = a.gclk := h .gclk nofun
    by_cases rise : (!a.dclk && b.dclk) = true <;> simp [seeClock, seeRise, clockLine, Lines.get, hgclk, rise]

@[simp] theorem observed_seeClock (ls : Lines) (t : List Event) : observed seeClock () ls t = () := rfl

theorem observed_seeSample (ls : Lines) (t : List Event) : observed seeSample () ls t = () := rfl

/-- A trace that writes one clock only shows that clock's rising edges and no others. -/
theorem observe_seeClock_of_notMem {c : Clock} {t : List Event}
    (h : ∀ d, d ≠ c → ∀ v, Event.w (clockLine d) v ∉ t) (ls : Lines) :
    observe seeClock () ls t = (observe (seeRise (clockLine c)) () ls t).map (Prod.mk c) := by
  induction t generalizing ls with
  | nil => rfl
  | cons e t ih =>
    have ih := ih fun d hd v hv => h d hd v (List.mem_cons_of_mem e hv)
    cases e with
    | h k => exact ih ls
    | clr => exact ih ls
    | w k v =>
      have kept : ∀ d, d ≠ c → (ls.set k v).get (clockLine d) = ls.get (clockLine d) := fun d hd =>
        Lines.get_set_ne ls k _ v (by rintro rfl; exact h d hd v List.mem_cons_self)
      simp only [observe, seeClock_of_kept kept, ih, seeRise_state, List.map_append]

/-- A trace that never writes GCLK shows the DCLK rising edges and no others. -/
theorem observe_seeClock_of_gclk_notMem {t : List Event} (h : ∀ v, Event.w .gclk v ∉ t) (ls : Lines) :
    observe seeClock () ls t = (observe (seeRise .dclk) () ls t).map (Prod.mk .dclk) :=
  observe_seeClock_of_notMem (c := .dclk) (fun d hd => by
    cases d with
    | gclk => exact h
    | dclk => exact absurd rfl hd) ls

/-- A command writes LE and DCLK only (R111). -/
theorem gclk_notMem_cmdTrace (c : Command) (v : Bool) : Event.w .gclk v ∉ cmdTrace c := by
  simp [cmdTrace, write_notMem_pulseTraces (c := .dclk) (l := .gclk) nofun]

/-- The GCLK pulses of a waveform are its GCLK clock edges. -/
theorem risingEdges_gclk_eq_clockEdges (ws : List Lines) :
    risingEdges .gclk ws = ((clockEdges ws).filter fun e => e.1 = .gclk).map Prod.snd := by
  induction ws with
  | nil => rfl
  | cons a ws ih =>
    cases ws with
    | nil => rfl
    | cons b ws =>
      rw [risingEdges, clockEdges, ih]
      by_cases gclk : (!a.gclk && b.gclk) = true
      · simp [Lines.get, gclk]
      · by_cases dclk : (!a.dclk && b.dclk) = true <;> simp [Lines.get, gclk, dclk]

/-- LE rises and falls in turn: a trace's commands, each of which ends with LE falling, are as many as its LE pulses, but for
an interval open at the start or at the end (R92). -/
theorem length_le_rises (n : Nat) (ls : Lines) (t : List Event) :
    (observe (seeRise .le) () ls t).length + ls.le.toNat =
      (observe seeCommand n ls t).length + (ls.after t).le.toNat := by
  induction t generalizing n ls with
  | nil => simp [observe]
  | cons e t ih =>
    cases e with
    | h k => exact ih n ls
    | clr => exact ih n ls
    | w k v =>
      have step : (seeRise .le () ls (ls.set k v)).2.length + ls.le.toNat =
          (seeCommand n ls (ls.set k v)).2.length + (ls.set k v).le.toNat := by
        unfold seeRise seeCommand Lines.get
        cases ls.le <;> cases (ls.set k v).le <;> simp [apply_ite Prod.snd]
      have ih := ih (seeCommand n ls (ls.set k v)).1 (ls.set k v)
      simp only [observe, List.length_append, Lines.after_w, seeRise_state]
      omega

/-- A trace met with LE and DCLK low has one LE pulse for each of its commands (R92). -/
theorem SendsCommands.pulseCount_le {t : List Event} {cs : List Nat} (h : SendsCommands t cs) {ls : Lines}
    (low : ls.latchLow) : pulseCount .le (waveform ls t) = cs.length := by
  obtain ⟨seen, -, low'⟩ := h ls low
  have count := length_le_rises 0 ls t
  rw [seen, low.1, low'.1] at count
  rw [pulseCount, risingEdges_waveform]
  exact count

/-- Blocks that are all n copies of one element are that many copies of it. -/
theorem flatMap_replicate_const {α β : Type} (l : List α) (n : Nat) (x : β) :
    l.flatMap (fun _ => List.replicate n x) = List.replicate (l.length * n) x := by
  simp [List.flatMap_def]

/-- The data part of a frame: the data of every scanline (R146). -/
def frameData (p : Params) (fb : Memory) : List Event := (List.range Config.scanlines).flatMap (sdataTrace p fb)

/-- The data part never writes GCLK. -/
theorem gclk_notMem_frameData (p : Params) (fb : Memory) (v : Bool) : Event.w .gclk v ∉ frameData p fb := by
  simp only [frameData, sdataTrace_eq_shifts_dataLatch, List.mem_flatMap, List.mem_append, not_exists, not_and, not_or]
  exact fun s _ => ⟨write_notMem_sdataShifts p fb s (.inr rfl) v, gclk_notMem_cmdTrace .dataLatch v⟩

/-- The data part met with all clocks and the latch low has a DCLK pulse for each symbol of the eleven scanlines, 11 * 5632 of
them, and leaves these lines low (R136, R156). -/
theorem observe_dclk_rises_frameData (p : Params) (fb : Memory) {ls : Lines} (idle : ls.idle = true) :
    (observe (seeRise .dclk) () ls (frameData p fb)).length = 61952 ∧ (ls.after (frameData p fb)).idle = true := by
  obtain ⟨samples, -, idle'⟩ := observe_flatMap seeSample (fun u => u.idle = true) (sdataTrace p fb)
    (fun s => (List.range 5632).map fun q => (decide (q = 5631), symbolBits p fb s q)) () (List.range Config.scanlines)
    (fun s _ u hu => by
      refine ⟨?_, observed_seeSample u _, ?_⟩
      · rw [observe_seeSample, ← risingEdges_waveform]
        exact dclkSamples_sdataTrace p fb s (Lines.latchLow_of_idle hu)
      · rw [after_sdataTrace, Lines.idle_iff]
        exact ⟨(Lines.idle_iff.1 hu).1, rfl, rfl⟩) ls idle
  have count := congrArg List.length samples
  rw [observe_seeSample, List.length_map, length_flatMap_const _ _ 5632 fun s _ => by simp, List.length_range] at count
  exact ⟨count, idle'⟩

/-- The lines with the address of a row, and at its GCLK edges. -/
def Lines.rowEdge (ls : Lines) (s : Nat) : Lines := (ls.after (scanTrace s)).set .gclk true

@[simp] theorem Lines.le_rowEdge (ls : Lines) (s : Nat) : (ls.rowEdge s).le = ls.le := rfl

/-- The address is what was written to it, if it exists (R77). -/
theorem Lines.address_rowEdge (ls : Lines) {s : Nat} (h : s < 11) : (ls.rowEdge s).address = s := by
  have bits : ∀ s < 11, (s.testBit 0).toNat + 2 * (s.testBit 1).toNat + 4 * (s.testBit 2).toNat +
    8 * (s.testBit 3).toNat = s := by decide
  exact bits s h

/-- The clock edges of the Vsync before the last pulse of scanline 10 (R145). -/
def vsyncEdges (row : Lines) (s : Nat) : List (Clock × Lines) :=
  if s = 10 then List.replicate 2 (.dclk, (row.set .le true).set .dclk true) else []

/-- The clock edges of a scan period: 256 GCLK pulses, on scanline 10 a Vsync, the 257th (R145). -/
def scanPeriodEdges (ls : Lines) (s : Nat) : List (Clock × Lines) :=
  List.replicate 256 (.gclk, ls.rowEdge s) ++ vsyncEdges (ls.after (scanTrace s)) s ++ [(.gclk, ls.rowEdge s)]

/-- A scan period's Vsync met with all clocks and the latch low: its DCLK edges, and the lines as before. -/
theorem observe_seeClock_vsync (s : Nat) {ls : Lines} (idle : ls.idle = true) :
    observe seeClock () ls (if lastScanline s then cmdTrace .vsync else []) = vsyncEdges ls s ∧
      ls.after (if lastScanline s then cmdTrace .vsync else []) = ls := by
  have low := Lines.latchLow_of_idle idle
  by_cases last : s = 10
  · have edges := observe_seeClock_of_gclk_notMem (gclk_notMem_cmdTrace .vsync) ls
    rw [observe_dclk_rises_cmdTrace .vsync low, List.map_replicate] at edges
    simp only [lastScanline, vsyncEdges, last, decide_true, if_true]
    exact ⟨edges, after_cmdTrace_of_latchLow .vsync low⟩
  · simp [lastScanline, vsyncEdges, last, observe]

/-- GCLK pulses met with GCLK low: that many GCLK edges, and the lines as before (R103). -/
theorem observe_seeClock_gclk_pulses (n : Nat) {ls : Lines} (low : ls.gclk = false) :
    observe seeClock () ls (pulseTraces .gclk n) = List.replicate n (.gclk, ls.set .gclk true) ∧
      ls.after (pulseTraces .gclk n) = ls := by
  obtain ⟨rises, same⟩ := observe_rises_pulseTraces .gclk n (ls := ls) low
  rw [observe_seeClock_of_notMem fun d hd => write_notMem_pulseTraces (clockLine_injective.ne hd) n, rises,
    List.map_replicate]
  exact ⟨rfl, same⟩

/-- A scan period met with all clocks and the latch low: its edges, and of the lines only the address is new (R145). -/
theorem observe_seeClock_scanPeriodTrace (s : Nat) {ls : Lines} (idle : ls.idle = true) :
    observe seeClock () ls (scanPeriodTrace s) = scanPeriodEdges ls s ∧
      ls.after (scanPeriodTrace s) = ls.after (scanTrace s) := by
  have idle' : (ls.after (scanTrace s)).idle = true := idle
  have low := (Lines.idle_iff.1 idle').1
  have address : observe seeClock () ls (scanTrace s) = [] := by simp [scanTrace, observe, seeClock, Lines.set]
  obtain ⟨pulses, same⟩ := observe_seeClock_gclk_pulses 256 low
  obtain ⟨vsync, same'⟩ := observe_seeClock_vsync s idle'
  obtain ⟨pulse, same''⟩ := observe_seeClock_gclk_pulses 1 low
  rw [show pulseTraces .gclk 1 = pulseTrace .gclk from rfl] at pulse same''
  simp only [scanPeriodTrace, observe_append, Lines.after_append, observed_seeClock, Lines.after_h, Lines.after_nil,
    observe, List.append_nil, address, pulses, same, vsync, same', pulse, same'']
  exact ⟨rfl, trivial⟩

/-- Scan periods met with all clocks and the latch low: the edges of one after another, each on the lines as first met but for
the address. -/
theorem observe_seeClock_scanPeriodTraces (l : List Nat) {ls : Lines} (idle : ls.idle = true) :
    observe seeClock () ls (l.flatMap scanPeriodTrace) = l.flatMap (scanPeriodEdges ls) := by
  refine (observe_flatMap seeClock (fun u => u.after (scanTrace 0) = ls.after (scanTrace 0)) scanPeriodTrace
    (scanPeriodEdges ls) () l (fun s _ u hu => ?_) ls rfl).1
  have idle' : u.idle = true :=
    calc u.idle = (u.after (scanTrace 0)).idle := rfl
      _ = true := by rw [hu]; exact idle
  have row : u.after (scanTrace s) = ls.after (scanTrace s) :=
    calc u.after (scanTrace s) = (u.after (scanTrace 0)).after (scanTrace s) := rfl
      _ = ls.after (scanTrace s) := by rw [hu]; rfl
  obtain ⟨edges, same⟩ := observe_seeClock_scanPeriodTrace s idle'
  rw [edges, same, row]
  exact ⟨by simp only [scanPeriodEdges, Lines.rowEdge, row], observed_seeClock u _, rfl⟩

/-- The clock edges of a frame met with all clocks and the latch low: those of DCLK in the data part, then those of the
scan periods (R156). -/
theorem clockEdges_refreshTrace (p : Params) (fb : Memory) {ls : Lines} (idle : ls.idle = true) :
    clockEdges (waveform ls (refreshTrace p fb)) =
      (observe (seeRise .dclk) () ls (frameData p fb)).map (Prod.mk .dclk) ++
        (List.range 11).flatMap (scanPeriodEdges (ls.after (frameData p fb))) := by
  rw [clockEdges_waveform, show refreshTrace p fb = frameData p fb ++ (List.range 11).flatMap scanPeriodTrace from rfl,
    observe_append, observe_seeClock_of_gclk_notMem (gclk_notMem_frameData p fb), observed_seeClock,
    observe_seeClock_scanPeriodTraces _ (observe_dclk_rises_frameData p fb idle).2]

/-- The clocks of a scan period's edges, in order. -/
theorem clocks_scanPeriodEdges (ls : Lines) (s : Nat) :
    (scanPeriodEdges ls s).map Prod.fst =
      if s = 10 then List.replicate 256 .gclk ++ [.dclk, .dclk, .gclk] else List.replicate 257 .gclk := by
  rw [scanPeriodEdges, vsyncEdges, List.map_append, List.map_append, List.map_replicate]
  split
  · exact List.append_assoc ..
  · exact (congrArg (· ++ _) (List.append_nil _)).trans List.replicate_succ'.symm

/-- The clocks of the scan pass: GCLK's only up to the Vsync before the last edge. -/
theorem clocks_scanPass (ls : Lines) :
    ((List.range 11).flatMap (scanPeriodEdges ls)).map Prod.fst =
      List.replicate 2826 .gclk ++ [.dclk, .dclk, .gclk] := by
  have first : (List.range 10).flatMap (fun s => (scanPeriodEdges ls s).map Prod.fst) = List.replicate 2570 .gclk := by
    rw [List.flatMap_congr fun s hs => by
      rw [clocks_scanPeriodEdges, if_neg (Nat.ne_of_lt (List.mem_range.mp hs))],
      flatMap_replicate_const, List.length_range]
  rw [List.map_flatMap, flatMap_range_succ, first, clocks_scanPeriodEdges, if_pos rfl, ← List.append_assoc,
    List.replicate_append_replicate]

/-- GCLK's edges in a scan period are its 257 pulses, all on its row. -/
theorem gclk_scanPeriodEdges (ls : Lines) (s : Nat) :
    ((scanPeriodEdges ls s).filter fun e => e.1 = .gclk).map Prod.snd = List.replicate 257 (ls.rowEdge s) := by
  have vsync : (vsyncEdges (ls.after (scanTrace s)) s).filter (fun e => e.1 = .gclk) = [] := by
    rw [vsyncEdges]; split <;> rfl
  rw [scanPeriodEdges, List.filter_append, List.filter_append, vsync, List.filter_replicate_of_pos rfl, List.append_nil,
    List.map_append, List.map_replicate]
  exact List.replicate_succ'.symm

/-- The GCLK pulses of a frame met with all clocks and the latch low: 257 on each row, after its data (R145, R156). -/
theorem risingEdges_gclk_refreshTrace (p : Params) (fb : Memory) {ls : Lines} (idle : ls.idle = true) :
    risingEdges .gclk (waveform ls (refreshTrace p fb)) =
      (List.range 11).flatMap fun s => List.replicate 257 ((ls.after (frameData p fb)).rowEdge s) := by
  rw [risingEdges_gclk_eq_clockEdges, clockEdges_refreshTrace p fb idle, List.filter_append, List.filter_map]
  simp only [Function.comp_def, reduceCtorEq, decide_false, List.filter_false, List.map_nil, List.nil_append,
    List.filter_flatMap, List.map_flatMap, gclk_scanPeriodEdges]

/-- Settles O37: the clock edges of a frame are its data's, on DCLK, and then its scan periods'; the LE pulses are its
commands, one each. -/
theorem refreshWaveform : Obligations.RefreshWaveform := by
  intro p fb ls hgclk hdclk hle
  have idle : ls.idle = true := Lines.idle_iff.2 ⟨hgclk, hdclk, hle⟩
  have low := Lines.latchLow_of_idle idle
  obtain ⟨count, idle'⟩ := observe_dclk_rises_frameData p fb idle
  have gclk := risingEdges_gclk_refreshTrace p fb idle
  refine ⟨?_, ?_, ?_, (sendsCommands_refreshTrace p fb).commandsSeen low, ?_,
    (sendsCommands_refreshTrace p fb).pulseCount_le low⟩
  · rw [clockEdges_refreshTrace p fb idle, List.map_append, clocks_scanPass, List.map_map, List.append_assoc]
    exact congrArg (· ++ _) (List.map_const'.trans (congrArg (List.replicate · _) count))
  · intro v hv
    rw [gclk] at hv
    obtain ⟨s, -, hv⟩ := List.mem_flatMap.mp hv
    rw [List.eq_of_mem_replicate hv, Lines.le_rowEdge, (Lines.idle_iff.1 idle').2.2]
  · rw [gclkAddresses, gclk, List.map_flatMap]
    refine List.flatMap_congr fun s hs => ?_
    rw [List.map_replicate, Lines.address_rowEdge _ (List.mem_range.mp hs)]
  · rw [pulseCount, gclk, length_flatMap_const _ _ 257 fun s _ => List.length_replicate, List.length_range]

end Sys2Proof.Machine
end

/-! CLEAR and FILLRECT of an idle block, pixel by pixel (R161, R163). -/
section

namespace Sys2Proof.Machine

/-- CLEAR of an idle block is the buffer's clear (R161). -/
theorem exec_clear_of_idle {s : State} (hb : s.busy = false) : exec .clear s = .next { s with fb := s.fb.clear } :=
  congrArg Host.Outcome.next (State.hostWrite_of_idle hb _)

/-- FILLRECT of an idle block is the buffer's fill (R163). -/
theorem exec_fillrect_of_idle {s : State} (hb : s.busy = false) (x1 y1 x2 y2 : Nat) (r g b : Channel) :
    exec (.fillrect x1 y1 x2 y2 r g b) s = .next { s with fb := s.fb.fillRect x1 y1 x2 y2 ⟨r, g, b⟩ } :=
  congrArg Host.Outcome.next (State.hostWrite_of_idle hb _)

/-- CLR makes the same buffer as CLEAR (R19, R161). -/
theorem exec_clr_fb (s : State) : ∃ u, exec .clr s = .next u ∧ u.fb = s.fb.clear :=
  ⟨_, rfl, (State.emit_fb s .clr).trans (if_pos rfl)⟩

/-- Settles O44: the cleared buffer is the same whatever was there before, so that a second clear finds it as it is. -/
theorem clearZeroesEveryPixel : Obligations.ClearZeroesEveryPixel := fun s hb =>
  have idle : ({ s with fb := s.fb.clear } : State).busy = false := hb
  ⟨_, exec_clear_of_idle hb, Memory.fbRead_clear s.fb, rfl, exec_clear_of_idle idle, exec_clr_fb s⟩

theorem mem_upTo {a b x : Nat} : x ∈ upTo a b ↔ a ≤ x ∧ x ≤ b := by
  rw [upTo, List.mem_range'_1]
  omega

/-- If each operation of a fold writes p to a pixel or leaves it alone, the pixel reads p as soon as one of them writes it. -/
theorem Memory.fbRead_foldl {α : Type} {f : Memory → α → Memory} {x y : Nat} {p : Pixel} {writes : α → Prop}
    [DecidablePred writes] (keeps : ∀ m a, m.wf = true → (f m a).wf = true)
    (reads : ∀ m a, m.wf = true → (f m a).fbRead x y = if writes a then p else m.fbRead x y) (l : List α) {m : Memory}
    (hwf : m.wf = true) : (l.foldl f m).fbRead x y = if ∃ a ∈ l, writes a then p else m.fbRead x y := by
  induction l generalizing m with
  | nil => simp
  | cons a l ih =>
    rw [List.foldl_cons, ih (keeps m a hwf), reads m a hwf]
    by_cases ha : writes a <;> simp [ha]

/-- A filled row, seen through the guarded read (R163). -/
theorem Memory.fbRead_fillRow {m : Memory} (hwf : m.wf = true) (x1 xe row x y : Nat) (p : Pixel) :
    (m.fillRow x1 xe row p).fbRead x y =
      if y = row ∧ x1 ≤ x ∧ x ≤ xe ∧ inGrid x y = true then p else m.fbRead x y := by
  refine (Memory.fbRead_foldl (fun _ _ h => Memory.wf_fbWrite h _ _ _)
    (fun _ a h => Memory.fbRead_fbWrite h a row x y p) _ hwf).trans (if_congr ?_ rfl rfl)
  simp only [mem_upTo, Bool.and_eq_true, beq_iff_eq]
  constructor
  · rintro ⟨_, ⟨hlo, hhi⟩, ⟨hgrid, rfl⟩, rfl⟩
    exact ⟨rfl, hlo, hhi, hgrid⟩
  · rintro ⟨rfl, hlo, hhi, hgrid⟩
    exact ⟨x, ⟨hlo, hhi⟩, ⟨hgrid, rfl⟩, rfl⟩

/-- A filled rectangle, seen through the guarded read; what the clamp leaves lies in the grid (R163). -/
theorem Memory.fbRead_fillRect {m : Memory} (hwf : m.wf = true) (x1 y1 x2 y2 x y : Nat) (p : Pixel) :
    (m.fillRect x1 y1 x2 y2 p).fbRead x y =
      if x1 ≤ x ∧ x ≤ min x2 87 ∧ y1 ≤ y ∧ y ≤ min y2 87 then p else m.fbRead x y := by
  refine (Memory.fbRead_foldl (fun _ _ h => Memory.wf_fillRow h _ _ _ _)
    (fun _ row h => Memory.fbRead_fillRow h x1 _ row x y p) _ hwf).trans (if_congr ?_ rfl rfl)
  simp only [mem_upTo, inGrid_iff, Config.width, Config.height]
  constructor
  · rintro ⟨_, ⟨ylo, yhi⟩, rfl, xlo, xhi, -⟩
    exact ⟨xlo, xhi, ylo, yhi⟩
  · rintro ⟨xlo, xhi, ylo, yhi⟩
    exact ⟨y, ⟨ylo, yhi⟩, rfl, xlo, xhi, by omega⟩

/-- Settles O46: the fill is a fold of filled rows, each a fold of guarded writes (`Memory.fbRead_fillRect`). -/
theorem fillRectFillsTheClampedRectangle : Obligations.FillRectFillsTheClampedRectangle :=
  fun x1 y1 x2 y2 r g b _ hb hwf =>
    ⟨_, exec_fillrect_of_idle hb x1 y1 x2 y2 r g b, rfl,
      fun x y => Memory.fbRead_fillRect hwf x1 y1 x2 y2 x y ⟨r, g, b⟩⟩

end Sys2Proof.Machine
end

/-! The decoder and the encoder undo each other, format by format (R72 to R89; the layout is log 1). -/
section

namespace Sys2Proof

open Machine (commandOfCount_of_reserved)

/-- What the decoder makes of the fields behind a format byte. -/
def Format.decodeFields : Format → List Byte → Except DecodeError Instr
  | .req => decodeReq
  | .cmd => decodeCmd
  | .cfgFrame => decodeCfg
  | .addr => decodeAddr
  | .sdata => decodeSdata
  | .symbol => decodeSymbol
  | .scanPeriod => decodeScanPeriod
  | .event => decodeEvent
  | .fbOp => decodeFbOp

/-- A word whose first byte names a format is decoded by that format. -/
theorem decode_of_ofCode {b : Byte} {f : Format} (h : Format.ofCode b = some f) (fields : List Byte) :
    decode (b :: fields) = f.decodeFields fields := by
  simp only [decode, h]
  cases f <;> rfl

/-- A word that decodes has a first byte that names a format. -/
theorem exists_format_of_decode {bs : List Byte} {i : Instr} (h : decode bs = .ok i) :
    ∃ (f : Format) (fields : List Byte), bs = f.code :: fields ∧ f.decodeFields fields = .ok i := by
  cases bs with
  | nil => cases h
  | cons b fields =>
    cases hf : Format.ofCode b with
    | none => simp [decode, hf] at h
    | some f => exact ⟨f, fields, by rw [Format.code_of_ofCode hf], decode_of_ofCode hf fields ▸ h⟩

/-- The fields of a well-formed instruction's word decode to the instruction. -/
theorem decodeFields_encodeFields (i : Instr) (h : i.wellFormed = true) :
    i.format.decodeFields (encodeFields i) = .ok i := by
  cases i
  case cmdReserved n =>
    simp only [Instr.wellFormed, Bool.and_eq_true, decide_eq_true_eq] at h
    obtain ⟨reserved, hn⟩ := h
    simp [Instr.format, Format.decodeFields, encodeFields, decodeCmd, Nat.mod_eq_of_lt hn,
      commandOfCount_of_reserved reserved]
  case cfg v => simp [Instr.format, Format.decodeFields, encodeFields, halfBytes, decodeCfg]
  case scan a => simp [Instr.format, Format.decodeFields, encodeFields, decodeAddr, Except.map]
  case sdata s => simp [Instr.format, Format.decodeFields, encodeFields, decodeSdata, Except.map]
  case scanPeriod s => simp [Instr.format, Format.decodeFields, encodeFields, decodeScanPeriod, Except.map]
  case sdataSymbol s ic plane led => simp [Instr.format, Format.decodeFields, encodeFields, decodeSymbol]
  case w l v => simp [Instr.format, Format.decodeFields, encodeFields, decodeEvent]
  case h k => simp [Instr.format, Format.decodeFields, encodeFields, decodeEvent, Except.map]
  case pulse c => simp [Instr.format, Format.decodeFields, encodeFields, decodeEvent, Except.map]
  case setpx x y r g b =>
    simp only [Instr.wellFormed, fitsPort, Bool.and_eq_true, decide_eq_true_eq] at h
    simp [Instr.format, Format.decodeFields, encodeFields, coordBytes, halfBytes, decodeFbOp, coordOf_coordBytes, h]
  case fillrect x1 y1 x2 y2 r g b =>
    simp only [Instr.wellFormed, fitsPort, Bool.and_eq_true, decide_eq_true_eq] at h
    simp [Instr.format, Format.decodeFields, encodeFields, coordBytes, halfBytes, decodeFbOp, coordOf_coordBytes, h]
  case text cs => simp [Instr.format, Format.decodeFields, encodeFields, decodeFbOp, Except.map]
  case fbread x y =>
    simp only [Instr.wellFormed, fitsPort, Bool.and_eq_true, decide_eq_true_eq] at h
    simp [Instr.format, Format.decodeFields, encodeFields, coordBytes, halfBytes, decodeFbOp, coordOf_coordBytes, h]
  all_goals rfl

/-- Settles O2: the format byte names the format, and each format's fields are read back as they were written. -/
theorem decodeOfEncodeIsTheInstruction : Obligations.DecodeOfEncodeIsTheInstruction := fun i h =>
  (decode_of_ofCode (Format.ofCode_code i.format) _).trans (decodeFields_encodeFields i h)

/-- The fields are those of an instruction of the format. -/
def FieldsOf (f : Format) (fields : List Byte) (i : Instr) : Prop := i.format = f ∧ encodeFields i = fields

theorem fieldsOf_of_decodeReq {bs : List Byte} {i : Instr} (h : decodeReq bs = .ok i) : FieldsOf .req bs i := by
  unfold decodeReq at h
  split at h
  · rename_i b
    split at h <;> cases h <;> refine ⟨rfl, congrArg (fun b => [b]) (BitVec.eq_of_toNat_eq ?_)⟩ <;> simp_all
  · cases h

theorem fieldsOf_commandOfCount (b : Byte) : FieldsOf .cmd [b] (commandOfCount b.toNat) := by
  have fields {n : Nat} (h : b.toNat = n) : [BitVec.ofNat 8 n] = [b] := by simp [← h]
  unfold commandOfCount
  split_ifs with h1 h2 h4 h10 h14
  · exact ⟨rfl, fields h1⟩
  · exact ⟨rfl, fields h2⟩
  · exact ⟨rfl, fields h4⟩
  · exact ⟨rfl, fields h10⟩
  · exact ⟨rfl, fields h14⟩
  · exact ⟨rfl, fields rfl⟩

theorem fieldsOf_of_decodeCmd {bs : List Byte} {i : Instr} (h : decodeCmd bs = .ok i) : FieldsOf .cmd bs i := by
  unfold decodeCmd at h
  split at h <;> cases h
  exact fieldsOf_commandOfCount _

theorem fieldsOf_of_decodeCfg {bs : List Byte} {i : Instr} (h : decodeCfg bs = .ok i) : FieldsOf .cfgFrame bs i := by
  unfold decodeCfg at h
  split at h <;> cases h
  simp [FieldsOf, Instr.format, encodeFields, halfBytes]

theorem exists_ok_of_map {ε α β : Type} {x : Except ε α} {g : α → β} {b : β} (h : x.map g = .ok b) :
    ∃ a, x = .ok a ∧ g a = b := by
  cases x with
  | error e => cases h
  | ok a => exact ⟨a, rfl, Except.ok.inj h⟩

/-- A format of one field of four bits drops none of them. -/
theorem fieldsOf_of_fourBits {f : Format} {mk : BitVec 4 → Instr} (hmk : ∀ a, FieldsOf f [a.setWidth 8] (mk a))
    {b : Byte} {i : Instr} (h : (fourBits f b).map mk = .ok i) : FieldsOf f [b] i := by
  obtain ⟨a, ha, rfl⟩ := exists_ok_of_map h
  exact setWidth_of_fourBits ha ▸ hmk a

theorem fieldsOf_of_decodeAddr {bs : List Byte} {i : Instr} (h : decodeAddr bs = .ok i) : FieldsOf .addr bs i := by
  unfold decodeAddr at h
  split at h
  · exact fieldsOf_of_fourBits (mk := .scan) (fun _ => ⟨rfl, rfl⟩) h
  · cases h

theorem fieldsOf_of_decodeSdata {bs : List Byte} {i : Instr} (h : decodeSdata bs = .ok i) : FieldsOf .sdata bs i := by
  unfold decodeSdata at h
  split at h
  · exact fieldsOf_of_fourBits (mk := .sdata) (fun _ => ⟨rfl, rfl⟩) h
  · cases h

theorem fieldsOf_of_decodeScanPeriod {bs : List Byte} {i : Instr} (h : decodeScanPeriod bs = .ok i) :
    FieldsOf .scanPeriod bs i := by
  unfold decodeScanPeriod at h
  split at h
  · exact fieldsOf_of_fourBits (mk := .scanPeriod) (fun _ => ⟨rfl, rfl⟩) h
  · cases h

theorem fieldsOf_of_decodeSymbol {bs : List Byte} {i : Instr} (h : decodeSymbol bs = .ok i) :
    FieldsOf .symbol bs i := by
  unfold decodeSymbol at h
  split at h
  · split at h <;> cases h
    rename_i hs hic hplane hled
    simp only [FieldsOf, Instr.format, encodeFields, setWidth_of_fourBits hs, setWidth_of_fiveBits hic,
      setWidth_of_fourBits hplane, setWidth_of_fourBits hled, and_self]
  · cases h

/-- An operation byte is the one its number says. -/
theorem byte_of_toNat {k : Byte} {n : Nat} (h : k.toNat = n) : BitVec.ofNat 8 n = k := by simp [← h]

theorem fieldsOf_of_decodeEvent {bs : List Byte} {i : Instr} (h : decodeEvent bs = .ok i) : FieldsOf .event bs i := by
  unfold decodeEvent at h
  split at h
  · cases h
  · rename_i k rest
    split at h
    · rename_i l v hk
      split at h <;> cases h
      rename_i hl hv
      refine ⟨rfl, ?_⟩
      rw [encodeFields, lineCode_of_lineOfCode hl, levelCode_of_levelOfCode hv, ← byte_of_toNat hk]
      rfl
    · rename_i b hk
      obtain ⟨a, ha, rfl⟩ := exists_ok_of_map h
      refine ⟨rfl, ?_⟩
      rw [encodeFields, holdCode_of_holdOfCode ha, ← byte_of_toNat hk]
      rfl
    · rename_i b hk
      obtain ⟨a, ha, rfl⟩ := exists_ok_of_map h
      refine ⟨rfl, ?_⟩
      rw [encodeFields, clockCode_of_clockOfCode ha, ← byte_of_toNat hk]
      rfl
    · rename_i hk
      cases h
      exact ⟨rfl, congrArg (fun k => [k]) (byte_of_toNat hk)⟩
    · split at h <;> cases h

theorem fieldsOf_of_decodeFbOp {bs : List Byte} {i : Instr} (h : decodeFbOp bs = .ok i) : FieldsOf .fbOp bs i := by
  unfold decodeFbOp at h
  split at h
  · cases h
  · rename_i k rest
    split at h
    · rename_i hk
      cases h
      exact ⟨rfl, congrArg (fun k => [k]) (byte_of_toNat hk)⟩
    · rename_i hk
      cases h
      simp [FieldsOf, Instr.format, encodeFields, coordBytes_coordOf, halfBytes, ← byte_of_toNat hk]
    · rename_i hk
      cases h
      simp [FieldsOf, Instr.format, encodeFields, coordBytes_coordOf, halfBytes, ← byte_of_toNat hk]
    · rename_i hk
      obtain ⟨cs, hcs, rfl⟩ := exists_ok_of_map h
      simp [FieldsOf, Instr.format, encodeFields, charBytes_of_decodeChars _ _ hcs, ← byte_of_toNat hk]
    · rename_i hk
      cases h
      simp [FieldsOf, Instr.format, encodeFields, coordBytes_coordOf, ← byte_of_toNat hk]
    · split at h <;> cases h

/-- Fields that a format reads as an instruction are that instruction's. -/
theorem fieldsOf_of_decodeFields {f : Format} {fields : List Byte} {i : Instr} (h : f.decodeFields fields = .ok i) :
    FieldsOf f fields i := by
  cases f with
  | req => exact fieldsOf_of_decodeReq h
  | cmd => exact fieldsOf_of_decodeCmd h
  | cfgFrame => exact fieldsOf_of_decodeCfg h
  | addr => exact fieldsOf_of_decodeAddr h
  | sdata => exact fieldsOf_of_decodeSdata h
  | symbol => exact fieldsOf_of_decodeSymbol h
  | scanPeriod => exact fieldsOf_of_decodeScanPeriod h
  | event => exact fieldsOf_of_decodeEvent h
  | fbOp => exact fieldsOf_of_decodeFbOp h

/-- Settles O3: the format byte is that of the instruction's format, and no format drops a bit of its fields. -/
theorem encodeOfDecodedIsTheWord : Obligations.EncodeOfDecodedIsTheWord := by
  intro bs i h
  obtain ⟨f, fields, rfl, hfields⟩ := exists_format_of_decode h
  obtain ⟨rfl, rfl⟩ := fieldsOf_of_decodeFields hfields
  rfl

/-- Settles O1: the words' bytes are those of the codes the spec writes out, so that the decoder computes each of them. -/
theorem writtenOutWordsDecode : Obligations.WrittenOutWordsDecode := by
  unfold Obligations.WrittenOutWordsDecode
  decide

end Sys2Proof
end

/-! The traces of the three operations: their lengths, the event at an index, and the count of their events (R34, R149, R221). -/
section

namespace Sys2Proof.Machine

/-- WriteConfig's frame, sixteen cells of five events, DataLatch's frame (R117). -/
@[simp] theorem length_cfgTrace (p : Params) (v : BitVec 16) : (cfgTrace p v).length = 104 := by
  have cells := length_flatMap_const (countDown 16) (fun i => bitCell p (v.getLsbD i)) 5 fun _ _ => rfl
  rw [cfgTrace, List.length_append, List.length_append, cells, length_cmdTrace, length_cmdTrace]
  rfl

@[simp] theorem length_initTrace (p : Params) : (initTrace p).length = 204 := by
  simp [initTrace, Command.count]

@[simp] theorem length_frameData (p : Params) (fb : Memory) : (frameData p fb).length = 619542 := by
  rw [frameData, length_flatMap_const _ _ 56322 fun s _ => length_sdataTrace p fb s, List.length_range,
    Config.scanlines]

/-- The scan pass of a frame: the scan periods of all scanlines (R146). -/
def scanPass : List Event := (List.range Config.scanlines).flatMap scanPeriodTrace

theorem refreshTrace_eq (p : Params) (fb : Memory) : refreshTrace p fb = frameData p fb ++ scanPass := rfl

/-- The scan periods before the last: ten blocks of 1034 events. -/
theorem length_scanPeriods : ((List.range 10).flatMap scanPeriodTrace).length = 10340 := by
  rw [length_flatMap_const _ _ 1034 fun s hs => by simp [Nat.ne_of_lt (List.mem_range.mp hs)], List.length_range]

theorem scanPass_eq : scanPass = (List.range 10).flatMap scanPeriodTrace ++ scanPeriodTrace 10 :=
  flatMap_range_succ scanPeriodTrace 10

@[simp] theorem length_scanPass : scanPass.length = 11384 := by
  rw [scanPass_eq, List.length_append, length_scanPeriods, length_scanPeriodTrace, if_pos rfl]

@[simp] theorem length_refreshTrace (p : Params) (fb : Memory) : (refreshTrace p fb).length = 630926 := by
  simp [refreshTrace_eq]

/-- The length of an operation's trace, which the sequencer compares `IDX` with (R34). -/
theorem length_opTrace (op : Op) (p : Params) (fb : Memory) : (opTrace op p fb).length = op.traceLength := by
  cases op with
  | init => exact length_initTrace p
  | refresh => exact length_refreshTrace p fb
  | teardown => rfl

/-- Settles O33: the lengths of the procedures add up to those of the three traces. -/
theorem traceLengthsAreTheSpecs : Obligations.TraceLengthsAreTheSpecs := fun op p fb =>
  ⟨length_opTrace op p fb, by cases op <;> rfl⟩

/-- The event at an index of the data part lies in the data of its scanline (R149). -/
theorem getElem?_frameData (p : Params) (fb : Memory) {i : Nat} (hi : i < 619542) :
    (frameData p fb)[i]? = sdataEventAt p fb (i / 56322) (i % 56322) := by
  rw [scanlineDataLayoutByIndex p fb (i / 56322) (i % 56322)]
  exact getElem?_flatMap_range (sdataTrace p fb) 11 56322 i (by omega) (fun s _ => length_sdataTrace p fb s) hi

/-- The event at an index of the scan pass: ten blocks of 1034 events, and all that follows lies in the last (R149). -/
theorem getElem?_scanPass (k : Nat) :
    scanPass[k]? = (scanPeriodTrace (min (k / 1034) 10))[k - 1034 * min (k / 1034) 10]? := by
  rw [scanPass_eq]
  rcases Nat.lt_or_ge k 10340 with hlt | hge
  · have hlen : ∀ s < 10, (scanPeriodTrace s).length = 1034 := fun s hs => by simp [Nat.ne_of_lt hs]
    rw [List.getElem?_append_left (by rw [length_scanPeriods]; exact hlt),
      getElem?_flatMap_range _ 10 1034 k (by omega) hlen (by omega), show min (k / 1034) 10 = k / 1034 by omega,
      show k - 1034 * (k / 1034) = k % 1034 by omega]
  · rw [List.getElem?_append_right (by rw [length_scanPeriods]; exact hge), length_scanPeriods,
      show min (k / 1034) 10 = 10 by omega]

/-- Settles O34: the index falls in the data part or in the scan pass, each a list of blocks. -/
theorem refreshLayoutByIndex : Obligations.RefreshLayoutByIndex := by
  intro p fb i
  rw [refreshEventAt, refreshTrace_eq]
  split
  · rename_i hi
    rw [List.getElem?_append_left (by simpa using hi), getElem?_frameData p fb hi]
  · rename_i hi
    rw [List.getElem?_append_right (by simpa using hi), length_frameData, getElem?_scanPass]

/-- The event at a position, by its layout, is that of the operation's trace (R149, R150). -/
theorem eventAt_eq (op : Op) (p : Params) (fb : Memory) (i : Nat) : eventAt op p fb i = (opTrace op p fb)[i]? := by
  cases op with
  | init => rfl
  | refresh => exact refreshLayoutByIndex p fb i
  | teardown => rfl

/-- There is a next event at every position of the trace (R34). -/
theorem eventAt_ne_none {op : Op} {i : Nat} (h : i < op.traceLength) (p : Params) (fb : Memory) :
    eventAt op p fb i ≠ none := by
  rw [eventAt_eq, ne_eq, List.getElem?_eq_none_iff, length_opTrace]
  omega

/-- The line writes, the `H(PW)` and the `H(DEAD)` of a trace (R221). -/
def EventCounts (t : List Event) (writes pw dead : Nat) : Prop :=
  writeCount t = writes ∧ holdCount .pw t = pw ∧ holdCount .dead t = dead

theorem holdCount_append (k : Hold) (t u : List Event) : holdCount k (t ++ u) = holdCount k t + holdCount k u :=
  List.countP_append

theorem EventCounts.append {t u : List Event} {a b c a' b' c' : Nat} (ht : EventCounts t a b c)
    (hu : EventCounts u a' b' c') : EventCounts (t ++ u) (a + a') (b + b') (c + c') := by
  obtain ⟨rfl, rfl, rfl⟩ := ht
  obtain ⟨rfl, rfl, rfl⟩ := hu
  exact ⟨writeCount_append t u, holdCount_append .pw t u, holdCount_append .dead t u⟩

theorem EventCounts.nil : EventCounts [] 0 0 0 := ⟨rfl, rfl, rfl⟩

/-- Blocks with the same counts have them as many times as there are blocks. -/
theorem EventCounts.flatMap {α : Type} {F : α → List Event} {a b c : Nat} {l : List α}
    (h : ∀ x ∈ l, EventCounts (F x) a b c) :
    EventCounts (l.flatMap F) (l.length * a) (l.length * b) (l.length * c) := by
  induction l with
  | nil => simpa using EventCounts.nil
  | cons x l ih =>
    simpa [Nat.succ_mul, Nat.add_comm] using (h x List.mem_cons_self).append (ih fun y hy => h y (List.mem_cons_of_mem x hy))

theorem eventCounts_w (l : Line) (v : Bool) : EventCounts [.w l v] 1 0 0 := ⟨rfl, rfl, rfl⟩

theorem eventCounts_dead : EventCounts [.h .dead] 0 0 1 := ⟨rfl, rfl, rfl⟩

theorem eventCounts_pulseTrace (c : Clock) : EventCounts (pulseTrace c) 2 2 0 := by cases c <;> exact ⟨rfl, rfl, rfl⟩

theorem eventCounts_pulseTraces (c : Clock) (n : Nat) : EventCounts (pulseTraces c n) (2 * n) (2 * n) 0 := by
  induction n with
  | zero => exact EventCounts.nil
  | succ n ih =>
    rw [show pulseTraces c (n + 1) = pulseTrace c ++ pulseTraces c n from rfl, Nat.mul_succ, Nat.add_comm (2 * n)]
    exact (eventCounts_pulseTrace c).append ih

theorem eventCounts_cmdTrace (c : Command) : EventCounts (cmdTrace c) (2 * c.count + 2) (2 * c.count) 0 := by
  have h := (eventCounts_w .le true).append ((eventCounts_pulseTraces .dclk c.count).append (eventCounts_w .le false))
  rwa [show 1 + (2 * c.count + 1) = 2 * c.count + 2 by omega, Nat.zero_add] at h

theorem eventCounts_bitCell (p : Params) (v : Bool) : EventCounts (bitCell p v) 3 2 0 :=
  (eventCounts_w _ v).append (eventCounts_pulseTrace .dclk)

theorem eventCounts_cfgTrace (p : Params) (v : BitVec 16) : EventCounts (cfgTrace p v) 62 42 0 :=
  ((eventCounts_cmdTrace .writeConfig).append (.flatMap fun _ _ => eventCounts_bitCell p _)).append
    (eventCounts_cmdTrace .dataLatch)

theorem eventCounts_scanTrace (a : Nat) : EventCounts (scanTrace a) 4 0 0 := ⟨rfl, rfl, rfl⟩

theorem eventCounts_symbolWrites (p : Params) (fb : Memory) (s ic plane led : Nat) :
    EventCounts (symbolWrites p fb s ic plane led) 6 0 0 := ⟨rfl, rfl, rfl⟩

theorem eventCounts_sdataTrace (p : Params) (fb : Memory) (s : Nat) : EventCounts (sdataTrace p fb s) 45058 11264 0 := by
  have symbols : EventCounts (sdataShifts p fb s) (5631 * 8 + 6) (5631 * 2) 0 := by
    have h := EventCounts.flatMap (l := List.range 5631)
      (F := fun q => symbolTrace p fb s (q / 256) (15 - q % 256 / 16) (q % 16)) fun q hq =>
        symbolTrace_of_lt p fb s (List.mem_range.mp hq) ▸
          (eventCounts_symbolWrites p fb s _ _ _).append (eventCounts_pulseTrace .dclk)
    rw [List.length_range] at h
    exact h.append (eventCounts_symbolWrites p fb s 21 0 15)
  exact sdataTrace_eq_shifts_dataLatch p fb s ▸ symbols.append (eventCounts_cmdTrace .dataLatch)

/-- What the Vsync adds to the last scan period (R145). -/
theorem eventCounts_scanPeriodTrace (s : Nat) :
    EventCounts (scanPeriodTrace s) (if s = 10 then 524 else 518) (if s = 10 then 518 else 514) 2 := by
  have around {t : List Event} {a b : Nat} (ht : EventCounts t a b 0) :=
    (((((eventCounts_scanTrace s).append (eventCounts_pulseTraces .gclk Config.gclkPulses)).append ht).append
      eventCounts_dead).append (eventCounts_pulseTrace .gclk)).append eventCounts_dead
  by_cases last : s = 10
  · subst last
    exact around (eventCounts_cmdTrace .vsync)
  · simp only [scanPeriodTrace, lastScanline, last, decide_false, if_false, Bool.false_eq_true]
    exact around EventCounts.nil

theorem eventCounts_initTrace (p : Params) : EventCounts (initTrace p) 114 90 0 :=
  ((eventCounts_cmdTrace .reset).append (eventCounts_cmdTrace .preActive)).append (eventCounts_cfgTrace p p.configValue)

theorem eventCounts_scanPass : EventCounts scanPass 5704 5658 22 := by
  have first := EventCounts.flatMap (l := List.range 10) (F := scanPeriodTrace) (a := 518) (b := 514) (c := 2)
    fun s hs => by simpa [Nat.ne_of_lt (List.mem_range.mp hs)] using eventCounts_scanPeriodTrace s
  rw [List.length_range] at first
  exact scanPass_eq ▸ first.append (eventCounts_scanPeriodTrace 10)

theorem eventCounts_refreshTrace (p : Params) (fb : Memory) : EventCounts (refreshTrace p fb) 501342 129562 22 := by
  have data := EventCounts.flatMap (l := List.range 11) fun s _ => eventCounts_sdataTrace p fb s
  rw [List.length_range] at data
  exact refreshTrace_eq p fb ▸ data.append eventCounts_scanPass

theorem eventCounts_teardownTrace : EventCounts teardownTrace 13 0 0 := ⟨rfl, rfl, rfl⟩

/-- Settles O35: each row of the table, added up from its procedures' rows. -/
theorem eventCountsOfTheTraces : Obligations.EventCountsOfTheTraces := by
  intro p fb v
  obtain ⟨-, pw, dead⟩ := eventCounts_refreshTrace p fb
  exact ⟨eventCounts_pulseTrace, eventCounts_cmdTrace, eventCounts_cfgTrace p v, eventCounts_scanTrace,
    eventCounts_sdataTrace p fb, eventCounts_scanPeriodTrace, eventCounts_initTrace p, eventCounts_refreshTrace p fb,
    eventCounts_teardownTrace, by rw [leastDuration, pw, dead]⟩

/-- The counters at a position of the data part, as numbers: the scanline, and the position of symbol `q` (R36). -/
theorem dataCounters_toNat {idx q : Nat} (hidx : idx < 619542) (hq : q = min (idx % 56322 / 10) 5631) :
    (dataCounters idx).s.toNat = idx / 56322 ∧ (dataCounters idx).ic.toNat = q / 256 ∧
      (dataCounters idx).plane.toNat = 15 - q % 256 / 16 ∧ (dataCounters idx).led.toNat = q % 16 := by
  simp only [dataCounters, ← hq, BitVec.toNat_ofNat]
  omega

/-- A symbol's position has its number (R78). -/
theorem symbolNumber_position (q : Nat) : symbolNumber (q / 256) (15 - q % 256 / 16) (q % 16) = q := by
  rw [symbolNumber]
  omega

/-- The scanline counter at a position of the scan pass (R36). -/
theorem scanCounters_toNat (idx : Nat) : (scanCounters idx).s.toNat = min ((idx - 619542) / 1034) 10 := by
  simp only [scanCounters, scanCounter, BitVec.toNat_ofNat]
  omega

/-- Settles O36: the counters are the numbers by which the layout of REFRESH finds its event. -/
theorem countersNameTheSymbolInProgress : Obligations.CountersNameTheSymbolInProgress := by
  intro s hb hop
  have next : s.nextEvent = refreshEventAt s.params s.fb s.idx.toNat := by rw [State.nextEvent, hop]; rfl
  have some_next (h : s.idx.toNat < 630926) : s.nextEvent ≠ none := by
    rw [State.nextEvent, hop]
    exact eventAt_ne_none (op := .refresh) h s.params s.fb
  refine ⟨fun hidx => ?_, fun hidx => ?_⟩
  · have hc : s.counters = dataCounters s.idx.toNat := by simp [State.counters, hb, hop, hidx]
    obtain ⟨hs, hic, hplane, hled⟩ := dataCounters_toNat hidx rfl
    refine ⟨?_, ?_, ?_, some_next (by omega)⟩
    · rw [next, refreshEventAt, if_pos hidx, hc, hs, hic, hplane, hled, symbolNumber_position]
      rfl
    · rw [hc, hs]; omega
    · rw [hc, hic]; omega
  · have hc : s.counters = scanCounters s.idx.toNat := by simp [State.counters, hb, hop, Nat.not_lt.2 hidx]
    refine ⟨by rw [hc, scanCounters_toNat], ?_, some_next⟩
    rw [next, refreshEventAt, if_neg (Nat.not_lt.2 hidx), hc, scanCounters_toNat]

end Sys2Proof.Machine
end

/-! What of a frame depends on the frame buffer (R58, R137, R144). -/
section

namespace Sys2Proof.Machine

/-- Two buffers' symbols differ in the levels of the data lines at most. -/
theorem shape_symbolTrace (p : Params) (fb fb' : Memory) (s ic plane led : Nat) :
    (symbolTrace p fb s ic plane led).map Event.shape = (symbolTrace p fb' s ic plane led).map Event.shape := by
  simp only [symbolTrace, List.map_append]
  rfl

/-- Settles O39: a frame is symbols, of one shape for all buffers, and a scan pass that reads no buffer. -/
theorem frameShapeIsIndependentOfTheContents : Obligations.FrameShapeIsIndependentOfTheContents := by
  intro p fb fb'
  simp only [refreshTrace, sdataTrace, List.map_append, List.map_flatMap, shape_symbolTrace p fb fb']

/-- A read of a row outside the grid gives zeros (R52). -/
theorem Memory.fbReadAt_outside (m : Memory) (x : Option Nat) {y : Nat} (h : 88 ≤ y) : m.fbReadAt x y = Pixel.zero := by
  cases x with
  | none => rfl
  | some x => exact if_neg fun hg => absurd (inGrid_iff.1 hg).2 (Nat.not_lt.2 h)

/-- Two buffers that read the same in a row read the same at every column or none. -/
theorem Memory.fbReadAt_congr {m m' : Memory} {y : Nat} (h : ∀ x, m.fbRead x y = m'.fbRead x y) (x : Option Nat) :
    m.fbReadAt x y = m'.fbReadAt x y := by
  cases x with
  | none => rfl
  | some x => exact h x

/-- From scanline 6 on chain 2's row lies outside the grid (R58). -/
theorem chain2Pixel_eq_zero (p : Params) (fb : Memory) {s : Nat} (h : 6 ≤ s) (ic led : Nat) :
    chain2Pixel p fb s ic led = Pixel.zero :=
  fb.fbReadAt_outside _ (by simp only [row2, Config.rowsPerScan, Config.chain2Offset]; omega)

/-- Settles O28: the rows are the spec's products, and those above 87 are read as zeros. -/
theorem chainTwoReadsZerosFromScanlineSix : Obligations.ChainTwoReadsZerosFromScanlineSix := fun p fb s ic led =>
  ⟨by rw [chain1Pixel, row1, Nat.mul_comm], fun _ => by rw [chain2Pixel, row2, Nat.mul_comm],
    fun h => chain2Pixel_eq_zero p fb h ic led⟩

theorem transmittedRow_row1 {s : Nat} (h : s < 11) : transmittedRow (row1 s) = true := by
  revert s; decide

theorem transmittedRow_row2 {s : Nat} (h : s < 6) : transmittedRow (row2 s) = true := by
  revert s; decide

/-- The pixels of a symbol lie in transmitted rows, or are zeros. -/
theorem symbolWrites_congr (p : Params) {fb fb' : Memory}
    (h : ∀ x y, transmittedRow y = true → fb.fbRead x y = fb'.fbRead x y) {s : Nat} (hs : s < 11) (ic plane led : Nat) :
    symbolWrites p fb s ic plane led = symbolWrites p fb' s ic plane led := by
  have chain1 : chain1Pixel p fb s ic led = chain1Pixel p fb' s ic led :=
    Memory.fbReadAt_congr (fun x => h x _ (transmittedRow_row1 hs)) _
  have chain2 : chain2Pixel p fb s ic led = chain2Pixel p fb' s ic led := by
    rcases Nat.lt_or_ge s 6 with hlt | hge
    · exact Memory.fbReadAt_congr (fun x => h x _ (transmittedRow_row2 hlt)) _
    · rw [chain2Pixel_eq_zero p fb hge, chain2Pixel_eq_zero p fb' hge]
  simp only [symbolWrites, chain1, chain2]

/-- Settles O40: every symbol reads transmitted rows only, and nothing else of a frame reads the buffer. -/
theorem untransmittedRowsNeverReachTheLines : Obligations.UntransmittedRowsNeverReachTheLines := by
  refine ⟨by decide, fun p fb fb' h => ?_⟩
  have data : frameData p fb = frameData p fb' :=
    List.flatMap_congr fun s hs => by
      simp only [sdataTrace, symbolTrace, symbolWrites_congr p h (List.mem_range.mp hs)]
  rw [refreshTrace_eq, refreshTrace_eq, data]

end Sys2Proof.Machine
end

/-! The lines after each operation's trace, and where a trace holds a `CLR` (R19, R104, R142, R144, R147). -/
section

namespace Sys2Proof.Machine

/-- INIT leaves DCLK and LE low and the last configuration bit on `CFG_LINE` (R141). -/
theorem after_initTrace (ls : Lines) (p : Params) :
    ls.after (initTrace p) =
      ({ ls with le := false, dclk := false } : Lines).set (dataLine p.cfgLine) (p.configValue.getLsbD 0) := by
  rw [initTrace, Lines.after_append, Lines.after_append, after_cfgTrace, after_cmdTrace, after_cmdTrace]

/-- The data part leaves the data of the last scanline on the data lines (R133, R146). -/
theorem data_after_frameData (ls : Lines) (p : Params) (fb : Memory) :
    let c := fb.fbReadAt (colmap p 21 15) 80
    (ls.after (frameData p fb)).data = [c.r.getLsbD 0, c.g.getLsbD 0, c.b.getLsbD 0, false, false, false] := by
  rw [frameData, show Config.scanlines = 10 + 1 from rfl, flatMap_range_succ, Lines.after_append, after_sdataTrace,
    chain2Pixel_eq_zero p fb (by omega : 6 ≤ 10)]
  rfl

/-- A scan period writes no data line (R145). -/
theorem data_after_scanPeriods (l : List Nat) (ls : Lines) : (ls.after (l.flatMap scanPeriodTrace)).data = ls.data :=
  after_flatMap scanPeriodTrace Lines.data (fun s ls => by rw [after_scanPeriodTrace]; rfl) l ls

/-- A scan pass ends with all clocks and the latch low and address 10; the data lines keep their levels (R145, R146). -/
theorem after_scanPass (ls : Lines) :
    ls.after scanPass = ⟨false, false, false, false, true, false, true, ls.r1, ls.g1, ls.b1, ls.r2, ls.g2, ls.b2⟩ := by
  have data := data_after_scanPeriods (List.range 10) ls
  simp only [Lines.data, List.cons.injEq, and_true] at data
  obtain ⟨r1, g1, b1, r2, g2, b2⟩ := data
  rw [scanPass_eq, Lines.after_append, after_scanPeriodTrace, r1, g1, b1, r2, g2, b2]
  rfl

/-- The lines after a frame, whatever they were before: the last symbol of SDATA(10), address 10, the rest low (R144). -/
theorem after_refreshTrace (ls : Lines) (p : Params) (fb : Memory) :
    let c := fb.fbReadAt (colmap p 21 15) 80
    ls.after (refreshTrace p fb) = ⟨false, false, false, false, true, false, true, c.r.getLsbD 0, c.g.getLsbD 0,
      c.b.getLsbD 0, false, false, false⟩ := by
  have data := data_after_frameData ls p fb
  simp only [Lines.data, List.cons.injEq, and_true] at data
  obtain ⟨r1, g1, b1, r2, g2, b2⟩ := data
  rw [refreshTrace_eq, Lines.after_append, after_scanPass, r1, g1, b1, r2, g2, b2]

/-- TEARDOWN lowers all lines (R147). -/
theorem after_teardownTrace (ls : Lines) : ls.after teardownTrace = Lines.low := rfl

theorem Lines.set_dataLine_idle {ls : Lines} (idle : ls.idle = true) (d : DataLine) (v : Bool) :
    (ls.set (dataLine d) v).idle = true := by
  cases d <;> exact idle

/-- Every operation ends with the clocks and the latch low, INIT if GCLK was low before (R104). -/
theorem idle_after_opTrace {op : Op} {ls : Lines} (h : op = .init → ls.gclk = false) (p : Params) (fb : Memory) :
    (ls.after (opTrace op p fb)).idle = true := by
  cases op with
  | init =>
    rw [opTrace, after_initTrace]
    refine Lines.set_dataLine_idle (Lines.idle_iff.2 ?_) _ _
    exact ⟨h rfl, rfl, rfl⟩
  | refresh => rw [opTrace, after_refreshTrace]; rfl
  | teardown => rfl

theorem clr_notMem_initTrace (p : Params) : Event.clr ∉ initTrace p := by simp [initTrace]

theorem clr_notMem_refreshTrace (p : Params) (fb : Memory) : Event.clr ∉ refreshTrace p fb := by simp [refreshTrace]

/-- The lowering of the lines holds no `CLR`. -/
theorem clr_notMem_teardownTrace_tail : Event.clr ∉ teardownTrace.tail := by decide

/-- Only the first event of TEARDOWN is a `CLR` (R148). -/
theorem eventAt_clr {op : Op} {p : Params} {fb : Memory} {i : Nat} (h : eventAt op p fb i = some .clr) :
    op = .teardown ∧ i = 0 := by
  rw [eventAt_eq] at h
  cases op with
  | init => exact absurd (List.mem_of_getElem? h) (clr_notMem_initTrace p)
  | refresh => exact absurd (List.mem_of_getElem? h) (clr_notMem_refreshTrace p fb)
  | teardown =>
    cases i with
    | zero => exact ⟨rfl, rfl⟩
    | succ i => exact absurd (List.mem_of_getElem? (l := teardownTrace.tail) h) clr_notMem_teardownTrace_tail

end Sys2Proof.Machine
end

/-! One step of a running operation: the event at its position, and what is left of its trace (R34, R150). -/
section

namespace Sys2Proof.Machine

theorem Op.traceLength_lt (op : Op) : op.traceLength < 2 ^ 20 := by cases op <;> decide

theorem State.nextEvent_eq (s : State) : s.nextEvent = (opTrace s.op s.params s.fb)[s.idx.toNat]? := eventAt_eq ..

/-- A position in the trace has a next event. -/
theorem State.exists_nextEvent {s : State} (h : s.idx.toNat < s.op.traceLength) : ∃ e, s.nextEvent = some e :=
  Option.ne_none_iff_exists'.1 (eventAt_ne_none h s.params s.fb)

/-- A position with a next event lies in the trace. -/
theorem State.idx_lt_of_nextEvent {s : State} {e : Event} (he : s.nextEvent = some e) :
    s.idx.toNat < s.op.traceLength := by
  rw [s.nextEvent_eq] at he
  rw [← length_opTrace s.op s.params s.fb]
  exact (List.getElem?_eq_some_iff.1 he).1

/-- What is left of the trace begins with the next event. -/
theorem State.remaining_eq_cons {s : State} {e : Event} (he : s.nextEvent = some e) :
    s.remaining = e :: (opTrace s.op s.params s.fb).drop (s.idx.toNat + 1) := by
  rw [s.nextEvent_eq] at he
  obtain ⟨hlt, rfl⟩ := List.getElem?_eq_some_iff.1 he
  exact List.drop_eq_getElem_cons hlt

theorem State.nextEvent_of_remaining {s : State} {e : Event} {t : List Event} (h : s.remaining = e :: t) :
    s.nextEvent = some e := by
  rw [s.nextEvent_eq, ← Nat.add_zero s.idx.toNat, ← List.getElem?_drop]
  exact congrArg (·[0]?) h

/-- `IDX` never overflows (R34). -/
theorem State.toNat_idx_add_one {s : State} (h : s.idx.toNat < s.op.traceLength) :
    (s.idx + 1).toNat = s.idx.toNat + 1 := by
  have bound := s.op.traceLength_lt
  rw [BitVec.toNat_add_of_lt]
  · rfl
  · show s.idx.toNat + 1 < 2 ^ 20
    omega

/-- The state after an event that does not end the operation (R150). -/
def State.runNext (s : State) (e : Event) : State := (s.consume.emit e).advance

section runNext
variable {s : State} {e : Event} (he : s.nextEvent = some e)
include he

theorem State.runNext_idx : (s.runNext e).idx.toNat = s.idx.toNat + 1 := by
  rw [State.runNext, State.advance_idx, State.emit_idx, State.consume_idx]
  exact State.toNat_idx_add_one (State.idx_lt_of_nextEvent he)

/-- `BUSY` stays as long as the new position lies in the trace (R35). -/
theorem State.runNext_busy : (s.runNext e).busy = true ↔ s.idx.toNat + 1 < s.op.traceLength := by
  have hlt := State.idx_lt_of_nextEvent he
  simp only [State.runNext, State.advance_busy, State.emit_idx, State.consume_idx, State.emit_op, State.consume_op,
    State.toNat_idx_add_one hlt, decide_eq_true_eq]
  omega

/-- No event changes the trace it is part of: a `CLR` is TEARDOWN's, which reads no buffer (R150). -/
theorem State.opTrace_runNext :
    opTrace (s.runNext e).op (s.runNext e).params (s.runNext e).fb = opTrace s.op s.params s.fb := by
  simp only [State.runNext, State.advance_op, State.emit_op, State.consume_op, State.advance_params, State.emit_params,
    State.consume_params, State.advance_fb, State.emit_fb, State.consume_fb]
  split
  · rename_i hclr
    subst hclr
    rw [(eventAt_clr he).1]
    rfl
  · rfl

/-- The next event has been taken off what is left of the trace. -/
theorem State.remaining_eq_cons_runNext : s.remaining = e :: (s.runNext e).remaining := by
  rw [State.remaining_eq_cons he, State.remaining, State.opTrace_runNext he, State.runNext_idx he]

/-- The levels the operation will end with stay the same from event to event. -/
theorem State.after_remaining_runNext :
    (s.runNext e).lines.after (s.runNext e).remaining = s.lines.after s.remaining := by
  rw [State.remaining_eq_cons_runNext he, Lines.after_cons]
  exact congrArg (Lines.after · _) (State.emit_lines s.consume e)

/-- At the end of the operation they are reached (R35). -/
theorem State.lines_runNext_of_idle (hb : (s.runNext e).busy = false) :
    (s.runNext e).lines = s.lines.after s.remaining := by
  have hend : ¬s.idx.toNat + 1 < s.op.traceLength := by rw [← State.runNext_busy he, hb]; exact Bool.false_ne_true
  have done : (s.runNext e).remaining = [] := by
    rw [State.remaining, State.opTrace_runNext he, State.runNext_idx he, List.drop_eq_nil_iff, length_opTrace]
    omega
  rw [← State.after_remaining_runNext he, done, Lines.after_nil]

end runNext

/-- A write that ends INIT is a write of a running INIT, and lines can fail (R180, R184). -/
theorem State.fatal_iff {s : State} {e : Event} :
    s.fatal e = true ↔ e.isWrite = true ∧ s.answerFails = true ∧ s.busy = true ∧ s.op = .init := by
  simp [State.fatal, State.inInit, and_assoc]

theorem Event.exists_of_isWrite {e : Event} (h : e.isWrite = true) : ∃ l v, e = .w l v := by
  cases e with
  | w l v => exact ⟨l, v, rfl⟩
  | h k => cases h
  | clr => cases h

theorem State.gpioFallible_of_answerFails {s : State} (h : s.answerFails = true) : s.params.gpioFallible = true := by
  simp only [State.answerFails, Bool.and_eq_true] at h
  exact h.1

/-- WHAT A BUSY STEP CAN DO: end INIT at a failed write, or run the event and move on (R150, R184). -/
theorem busy_step_cases {s t : State} (hr : s.input.rst = false) (hb : s.busy = true) (h : step s = .next t) :
    ∃ e, s.nextEvent = some e ∧
      ((s.fatal e = true ∧ t = s.consume.emit e) ∨ (s.fatal e = false ∧ t = s.runNext e)) := by
  obtain ⟨hr', -⟩ | ⟨-, -, e, he, ht⟩ | ⟨-, hb', -⟩ | ⟨-, hb', -⟩ := step_cases h
  · rw [hr] at hr'; cases hr'
  · refine ⟨e, he, ?_⟩
    cases hf : s.fatal e with
    | true => exact .inl ⟨rfl, by simpa [hf] using ht⟩
    | false => exact .inr ⟨rfl, by simpa [hf, State.runNext] using ht⟩
  · rw [hb] at hb'; cases hb'
  · rw [hb] at hb'; cases hb'

/-- Settles O5: the model's busy step, with the event's instruction run (`exec_toInstr`). -/
theorem busyStepRunsTheNextEvent : Obligations.BusyStepRunsTheNextEvent := fun s e hr hb he =>
  ⟨s.consume.emit e, exec_toInstr e s.consume, step_busy hr hb he⟩

/-- Settles O10: a busy step takes its inputs off the list without looking at the port. -/
theorem busyStepIgnoresThePort : Obligations.BusyStepIgnoresThePort := by
  intro s word rest hb
  simp only [step, cycle, hb, if_true]
  rfl

/-- Settles O59: the event of a busy step is a `CLR` at the start of TEARDOWN only. -/
theorem frameBufferIsFixedWhileBusy : Obligations.FrameBufferIsFixedWhileBusy := by
  intro s t hb hr h
  obtain ⟨e, he, hcase⟩ := busy_step_cases hr hb h
  have hfb : t.fb = if e = .clr then s.fb.clear else s.fb := by
    obtain ⟨-, rfl⟩ | ⟨-, rfl⟩ := hcase <;> exact State.emit_fb s.consume e
  by_cases hclr : e = .clr
  · subst hclr
    obtain ⟨hop, hidx⟩ := eventAt_clr he
    exact .inr ⟨hop, BitVec.eq_of_toNat_eq hidx, fun x y => by rw [hfb, if_pos rfl, Memory.fbRead_clear]⟩
  · exact .inl (hfb.trans (if_neg hclr))

end Sys2Proof.Machine
end

/-! The invariant of the machine whose ports carry host operations, step by step (R24, R26, R34, R104, R147). -/
section

namespace Sys2Proof.Machine

section fields
variable (s : State) (e : Event)

@[simp] theorem State.runNext_op : (s.runNext e).op = s.op := State.emit_op s.consume e
@[simp] theorem State.runNext_params : (s.runNext e).params = s.params := State.emit_params s.consume e
@[simp] theorem State.runNext_inputs : (s.runNext e).inputs = s.inputs.tail := State.emit_inputs s.consume e
@[simp] theorem State.runNext_errInit : (s.runNext e).errInit = (s.errInit || s.fatal e) :=
  State.emit_errInit s.consume e
@[simp] theorem State.runNext_errSteady :
    (s.runNext e).errSteady = (s.errSteady || (e.isWrite && s.answerFails && !s.inInit)) :=
  State.emit_errSteady s.consume e
@[simp] theorem State.runNext_fb : (s.runNext e).fb = if e = .clr then s.fb.clear else s.fb :=
  State.emit_fb s.consume e

end fields

theorem State.runNext_lifecycle {s : State} {e : Event} (hf : s.fatal e = false) :
    (s.runNext e).lifecycle = lifecycleAfter s.op s.idx.toNat s.lifecycle := by
  simp [State.runNext, hf]

/-- The lifecycles in which an operation can be at a position (R24, R144, R147). -/
def Op.runsIn (op : Op) (i : Nat) (l : Lifecycle) : Prop :=
  match op with
  | .init => l = if i < 42 then .uninitialized else if i < 100 then .reset else .preActive
  | .refresh => l = .configured
  | .teardown => l = .uninitialized ∨ l = .configured ∨ l = .initFailed

theorem State.lifecycleFits_of_busy {s : State} (hb : s.busy = true) :
    s.lifecycleFits = true ↔ s.op.runsIn s.idx.toNat s.lifecycle := by
  cases hop : s.op <;> simp [State.lifecycleFits, hb, hop, Op.runsIn]

theorem State.lifecycleFits_of_idle {s : State} (hb : s.busy = false) :
    s.lifecycleFits = true ↔ s.lifecycle ≠ .reset ∧ s.lifecycle ≠ .preActive := by
  simp [State.lifecycleFits, hb]

/-- INIT is running in its three lifecycles only. -/
theorem Op.runsIn_init {i : Nat} {l : Lifecycle} (h : Op.init.runsIn i l) :
    l = .uninitialized ∨ l = .reset ∨ l = .preActive := by
  simp only [Op.runsIn] at h
  split_ifs at h <;> simp [h]

/-- Nothing runs in `Teardown` (R147). -/
theorem Op.runsIn_ne_teardown {op : Op} {i : Nat} {l : Lifecycle} (h : op.runsIn i l) : l ≠ .teardown := by
  rintro rfl
  cases op with
  | init => simpa using Op.runsIn_init h
  | refresh => cases h
  | teardown => simp [Op.runsIn] at h

/-- The lifecycle fits the next position too (R24). -/
theorem Op.runsIn_lifecycleAfter {op : Op} {i : Nat} {l : Lifecycle} (h : op.runsIn i l) (hi : i + 1 < op.traceLength) :
    op.runsIn (i + 1) (lifecycleAfter op i l) := by
  cases op with
  | init =>
    simp only [Op.traceLength] at hi
    simp only [Op.runsIn] at h ⊢
    subst h
    by_cases h41 : i = 41
    · subst h41; rfl
    · by_cases h99 : i = 99
      · subst h99; rfl
      · have first : i + 1 < 42 ↔ i < 42 := by omega
        have second : i + 1 < 100 ↔ i < 100 := by omega
        simp only [lifecycleAfter, h41, h99, show i ≠ 203 by omega, if_false, first, second]
  | refresh => exact h
  | teardown =>
    simp only [Op.traceLength] at hi
    simpa [Op.runsIn, lifecycleAfter, show i ≠ 13 by omega] using h

/-- An operation that has ended has left `Reset` and `PreActive` (R24). -/
theorem Op.settled_lifecycleAfter {op : Op} {i : Nat} {l : Lifecycle} (h : op.runsIn i l)
    (hi : i + 1 = op.traceLength) : lifecycleAfter op i l ≠ .reset ∧ lifecycleAfter op i l ≠ .preActive := by
  cases op with
  | init =>
    obtain rfl : i = 203 := by simpa [Op.traceLength] using hi
    simp [lifecycleAfter]
  | refresh =>
    obtain rfl := h
    simp [lifecycleAfter]
  | teardown =>
    obtain rfl : i = 13 := by simpa [Op.traceLength] using hi
    simp [lifecycleAfter]

/-- The events of a trace lead to `Teardown` at the end of TEARDOWN only. -/
theorem lifecycleAfter_eq_teardown {op : Op} {i : Nat} {l : Lifecycle} (hl : l ≠ .teardown)
    (h : lifecycleAfter op i l = .teardown) : op = .teardown ∧ i = 13 := by
  cases op <;> simp only [lifecycleAfter] at h
  case init => split_ifs at h; exact absurd h hl
  case refresh => exact absurd h hl
  case teardown =>
    split_ifs at h with hi
    · exact ⟨rfl, hi⟩
    · exact absurd h hl

/-- They never lead to `InitFailed`. -/
theorem lifecycleAfter_eq_initFailed {op : Op} {i : Nat} {l : Lifecycle} (h : lifecycleAfter op i l = .initFailed) :
    l = .initFailed := by
  cases op <;> simp only [lifecycleAfter] at h
  case init => split_ifs at h; exact h
  case refresh => exact h
  case teardown => split_ifs at h; exact h

/-- Taking the inputs of a step off the list keeps the invariant. -/
theorem State.Inv.consume {s : State} (inv : s.Inv) : s.consume.Inv where
  canonical := inv.canonical
  host x hx := inv.host x (List.mem_of_mem_tail hx)
  inTrace := inv.inTrace
  lifecycle := inv.lifecycle
  infallible := inv.infallible
  failed := inv.failed
  failedOnly := inv.failedOnly
  idleLow := inv.idleLow
  endsLow := inv.endsLow
  tornDown := inv.tornDown
  tearsDown := inv.tearsDown

/-- Hardware reset gives the invariant from the inputs alone (R40). -/
theorem State.inv_hardwareReset {s : State} (host : ∀ x ∈ s.inputs, x.fromHost = true) : s.hardwareReset.Inv where
  canonical := Memory.wf_powerOn _
  host := host
  inTrace := nofun
  lifecycle := rfl
  infallible _ := ⟨rfl, rfl⟩
  failed := nofun
  failedOnly := nofun
  idleLow _ _ := rfl
  endsLow := nofun
  tornDown := nofun
  tearsDown := nofun

/-- Settles O52: the start state is as hardware reset leaves it, with no inputs listed. -/
theorem theInvariantHoldsAtReset : Obligations.TheInvariantHoldsAtReset where
  canonical := State.reset_fb_wf
  host := nofun
  inTrace := nofun
  lifecycle := rfl
  infallible _ := ⟨rfl, rfl⟩
  failed := nofun
  failedOnly := nofun
  idleLow _ _ := rfl
  endsLow := nofun
  tornDown := nofun
  tearsDown := nofun

/-- A failed write of INIT keeps the invariant: the operation has ended in `InitFailed` (R181, R184). -/
theorem State.Inv.emit_of_fatal {s : State} {e : Event} (inv : s.Inv) (hf : s.fatal e = true) : (s.emit e).Inv := by
  obtain ⟨hw, ha, -, -⟩ := State.fatal_iff.1 hf
  have lifecycle : (s.emit e).lifecycle = .initFailed := by simp [hf]
  have idle : (s.emit e).busy = false := by simp [hf]
  have errInit : (s.emit e).errInit = true := by simp [hf]
  have fb : (s.emit e).fb = s.fb := by
    obtain ⟨l, v, rfl⟩ := Event.exists_of_isWrite hw
    simp
  exact {
    canonical := fb ▸ inv.canonical
    host := fun x hx => inv.host x (State.emit_inputs s e ▸ hx)
    inTrace := fun h => by rw [idle] at h; cases h
    lifecycle := (State.lifecycleFits_of_idle idle).2 (by rw [lifecycle]; decide)
    infallible := fun h => by
      rw [State.emit_params, State.gpioFallible_of_answerFails ha] at h
      cases h
    failed := fun _ => errInit
    failedOnly := fun _ => .inl lifecycle
    idleLow := fun _ h => absurd lifecycle h
    endsLow := fun h => by rw [idle] at h; cases h
    tornDown := fun h => by rw [lifecycle] at h; cases h
    tearsDown := fun h => by rw [idle] at h; cases h }

section busy
variable {s : State} {e : Event} (inv : s.Inv) (hb : s.busy = true)
include inv hb

/-- The lifecycle of a running operation fits its position. -/
theorem State.Inv.runsIn : s.op.runsIn s.idx.toNat s.lifecycle := (State.lifecycleFits_of_busy hb).1 inv.lifecycle

/-- Any other event of a trace keeps the invariant (R150). -/
theorem State.Inv.runNext (he : s.nextEvent = some e) (hf : s.fatal e = false) : (s.runNext e).Inv := by
  have lifecycle := State.runNext_lifecycle hf
  have runsIn := inv.runsIn hb
  have hlt := State.idx_lt_of_nextEvent he
  have ended (h : (s.runNext e).busy = false) : s.idx.toNat + 1 = s.op.traceLength := by
    have := mt (State.runNext_busy he).2 (by simp [h])
    omega
  exact {
    canonical := by
      rw [State.runNext_fb]
      split
      · exact Memory.wf_clear _
      · exact inv.canonical
    host := fun x hx => inv.host x (List.mem_of_mem_tail (State.runNext_inputs s e ▸ hx))
    inTrace := fun h => by
      rw [State.runNext_idx he, State.runNext_op]
      exact (State.runNext_busy he).1 h
    lifecycle := by
      cases h : (s.runNext e).busy with
      | true =>
        rw [State.lifecycleFits_of_busy h, State.runNext_op, State.runNext_idx he, lifecycle]
        exact Op.runsIn_lifecycleAfter runsIn ((State.runNext_busy he).1 h)
      | false =>
        rw [State.lifecycleFits_of_idle h, lifecycle]
        exact Op.settled_lifecycleAfter runsIn (ended h)
    infallible := fun h => by
      rw [State.runNext_params] at h
      have ha : s.answerFails = false := by simp [State.answerFails, h]
      simpa [hf, ha] using inv.infallible h
    failed := fun h => by
      rw [lifecycle] at h
      simp [inv.failed (lifecycleAfter_eq_initFailed h)]
    failedOnly := fun h => by
      rw [State.runNext_errInit, hf, Bool.or_false] at h
      have failed : s.lifecycle = .initFailed := (inv.failedOnly h).resolve_right (Op.runsIn_ne_teardown runsIn)
      rw [lifecycle, failed]
      cases hop : s.op with
      | init => rw [hop, failed] at runsIn; simpa using Op.runsIn_init runsIn
      | refresh => rw [hop, failed] at runsIn; cases runsIn
      | teardown => simp only [lifecycleAfter]; split_ifs <;> simp
    idleLow := fun h _ => by
      rw [State.lines_runNext_of_idle he h]
      exact inv.endsLow hb
    endsLow := fun _ => by
      rw [State.after_remaining_runNext he]
      exact inv.endsLow hb
    tornDown := fun h => by
      rw [lifecycle] at h
      obtain ⟨hop, hidx⟩ := lifecycleAfter_eq_teardown (Op.runsIn_ne_teardown runsIn) h
      have idle : (s.runNext e).busy = false := by
        rw [← Bool.not_eq_true, State.runNext_busy he, hop, hidx]
        decide
      rw [State.lines_runNext_of_idle he idle]
      exact inv.tearsDown hb hop
    tearsDown := fun _ hop => by
      rw [State.after_remaining_runNext he]
      exact inv.tearsDown hb (State.runNext_op s e ▸ hop) }

end busy

section idle
variable {s : State} (inv : s.Inv) (hb : s.busy = false)
include inv hb

/-- An operation that its lifecycle admits starts with the invariant: its trace ends with the clocks and the latch low,
and TEARDOWN's with all lines low (R35, R104, R147). -/
theorem State.Inv.start {op : Op} (runsIn : op.runsIn 0 s.lifecycle) : (s.start op).Inv where
  canonical := inv.canonical
  host := inv.host
  inTrace _ := by
    show 0 < op.traceLength
    cases op <;> decide
  lifecycle := (State.lifecycleFits_of_busy (s := s.start op) rfl).2 runsIn
  infallible := inv.infallible
  failed := inv.failed
  failedOnly := inv.failedOnly
  idleLow := nofun
  endsLow _ := by
    refine idle_after_opTrace (fun hop => ?_) s.params s.fb
    subst hop
    have hl : s.lifecycle = .uninitialized := runsIn
    exact (Lines.idle_iff.1 (inv.idleLow hb (by simp [hl]))).1
  tornDown h := absurd h (Op.runsIn_ne_teardown runsIn)
  tearsDown _ hop := by
    have hop : op = .teardown := hop
    subst hop
    rfl

/-- A canonical buffer written by the host keeps the invariant. -/
theorem State.Inv.with_fb {fb : Memory} (h : fb.wf = true) : ({ s with fb := fb } : State).Inv where
  canonical := h
  host := inv.host
  inTrace := inv.inTrace
  lifecycle := inv.lifecycle
  infallible := inv.infallible
  failed := inv.failed
  failedOnly := inv.failedOnly
  idleLow := inv.idleLow
  endsLow h := by
    have h : s.busy = true := h
    rw [hb] at h
    cases h
  tornDown := inv.tornDown
  tearsDown h := by
    have h : s.busy = true := h
    rw [hb] at h
    cases h

/-- An operation of the host keeps the invariant. -/
theorem State.Inv.exec_host {i : Instr} {t : State} (hi : isHostOperation i = true) (h : exec i s = .next t) :
    t.Inv := by
  obtain rfl | ⟨hl, rfl⟩ | ⟨hl, rfl⟩ | ⟨hl, rfl⟩ | ⟨fb, rfl, hfb⟩ | ⟨p, rfl⟩ := exec_host_cases hi hb h
  · exact inv
  · exact inv.start hb hl
  · exact inv.start hb hl
  · have settled := (State.lifecycleFits_of_idle hb).1 inv.lifecycle
    refine inv.start hb (op := .teardown) ?_
    revert hl settled
    cases s.lifecycle <;> simp [Op.runsIn]
  · exact inv.with_fb hb (hfb inv.canonical)
  · exact ⟨inv.canonical, inv.host, inv.inTrace, inv.lifecycle, inv.infallible, inv.failed, inv.failedOnly, inv.idleLow,
      inv.endsLow, inv.tornDown, inv.tearsDown⟩

end idle

/-- A host's word that decodes is an operation of the host. -/
theorem isHostOperation_of_fromHost {x : StepInput} (hx : x.fromHost = true) {i : Instr} (hd : decode x.port = .ok i) :
    isHostOperation i = true := by
  rw [StepInput.fromHost, hd, Bool.or_eq_true] at hx
  refine hx.resolve_left fun hempty => ?_
  rw [List.isEmpty_iff.1 hempty] at hd
  cases hd

/-- Under the invariant an operation on the port is one of the host. -/
theorem isHostOperation_of_inputs {s : State} (host : ∀ x ∈ s.inputs, x.fromHost = true) {i : Instr}
    (hd : decode s.input.port = .ok i) : isHostOperation i = true := by
  have fromHost : s.input.fromHost = true := by
    cases hin : s.inputs with
    | nil => rw [State.input, hin]; rfl
    | cons x rest =>
      rw [State.input, hin]
      exact host x (hin ▸ List.mem_cons_self)
  exact isHostOperation_of_fromHost fromHost hd

/-- Settles O53: reset, the next event of the running operation, nothing, or an operation of the host, each of which keeps
the invariant. -/
theorem everyStepKeepsTheInvariant : Obligations.EveryStepKeepsTheInvariant := by
  intro s t inv h
  obtain ⟨-, rfl⟩ | ⟨hr, hb, -⟩ | ⟨-, -, -, rfl⟩ | ⟨-, hb, i, hd, hi⟩ := step_cases h
  · exact State.inv_hardwareReset inv.consume.host
  · obtain ⟨e, he, ⟨hf, rfl⟩ | ⟨hf, rfl⟩⟩ := busy_step_cases hr hb h
    · exact inv.consume.emit_of_fatal hf
    · exact inv.runNext hb he hf
  · exact inv.consume
  · exact inv.consume.exec_host hb (isHostOperation_of_inputs inv.host hd) hi

end Sys2Proof.Machine
end

/-! What the steps of a machine under the invariant do and leave alone (R22, R24, R26, R150, R153). -/
section

namespace Sys2Proof.Machine

/-- Settles O54: under the invariant the position has an event, and after it the operation has ended or the position is
the next one. -/
theorem busyBlockAlwaysMakesProgress : Obligations.BusyBlockAlwaysMakesProgress := by
  intro s inv hb hr
  obtain ⟨e, he⟩ := State.exists_nextEvent (inv.inTrace hb)
  refine ⟨_, step_busy hr hb he, fun hbusy => ?_⟩
  cases hf : s.fatal e with
  | true => simp [hf] at hbusy
  | false => exact ⟨State.runNext_idx he, State.runNext_op s e⟩

/-- The moments at which the events of a trace change the lifecycle (R142, R147). -/
theorem lifecycleAfter_ne {op : Op} {i : Nat} {l : Lifecycle} (h : lifecycleAfter op i l ≠ l) :
    (op = .init ∧ i = 41 ∧ lifecycleAfter op i l = .reset) ∨
    (op = .init ∧ i = 99 ∧ lifecycleAfter op i l = .preActive) ∨
    (op = .init ∧ i = 203 ∧ lifecycleAfter op i l = .configured) ∨
    (op = .teardown ∧ i = 13 ∧ lifecycleAfter op i l = .teardown) := by
  cases op with
  | init =>
    simp only [lifecycleAfter] at h ⊢
    split_ifs at h ⊢ <;> simp_all
  | refresh => exact absurd rfl h
  | teardown =>
    simp only [lifecycleAfter] at h ⊢
    split_ifs at h ⊢ <;> simp_all

/-- Settles O57: an idle step of a host's operation keeps the lifecycle, a failed write of INIT sets `InitFailed`, and every
other event changes it at the moments of `lifecycleAfter_ne`. -/
theorem lifecycleChangesOnlyAsListed : Obligations.LifecycleChangesOnlyAsListed := by
  intro s t inv h hne
  obtain ⟨hr, rfl⟩ | ⟨hr, hb, -⟩ | ⟨-, -, -, rfl⟩ | ⟨-, hb, i, hd, hi⟩ := step_cases h
  · exact .inl ⟨hr, rfl⟩
  · have runsIn := inv.runsIn hb
    obtain ⟨e, he, ⟨hf, rfl⟩ | ⟨hf, rfl⟩⟩ := busy_step_cases hr hb h
    · obtain ⟨hw, ha, -, hop⟩ := State.fatal_iff.1 hf
      obtain ⟨l, v, rfl⟩ := Event.exists_of_isWrite hw
      rw [hop] at runsIn
      exact .inr (.inr (.inr (.inr (.inl ⟨hb, hop, ha, ⟨l, v, he⟩, Op.runsIn_init runsIn, by simp [hf]⟩))))
    · rw [State.runNext_lifecycle hf] at hne ⊢
      obtain ⟨hop, hidx, hl⟩ | ⟨hop, hidx, hl⟩ | ⟨hop, hidx, hl⟩ | ⟨hop, hidx, hl⟩ := lifecycleAfter_ne hne
      all_goals rw [hop, hidx] at runsIn
      · exact .inr (.inl ⟨hb, hop, hidx, runsIn, hl⟩)
      · exact .inr (.inr (.inl ⟨hb, hop, hidx, runsIn, hl⟩))
      · exact .inr (.inr (.inr (.inl ⟨hb, hop, hidx, runsIn, hl⟩)))
      · exact .inr (.inr (.inr (.inr (.inr ⟨hb, hop, hidx, runsIn, hl⟩))))
  · exact absurd rfl hne
  · obtain rfl | ⟨-, rfl⟩ | ⟨-, rfl⟩ | ⟨-, rfl⟩ | ⟨fb, rfl, -⟩ | ⟨p, rfl⟩ :=
      exec_host_cases (s := s.consume) (isHostOperation_of_inputs inv.host hd) hb hi
    all_goals exact absurd rfl hne

/-- An operation of the host that an idle block runs moves no line and emits nothing (R22, R160). -/
theorem exec_host_lines {i : Instr} {s t : State} (hi : isHostOperation i = true) (hb : s.busy = false)
    (h : exec i s = .next t) : t.lines = s.lines ∧ t.emitted = s.emitted := by
  obtain rfl | ⟨-, rfl⟩ | ⟨-, rfl⟩ | ⟨-, rfl⟩ | ⟨fb, rfl, -⟩ | ⟨p, rfl⟩ := exec_host_cases hi hb h
  all_goals exact ⟨rfl, rfl⟩

/-- The lines after one event: a write's line takes its level (R100). -/
theorem Lines.get_after_singleton (ls : Lines) (e : Event) (l : Line) :
    (ls.after [e]).get l = (match e with | .w k v => if l = k then v else ls.get l | _ => ls.get l) := by
  cases e with
  | w k v =>
    by_cases hl : l = k
    · subst hl; simp
    · simpa [hl] using Lines.get_set_ne ls k l v hl
  | h k => rfl
  | clr => rfl

/-- Settles O60: a busy step emits the event at its position, and no other step emits one. -/
theorem linesChangeOnlyByTheTrace : Obligations.LinesChangeOnlyByTheTrace := by
  intro s t hr host h
  refine ⟨fun hb => ?_, fun hb => ?_⟩
  · obtain ⟨hr', -⟩ | ⟨-, hb', -⟩ | ⟨-, -, -, rfl⟩ | ⟨-, -, i, hd, hi⟩ := step_cases h
    · rw [hr] at hr'; cases hr'
    · rw [hb] at hb'; cases hb'
    · exact ⟨rfl, rfl⟩
    · exact exec_host_lines (s := s.consume) (isHostOperation_of_fromHost host hd) hb hi
  · obtain ⟨e, he, hcase⟩ := busy_step_cases hr hb h
    have lines : t.lines = s.lines.after [e] ∧ t.emitted = e :: s.emitted := by
      obtain ⟨-, rfl⟩ | ⟨-, rfl⟩ := hcase <;> exact ⟨State.emit_lines s.consume e, State.emit_emitted s.consume e⟩
    refine ⟨e, he, lines.2, fun l => ?_⟩
    rw [lines.1]
    exact (s.lines.get_after_singleton e l).trans (by cases e <;> rfl)

end Sys2Proof.Machine
end

/-! What every step keeps, whatever the port carries: the buffer's form, the parameters, the error flags (R9, R26). -/
section

namespace Sys2Proof.Machine

/-- The run of a trace keeps what every event keeps. -/
theorem State.runEvents_keeps {P : State → Prop} (h : ∀ s e, P s → P (s.emit e)) (t : List Event) {s : State}
    (hs : P s) : P (s.runEvents t) := by
  induction t generalizing s with
  | nil => exact hs
  | cons e t ih =>
    cases hf : s.fatal e with
    | true => rw [State.runEvents_fatal hf]; exact h s e hs
    | false => rw [State.runEvents_cons hf]; exact ih (h s e hs)

/-- An event by itself is a trace of one. -/
theorem State.runEvents_singleton (s : State) (e : Event) : s.runEvents [e] = s.emit e := by
  simp [State.runEvents]

/-- WHAT A PROCEDURE OR AN EVENT CAN DO when it answers a next state: run a trace (R18). -/
theorem exec_procedure_cases {i : Instr} {s t : State} (hi : isHostOperation i = false) (h : exec i s = .next t) :
    ∃ tr, t = s.runEvents tr := by
  cases i
  case cmdDataLatch => exact ⟨_, (Host.Outcome.next.inj h).symm⟩
  case cmdVsync => exact ⟨_, (Host.Outcome.next.inj h).symm⟩
  case cmdWriteConfig => exact ⟨_, (Host.Outcome.next.inj h).symm⟩
  case cmdReset => exact ⟨_, (Host.Outcome.next.inj h).symm⟩
  case cmdPreActive => exact ⟨_, (Host.Outcome.next.inj h).symm⟩
  case cmdReserved n => cases h
  case cfg v => exact ⟨_, (Host.Outcome.next.inj h).symm⟩
  case scan a =>
    simp only [exec, execScan] at h
    split at h <;> cases h
    exact ⟨_, rfl⟩
  case sdata sl =>
    simp only [exec, execSdata] at h
    split at h <;> cases h
    exact ⟨_, rfl⟩
  case sdataSymbol sl ic plane led =>
    simp only [exec, execSdataSymbol] at h
    split at h
    · split at h <;> cases h
      exact ⟨_, rfl⟩
    · cases h
  case scanPeriod sl =>
    simp only [exec, execScanPeriod] at h
    split at h <;> cases h
    exact ⟨_, rfl⟩
  case w l v => exact ⟨[.w l v], (Host.Outcome.next.inj h).symm.trans (s.runEvents_singleton _).symm⟩
  case h k => exact ⟨[.h k], (Host.Outcome.next.inj h).symm.trans (s.runEvents_singleton _).symm⟩
  case pulse c => exact ⟨_, (Host.Outcome.next.inj h).symm⟩
  case clr => exact ⟨[.clr], (Host.Outcome.next.inj h).symm.trans (s.runEvents_singleton _).symm⟩
  all_goals cases hi

/-- What an idle step's operation can do: an operation of the host, or the run of a trace. -/
theorem exec_idle_cases {i : Instr} {s t : State} (hb : s.busy = false) (h : exec i s = .next t) :
    t = s ∨ (∃ op, t = s.start op) ∨ (∃ fb, t = { s with fb := fb } ∧ (s.fb.wf = true → fb.wf = true)) ∨
      (∃ p, t = { s with readOut := some p }) ∨ ∃ tr, t = s.runEvents tr := by
  cases hi : isHostOperation i with
  | false => exact .inr (.inr (.inr (.inr (exec_procedure_cases hi h))))
  | true =>
    obtain ht | ⟨-, ht⟩ | ⟨-, ht⟩ | ⟨-, ht⟩ | ht | ht := exec_host_cases hi hb h
    · exact .inl ht
    · exact .inr (.inl ⟨_, ht⟩)
    · exact .inr (.inl ⟨_, ht⟩)
    · exact .inr (.inl ⟨_, ht⟩)
    · exact .inr (.inr (.inl ht))
    · exact .inr (.inr (.inr (.inl ht)))

/-- An event keeps the canonical form: it clears the buffer or leaves it. -/
theorem State.emit_fb_wf (s : State) (e : Event) (h : s.fb.wf = true) : (s.emit e).fb.wf = true := by
  rw [State.emit_fb]
  split
  · exact Memory.wf_clear _
  · exact h

/-- Settles O55: the buffer after a step is that of a reset, of an event, of a host's write, or the one before. -/
theorem everyStepKeepsTheFrameBufferCanonical : Obligations.EveryStepKeepsTheFrameBufferCanonical := by
  intro s t hwf h
  obtain ⟨-, rfl⟩ | ⟨hr, hb, -⟩ | ⟨-, -, -, rfl⟩ | ⟨-, hb, i, -, hi⟩ := step_cases h
  · exact Memory.wf_powerOn _
  · obtain ⟨e, -, ⟨-, rfl⟩ | ⟨-, rfl⟩⟩ := busy_step_cases hr hb h
    all_goals exact s.consume.emit_fb_wf e hwf
  · exact hwf
  · obtain rfl | ⟨op, rfl⟩ | ⟨fb, rfl, hfb⟩ | ⟨p, rfl⟩ | ⟨tr, rfl⟩ := exec_idle_cases (s := s.consume) hb hi
    · exact hwf
    · exact hwf
    · exact hfb hwf
    · exact hwf
    · exact State.runEvents_keeps (P := fun u => u.fb.wf = true) State.emit_fb_wf tr hwf

/-- From `s` to `t` the parameters stay and the error flags are only ever set, and only if lines can fail (R9, R26). -/
structure KeepsFlags (s t : State) : Prop where
  params : t.params = s.params
  errInit : s.errInit = true → t.errInit = true
  errSteady : s.errSteady = true → t.errSteady = true
  infallible : s.params.gpioFallible = false → t.errInit = s.errInit ∧ t.errSteady = s.errSteady

theorem KeepsFlags.of_eq {s t : State} (hp : t.params = s.params) (hi : t.errInit = s.errInit)
    (hs : t.errSteady = s.errSteady) : KeepsFlags s t where
  params := hp
  errInit h := hi.trans h
  errSteady h := hs.trans h
  infallible _ := ⟨hi, hs⟩

theorem KeepsFlags.trans {s t u : State} (hst : KeepsFlags s t) (htu : KeepsFlags t u) : KeepsFlags s u where
  params := htu.params.trans hst.params
  errInit h := htu.errInit (hst.errInit h)
  errSteady h := htu.errSteady (hst.errSteady h)
  infallible h := by
    obtain ⟨hi, hs⟩ := hst.infallible h
    obtain ⟨hi', hs'⟩ := htu.infallible (hst.params ▸ h)
    exact ⟨hi'.trans hi, hs'.trans hs⟩

/-- An event only sets a flag, if its write fails (R180, R183). -/
theorem keepsFlags_emit (s : State) (e : Event) : KeepsFlags s (s.emit e) where
  params := State.emit_params s e
  errInit h := by simp [h]
  errSteady h := by simp [h]
  infallible h := by
    have ha : s.answerFails = false := by simp [State.answerFails, h]
    simp [State.fatal, ha]

theorem keepsFlags_runEvents (s : State) (tr : List Event) : KeepsFlags s (s.runEvents tr) :=
  State.runEvents_keeps (P := KeepsFlags s) (fun u e h => h.trans (keepsFlags_emit u e)) tr (.of_eq rfl rfl rfl)

/-- Only a reset clears a flag. -/
theorem keepsFlags_step {s t : State} (hr : s.input.rst = false) (h : step s = .next t) : KeepsFlags s t := by
  have consume : KeepsFlags s s.consume := .of_eq rfl rfl rfl
  obtain ⟨hr', -⟩ | ⟨-, hb, -⟩ | ⟨-, -, -, rfl⟩ | ⟨-, hb, i, -, hi⟩ := step_cases h
  · rw [hr] at hr'; cases hr'
  · obtain ⟨e, -, ⟨-, rfl⟩ | ⟨-, rfl⟩⟩ := busy_step_cases hr hb h
    · exact consume.trans (keepsFlags_emit _ e)
    · exact (consume.trans (keepsFlags_emit _ e)).trans (.of_eq rfl rfl rfl)
  · exact consume
  · obtain rfl | ⟨op, rfl⟩ | ⟨fb, rfl, -⟩ | ⟨p, rfl⟩ | ⟨tr, rfl⟩ := exec_idle_cases (s := s.consume) hb hi
    · exact consume
    · exact .of_eq rfl rfl rfl
    · exact .of_eq rfl rfl rfl
    · exact .of_eq rfl rfl rfl
    · exact consume.trans (keepsFlags_runEvents _ tr)

/-- Settles O58: a step without reset keeps the flags (`keepsFlags_step`). -/
theorem errorFlagsAreSticky : Obligations.ErrorFlagsAreSticky := by
  intro s t h hr
  obtain ⟨-, errInit, errSteady, infallible⟩ := keepsFlags_step hr h
  exact ⟨errInit, errSteady, infallible⟩

/-- Settles O56: reset keeps the parameters by its definition, every other step by `keepsFlags_step`. -/
theorem noStepChangesAParameter : Obligations.NoStepChangesAParameter := by
  intro s t h
  cases hr : s.input.rst with
  | false => exact (keepsFlags_step hr h).params
  | true =>
    obtain ⟨-, rfl⟩ | ⟨hr', -⟩ | ⟨hr', -⟩ | ⟨hr', -⟩ := step_cases h
    · rfl
    all_goals rw [hr] at hr'; cases hr'

end Sys2Proof.Machine
end

/-! What each procedure does to the state: its trace, its end levels, its frame (R18, R102, R111, R117, R131, R133, R145). -/
section

namespace Sys2Proof.Machine

/-- A procedure whose trace is not cut short has that trace's outcome. -/
theorem next_runEvents {t : List Event} {s : State} {ls : Lines} (hc : Event.clr ∉ t) (hu : s.uncut t = true)
    (hl : s.lines.after t = ls) :
    (.next (s.runEvents t) : Result) = .next (s.outcome ls t) := by
  rw [State.runEvents_outcome t s hc hu, hl]

/-- Settles O15: the pulse's trace, and its end levels (`after_pulseTrace`). -/
theorem pulseRaisesAndLowersItsClock : Obligations.PulseRaisesAndLowersItsClock := by
  rintro c s _ rfl hu
  exact next_runEvents (clr_notMem_pulseTrace c) hu (after_pulseTrace s.lines c)

/-- The operation of a command (R72). -/
def Command.toInstr : Command → Instr
  | .dataLatch => .cmdDataLatch
  | .vsync => .cmdVsync
  | .writeConfig => .cmdWriteConfig
  | .reset => .cmdReset
  | .preActive => .cmdPreActive

theorem exec_command (c : Command) (s : State) : exec c.toInstr s = .next (s.runEvents (cmdTrace c)) := by
  cases c <;> rfl

/-- Settles O18: the five commands are one procedure with five pulse counts. -/
theorem commandsSendTheirPulseCount : Obligations.CommandsSendTheirPulseCount := by
  intro i n hmem
  obtain ⟨c, rfl, rfl⟩ : ∃ c : Command, i = c.toInstr ∧ n = c.count := by
    simp only [List.mem_cons, Prod.mk.injEq, List.not_mem_nil, or_false] at hmem
    obtain ⟨rfl, rfl⟩ | ⟨rfl, rfl⟩ | ⟨rfl, rfl⟩ | ⟨rfl, rfl⟩ | ⟨rfl, rfl⟩ := hmem
    exacts [⟨.dataLatch, rfl, rfl⟩, ⟨.vsync, rfl, rfl⟩, ⟨.writeConfig, rfl, rfl⟩, ⟨.reset, rfl, rfl⟩,
      ⟨.preActive, rfl, rfl⟩]
  rintro s _ rfl hu
  refine ⟨?_, length_cmdTrace c, writeCount_cmdTrace c⟩
  rw [exec_command]
  exact next_runEvents (clr_notMem_cmdTrace c) hu (after_cmdTrace s.lines c)

/-- Settles O20: the configuration frame's trace, its end levels (`after_cfgTrace`) and its length. -/
theorem configShiftsTheWordMostSignificantBitFirst : Obligations.ConfigShiftsTheWordMostSignificantBitFirst := by
  intro v s t ht hu
  have trace : t = cfgTrace s.params v := by
    rw [ht, cfgTrace, show countDown 16 = [15, 14, 13, 12, 11, 10, 9, 8, 7, 6, 5, 4, 3, 2, 1, 0] by decide]
    rfl
  subst trace
  exact ⟨next_runEvents (clr_notMem_cfgTrace _ v) hu (after_cfgTrace s.lines _ v), length_cfgTrace _ v⟩

/-- The address on the four lines is the one written (R77). -/
theorem Lines.address_bits (ls : Lines) (a : BitVec 4) :
    ({ ls with a0 := a.getLsbD 0, a1 := a.getLsbD 1, a2 := a.getLsbD 2, a3 := a.getLsbD 3 } : Lines).address =
      a.toNat := by
  have bits : ∀ a : BitVec 4, (a.getLsbD 0).toNat + 2 * (a.getLsbD 1).toNat + 4 * (a.getLsbD 2).toNat +
    8 * (a.getLsbD 3).toNat = a.toNat := by decide
  exact bits a

/-- Settles O22: the four writes of the address, in order. -/
theorem scanDrivesTheAddress : Obligations.ScanDrivesTheAddress := by
  rintro a s _ ha rfl hu
  refine ⟨_, ?_, Lines.address_bits s.lines a, rfl⟩
  rw [exec, execScan, if_pos (scanlineLegal_of_le ha)]
  exact next_runEvents (clr_notMem_scanTrace a.toNat) hu rfl

/-- Settles O23: the guards of the four procedures on their scanline, and of the symbol on its IC. -/
theorem scanlinesAboveTenAreRefused : Obligations.ScanlinesAboveTenAreRefused := by
  intro a ic plane led s
  refine ⟨fun ha => ?_, fun ha hic => ?_⟩
  · have illegal := scanlineLegal_of_lt ha
    simp [exec, execScan, execSdata, execSdataSymbol, execScanPeriod, illegal]
  · simp [exec, execSdataSymbol, scanlineLegal_of_le ha, icLegal_of_lt hic]

/-- Settles O24: the symbol's writes and its clock, LE around the last symbol's (`lastSymbol_toNat`). -/
theorem symbolDrivesTheBitsOfItsPlane : Obligations.SymbolDrivesTheBitsOfItsPlane := by
  rintro sl ic plane led s _ _ t ha hic rfl rfl ht hu
  have trace : t = symbolTrace s.params s.fb sl.toNat ic.toNat plane.toNat led.toNat := by
    rw [ht, symbolTrace, symbolClock, lastSymbol_toNat]
    simp only [decide_eq_true_eq]
    rfl
  subst trace
  rw [exec, execSdataSymbol, if_pos (scanlineLegal_of_le ha), if_pos (icLegal_of_le hic)]
  refine next_runEvents (clr_notMem_symbolTrace _ _ _ _ _ _) hu ?_
  rw [after_symbolTrace, lastSymbol_toNat]
  simp only [decide_eq_true_eq]
  rfl

/-- Settles O25: SDATA's trace, its end levels (`after_sdataTrace`) and its length. -/
theorem scanlineDataSendsAllSymbols : Obligations.ScanlineDataSendsAllSymbols := by
  rintro sl s _ _ ha rfl rfl hu
  refine ⟨?_, length_sdataTrace ..⟩
  rw [exec, execSdata, if_pos (scanlineLegal_of_le ha)]
  exact next_runEvents (clr_notMem_sdataTrace _ _ _) hu (after_sdataTrace ..)

/-- Settles O29: the scan period's trace, its end levels (`after_scanPeriodTrace`) and its length. -/
theorem scanPeriodAddressesAndClocksARow : Obligations.ScanPeriodAddressesAndClocksARow := by
  intro sl s t ha ht hu
  have last : lastScanline sl.toNat = decide (sl = 10) := lastScanline_toNat sl
  have trace : t = scanPeriodTrace sl.toNat := by
    rw [ht, scanPeriodTrace, last]
    simp only [decide_eq_true_eq, List.append_assoc]
    rfl
  subst trace
  rw [exec, execScanPeriod, if_pos (scanlineLegal_of_le ha)]
  refine ⟨next_runEvents (clr_notMem_scanPeriodTrace _) hu ?_, ?_⟩
  · rw [after_scanPeriodTrace, last]
    simp only [decide_eq_true_eq]
    rfl
  · have hten : sl.toNat = 10 ↔ sl = 10 := by simpa [lastScanline] using last
    simp only [length_scanPeriodTrace, hten]

/-- AN OPERATION THAT IS ONE TRACE runs that trace, which holds no `CLR` (R18). -/
theorem exec_of_procedureTrace {i : Instr} {s : State} {t : List Event} (h : procedureTrace s.params s.fb i = some t) :
    exec i s = .next (s.runEvents t) ∧ Event.clr ∉ t := by
  cases i <;> simp only [procedureTrace, Option.some.injEq, reduceCtorEq, Option.ite_none_right_eq_some] at h
  case cmdDataLatch => subst h; exact ⟨rfl, clr_notMem_cmdTrace _⟩
  case cmdVsync => subst h; exact ⟨rfl, clr_notMem_cmdTrace _⟩
  case cmdWriteConfig => subst h; exact ⟨rfl, clr_notMem_cmdTrace _⟩
  case cmdReset => subst h; exact ⟨rfl, clr_notMem_cmdTrace _⟩
  case cmdPreActive => subst h; exact ⟨rfl, clr_notMem_cmdTrace _⟩
  case cfg v => subst h; exact ⟨rfl, clr_notMem_cfgTrace _ v⟩
  case scan a =>
    obtain ⟨legal, rfl⟩ := h
    exact ⟨if_pos legal, clr_notMem_scanTrace _⟩
  case sdata sl =>
    obtain ⟨legal, rfl⟩ := h
    exact ⟨if_pos legal, clr_notMem_sdataTrace _ _ _⟩
  case sdataSymbol sl ic plane led =>
    obtain ⟨legal, rfl⟩ := h
    obtain ⟨hsl, hic⟩ := Bool.and_eq_true_iff.1 legal
    exact ⟨(if_pos hsl).trans (if_pos hic), clr_notMem_symbolTrace _ _ _ _ _ _⟩
  case scanPeriod sl =>
    obtain ⟨legal, rfl⟩ := h
    exact ⟨if_pos legal, clr_notMem_scanPeriodTrace _⟩
  case w l v => subst h; exact ⟨congrArg Host.Outcome.next (s.runEvents_singleton _).symm, by simp⟩
  case h k => subst h; exact ⟨congrArg Host.Outcome.next (s.runEvents_singleton _).symm, by simp⟩
  case pulse c => subst h; exact ⟨rfl, clr_notMem_pulseTrace c⟩

/-- Settles O17: an operation that is one trace is cut as that trace is (`State.runEvents_aborted`). -/
theorem initAbortIsPrecise : Obligations.InitAbortIsPrecise := by
  intro i s pre post l v htrace hin hno hfail
  obtain ⟨run, hc⟩ := exec_of_procedureTrace htrace
  rw [run, State.runEvents_aborted pre post l v s (fun h => hc (List.mem_append_left _ h)) hin hno hfail,
    Lines.after_append]
  rfl

end Sys2Proof.Machine
end

/-! One event by itself, and one step by itself: every field of the next state (R19, R100, R101, R140, R150, R182). -/
section

namespace Sys2Proof.Machine

/-- A line write that does not fail (R100). -/
theorem State.emit_w_of_success {s : State} (h : s.answerFails = false) (l : Line) (v : Bool) :
    s.emit (.w l v) = { s with
      lines := s.lines.set l v
      emitted := .w l v :: s.emitted
      wrFail := if s.params.gpioFallible then s.wrFail.tail else s.wrFail } := by
  refine State.eq_of ?_ ?_ ?_ ?_ ?_ ?_ ?_ ?_ ?_ ?_ ?_ ?_ ?_ ?_ <;> simp [State.fatal, Event.isWrite, h]

/-- A line write that fails outside INIT (R182). -/
theorem State.emit_w_of_steady_failure {s : State} (h : s.answerFails = true) (hin : s.inInit = false) (l : Line)
    (v : Bool) :
    s.emit (.w l v) = { s with
      lines := s.lines.set l v
      emitted := .w l v :: s.emitted
      wrFail := s.wrFail.tail
      errSteady := true } := by
  refine State.eq_of ?_ ?_ ?_ ?_ ?_ ?_ ?_ ?_ ?_ ?_ ?_ ?_ ?_ ?_ <;>
    simp [State.fatal, Event.isWrite, h, hin, State.gpioFallible_of_answerFails h]

/-- A line write that fails in INIT (R181, R184). -/
theorem State.emit_w_of_fatal {s : State} {l : Line} {v : Bool} (hf : s.fatal (.w l v) = true) :
    s.emit (.w l v) = { s with
      lines := s.lines.set l v
      errInit := true
      lifecycle := .initFailed
      busy := false
      emitted := .w l v :: s.emitted
      wrFail := s.wrFail.tail } := by
  obtain ⟨-, ha, hb, hop⟩ := State.fatal_iff.1 hf
  refine State.eq_of ?_ ?_ ?_ ?_ ?_ ?_ ?_ ?_ ?_ ?_ ?_ ?_ ?_ ?_ <;>
    simp [Event.isWrite, hf, State.inInit, hb, hop, State.gpioFallible_of_answerFails ha]

/-- Settles O11: the write's one line, its answer and its event. -/
theorem lineWriteSetsThatLineOnly : Obligations.LineWriteSetsThatLineOnly := by
  intro l v s h
  have hstate := State.emit_w_of_success h l v
  refine ⟨_, rfl, fun k => ?_, ?_, by simp [State.failureCode, h]⟩
  · rw [State.emit_lines]
    exact Lines.get_after_singleton s.lines (.w l v) k
  · rw [State.emit_lines]
    exact hstate

/-- Settles O12: as a write that succeeds, but for `ERR_STEADY`. -/
theorem failedWriteOutsideInitIsLogged : Obligations.FailedWriteOutsideInitIsLogged := fun l v s h hin =>
  ⟨congrArg Host.Outcome.next (State.emit_w_of_steady_failure h hin l v),
    (s.failureCode_eq_two _).2 (by simp [Event.isWrite, h, hin])⟩

/-- Settles O13: the write is fatal, so that the busy step is its event and no more. -/
theorem failedWriteInInitEndsIt : Obligations.FailedWriteInInitEndsIt := by
  intro l v s hr hb hop he h
  have hf : s.fatal (.w l v) = true := State.fatal_iff.2 ⟨rfl, h, hb, hop⟩
  refine ⟨?_, (s.failureCode_eq_one _).2 hf⟩
  rw [step_busy hr hb he, if_pos hf, State.emit_w_of_fatal (s := s.consume) hf]
  rfl

/-- Settles O14: a hold is recorded, and that is all. -/
theorem holdChangesNoState : Obligations.HoldChangesNoState := fun _ _ => ⟨rfl, rfl⟩

/-- Settles O16: the cleared buffer reads zero everywhere (`Memory.fbRead_clear`). -/
theorem clrClearsTheFrameBuffer : Obligations.ClrClearsTheFrameBuffer := fun s =>
  ⟨_, rfl, Memory.fbRead_clear s.fb, rfl, rfl⟩

/-- Settles O4: a word that decodes is a word, so that the idle step decodes and runs it. -/
theorem idleStepRunsThePortInstruction : Obligations.IdleStepRunsThePortInstruction := by
  intro s i hr hb hd
  have word : s.input.port.isEmpty = false := by
    cases hp : s.input.port with
    | nil => rw [hp] at hd; cases hd
    | cons b bs => rfl
  simp [step, cycle, idleStep, hr, hb, word, hd]

/-- Settles O7: with no word on the port the idle step takes the inputs off the list. -/
theorem idleStepWithoutRequestChangesNothing : Obligations.IdleStepWithoutRequestChangesNothing := by
  intro s hin hb
  simp [step, cycle, idleStep, hin, hb, State.consume]

/-- Settles O6: the lifecycle's moments, and the end test against the trace's length. -/
theorem advanceMovesThePosition : Obligations.AdvanceMovesThePosition := by
  intro s
  refine ⟨?_, fun hlt => ?_⟩
  · refine State.eq_of rfl ?_ rfl rfl rfl rfl rfl rfl rfl rfl rfl rfl rfl rfl
    rw [State.advance_lifecycle]
    cases hop : s.op <;> simp [lifecycleAfter]
  · rw [State.advance_busy, State.toNat_idx_add_one hlt]
    simp

/-- A pixel that nothing has written since a reset holds the free value of that reset (R40). -/
theorem fbRead_powerOn (n : Nat) {x y : Nat} (hg : inGrid x y = true) :
    (⟨.powerOn n, []⟩ : Memory).fbRead x y = Config.fbReset n x y := by
  obtain ⟨hx, hy⟩ := inGrid_iff.1 hg
  rw [Memory.fbRead, if_pos hg]
  show Config.fbReset n (pixelKey x y % 88) (pixelKey x y / 88) = Config.fbReset n x y
  rw [show pixelKey x y % 88 = x by simp only [pixelKey]; omega,
    show pixelKey x y / 88 = y by simp only [pixelKey]; omega]

/-- Settles O8: the step is a hardware reset, which gives every field its value. -/
theorem resetGivesTheResetValues : Obligations.ResetGivesTheResetValues := by
  intro s hr
  refine ⟨s.consume.hardwareReset, by simp [step, cycle, hr], fun l => by cases l <;> rfl, rfl, rfl, rfl, rfl, rfl, rfl,
    rfl, fun x y hg => fbRead_powerOn _ hg, rfl, ?_, rfl, rfl, rfl, rfl, rfl⟩
  simp [State.status, Lifecycle.code]

/-- Settles O9: the start state's fields, of which only the buffer has to be read. -/
theorem theStartStateHasTheResetValues : Obligations.TheStartStateHasTheResetValues :=
  ⟨fun l => by cases l <;> rfl, rfl, rfl, rfl, rfl, rfl, rfl, rfl, rfl, rfl, fun _ _ hg => fbRead_powerOn 0 hg⟩

/-- Settles O30: an idle block starts what its lifecycle admits. -/
theorem admittedRequestsStartTheirOperation : Obligations.AdmittedRequestsStartTheirOperation := by
  intro s hb
  have admitted (op : Op) {p : Prop} [Decidable p] (h : p) : s.request op (decide p) = s.start op := by
    simp [State.request, hb, h]
  exact ⟨fun h => congrArg Host.Outcome.next (admitted .init h), fun h => congrArg Host.Outcome.next (admitted .refresh h),
    fun h => congrArg Host.Outcome.next (admitted .teardown h)⟩

/-- Settles O32: each operation of the host but the read looks at `BUSY` first. -/
theorem nothingIsAcceptedWhileBusy : Obligations.NothingIsAcceptedWhileBusy := by
  intro i s hi hread hb
  have request (op : Op) (admitted : Bool) : s.request op admitted = s := if_pos hb
  have write (fb : Memory) : s.hostWrite fb = s := if_pos hb
  cases i
  case init => exact congrArg Host.Outcome.next (request ..)
  case refresh => exact congrArg Host.Outcome.next (request ..)
  case teardown => exact congrArg Host.Outcome.next (request ..)
  case reqReserved => rfl
  case clear => exact congrArg Host.Outcome.next (write _)
  case setpx => exact congrArg Host.Outcome.next (write _)
  case fillrect => exact congrArg Host.Outcome.next (write _)
  case text cs => exact if_pos hb
  case fbread x y => exact absurd rfl (hread x y)
  all_goals cases hi

/-- Settles O50: the guarded read, its guard written out. -/
theorem frameBufferReadIsGuarded : Obligations.FrameBufferReadIsGuarded := by
  intro x y s
  have guard : s.fb.fbRead x y = if x < 88 ∧ y < 88 then s.fb.get (y * 88 + x) else Pixel.zero :=
    if_congr inGrid_iff rfl rfl
  rw [← guard]
  rfl

/-- Three flags above a field of three bits, each read back from its place. -/
theorem status_fields : ∀ (steady init busy : Bool) (code : BitVec 3),
    let status := BitVec.ofBool steady ++ BitVec.ofBool init ++ BitVec.ofBool busy ++ code
    status.extractLsb' 0 3 = code ∧ status.getLsbD 3 = busy ∧ status.getLsbD 4 = init ∧ status.getLsbD 5 = steady := by
  decide

/-- Settles O51: STATUS is its flags above the lifecycle's code (`status_fields`). -/
theorem statusFieldsAreInPlace : Obligations.StatusFieldsAreInPlace := by
  intro s
  obtain ⟨code, busy, errInit, errSteady⟩ := status_fields s.errSteady s.errInit s.busy s.lifecycle.code
  exact ⟨code, busy, errInit, errSteady, by cases s.lifecycle <;> rfl⟩

end Sys2Proof.Machine
end

/-! The run of an operation from its acceptance to its end (R142, R144, R147, R153). -/
section

namespace Sys2Proof.Machine

/-- A run begins with a step. -/
theorem core_run_succ (M : Host.Core) {s t : M.State} (h : M.step s = .next t) (k : Nat) : M.run (k + 1) s = M.run k t := by
  rw [Host.Core.run, h]

theorem run_succ {s t : State} (h : step s = .next t) (k : Nat) :
    Sys2Proof.core.run (k + 1) s = Sys2Proof.core.run k t :=
  core_run_succ Sys2Proof.core h k

/-- Inputs without reset: so is the one at hand, and so are those behind it. -/
theorem rst_of_take {s : State} {n : Nat} (h : ∀ x ∈ s.inputs.take (n + 1), x.rst = false) :
    s.input.rst = false ∧ ∀ x ∈ s.inputs.tail.take n, x.rst = false := by
  cases hin : s.inputs with
  | nil => simp [State.input, hin, StepInput.none]
  | cons x rest =>
    rw [hin, List.take_succ_cons] at h
    exact ⟨by simpa [State.input, hin] using h x List.mem_cons_self, fun y hy => h y (List.mem_cons_of_mem x hy)⟩

/-- An event takes no notice of the inputs. -/
theorem State.emit_consume (s : State) (e : Event) : s.consume.emit e = (s.emit e).consume := by
  have lifecycle : (s.consume.emit e).lifecycle = (s.emit e).lifecycle := by
    rw [State.emit_lifecycle, State.emit_lifecycle]
    rfl
  refine State.eq_of ?_ lifecycle ?_ ?_ ?_ ?_ ?_ ?_ ?_ ?_ ?_ ?_ ?_ ?_ <;> simp

/-- A trace that is not cut short is not cut at its first event, nor after it (R184). -/
theorem State.uncut_cons {s : State} {e : Event} {t : List Event} (h : s.uncut (e :: t) = true) :
    s.fatal e = false ∧ (s.emit e).uncut t = true := by
  have hf : s.fatal e = false := by
    rw [← Bool.not_eq_true]
    intro hf
    obtain ⟨hw, ha, hb, hop⟩ := State.fatal_iff.1 hf
    obtain ⟨l, v, rfl⟩ := Event.exists_of_isWrite hw
    have hin : s.inInit = true := by simp [State.inInit, hb, hop]
    have hfails : s.someFails (writeCount (.w l v :: t)) = true := by
      simp only [State.answerFails, Bool.and_eq_true] at ha
      simp only [State.someFails, writeCount_w, any_take_succ, ha, Bool.true_or, Bool.and_self]
    rw [State.uncut, hin, hfails] at h
    cases h
  refine ⟨hf, ?_⟩
  have hin : (s.emit e).inInit = s.inInit := by simp [State.inInit, hf]
  simp only [State.uncut, State.someFails, hin, State.emit_params, State.emit_wrFail] at h ⊢
  cases e with
  | h k => simpa [Event.isWrite] using h
  | clr => simpa [Event.isWrite] using h
  | w l v =>
    rw [writeCount_w, any_take_succ] at h
    cases hg : s.params.gpioFallible <;> cases ha : s.wrFail.headD false <;> simp_all [Event.isWrite]

/-- The outcome of a trace is that of its first event and then of the rest (R62). -/
theorem State.outcome_cons {s : State} {e : Event} {t : List Event} (hc : Event.clr ∉ e :: t)
    (hu : s.uncut (e :: t) = true) :
    s.outcome (s.lines.after (e :: t)) (e :: t) = (s.emit e).outcome ((s.emit e).lines.after t) t := by
  obtain ⟨hf, hu'⟩ := State.uncut_cons hu
  rw [← State.runEvents_outcome _ _ hc hu, State.runEvents_cons hf,
    State.runEvents_outcome _ _ (fun h => hc (List.mem_cons_of_mem e h)) hu']

theorem State.outcome_nil (s : State) : s.outcome s.lines [] = s := by
  cases s
  simp [State.outcome, State.someFails]

/-- The state after the rest `t` of the running operation's trace: its outcome, the lifecycle of the operation's end, the
position behind the trace, and a step's inputs taken for each event (R35). -/
def State.finished (s : State) (t : List Event) : State :=
  { s.outcome (s.lines.after t) t with
    lifecycle := lifecycleAfter s.op (s.op.traceLength - 1) s.lifecycle
    idx := BitVec.ofNat 20 s.op.traceLength
    busy := false
    inputs := s.inputs.drop t.length }

/-- The lifecycle at an operation's end does not depend on what earlier events made of it. -/
theorem lifecycleAfter_last (op : Op) (i : Nat) (l : Lifecycle) :
    lifecycleAfter op (op.traceLength - 1) (lifecycleAfter op i l) = lifecycleAfter op (op.traceLength - 1) l := by
  cases op <;> rfl

/-- The next state of a running operation, written out. -/
theorem State.runNext_eq {s : State} {e : Event} (hf : s.fatal e = false) :
    s.runNext e = { s.emit e with
      lifecycle := lifecycleAfter s.op s.idx.toNat s.lifecycle
      idx := s.idx + 1
      busy := decide ((s.idx + 1).toNat ≠ s.op.traceLength)
      inputs := s.inputs.tail } := by
  rw [State.runNext, State.emit_consume]
  refine State.eq_of rfl ?_ ?_ rfl rfl rfl ?_ rfl rfl ?_ rfl rfl rfl rfl <;> simp [hf]

/-- Finishing after the next event is finishing now. -/
theorem State.finished_runNext {s : State} {e : Event} {t : List Event} (hc : Event.clr ∉ e :: t)
    (hu : s.uncut (e :: t) = true) : (s.runNext e).finished t = s.finished (e :: t) := by
  obtain ⟨hf, -⟩ := State.uncut_cons hu
  have hop : (s.emit e).op = s.op := State.emit_op s e
  rw [State.finished, State.finished, State.outcome_cons hc hu, State.runNext_eq hf]
  simp only [State.outcome, hop, lifecycleAfter_last, List.drop_tail, List.length_cons]
  rfl

/-- The last event finishes the operation. -/
theorem State.runNext_last {s : State} {e : Event} (hc : Event.clr ∉ [e]) (hu : s.uncut [e] = true)
    (hlast : s.idx.toNat + 1 = s.op.traceLength) : s.runNext e = s.finished [e] := by
  obtain ⟨hf, -⟩ := State.uncut_cons hu
  have hidx : s.idx + 1 = BitVec.ofNat 20 s.op.traceLength := by
    rw [← hlast, BitVec.ofNat_add, BitVec.ofNat_toNat, BitVec.setWidth_eq]
    rfl
  have htoNat : (s.idx + 1).toNat = s.op.traceLength := (State.toNat_idx_add_one (by omega)).trans hlast
  rw [State.finished, State.outcome_cons hc hu, Lines.after_nil, State.outcome_nil, State.runNext_eq hf, htoNat,
    ← hidx, show s.op.traceLength - 1 = s.idx.toNat by omega]
  refine State.eq_of rfl rfl ?_ rfl rfl rfl rfl rfl rfl ?_ rfl rfl rfl rfl
  · exact decide_eq_false fun h => h rfl
  · exact List.drop_one.symm

/-- THE RUN OF WHAT IS LEFT OF A TRACE that holds no `CLR` and is not cut short: one step for each event (R150, R153). -/
theorem run_remaining (t : List Event) {s : State} (hb : s.busy = true) (hrem : s.remaining = t) (hne : t ≠ [])
    (hc : Event.clr ∉ t) (hu : s.uncut t = true) (hr : ∀ x ∈ s.inputs.take t.length, x.rst = false) :
    Sys2Proof.core.run t.length s = .next (s.finished t) := by
  induction t generalizing s with
  | nil => exact absurd rfl hne
  | cons e t ih =>
    have he := State.nextEvent_of_remaining hrem
    obtain ⟨hf, hu'⟩ := State.uncut_cons hu
    obtain ⟨hr0, hr'⟩ := rst_of_take hr
    have hstep : step s = .next (s.runNext e) := by
      rw [step_busy hr0 hb he, hf]
      rfl
    have hrem' : (s.runNext e).remaining = t :=
      (List.cons.inj ((State.remaining_eq_cons_runNext he).symm.trans hrem)).2
    have hlen : t.length = s.op.traceLength - (s.idx.toNat + 1) := by
      rw [← hrem', State.remaining, State.opTrace_runNext he, State.runNext_idx he, List.length_drop, length_opTrace]
    have hlt := State.idx_lt_of_nextEvent he
    rw [List.length_cons, run_succ hstep]
    by_cases hend : t = []
    · subst hend
      rw [List.length_nil] at hlen
      rw [State.runNext_last hc hu (by omega)]
      rfl
    · have hpos := List.length_pos_iff.2 hend
      have hu'' : (s.runNext e).uncut t = true := by
        have hb' : (s.emit e).busy = true := by simp [hb, hf]
        have hbn : (s.runNext e).busy = true := (State.runNext_busy he).2 (by omega)
        rw [← hu', State.uncut, State.uncut, State.inInit, State.inInit, hb', hbn, State.runNext_op, State.emit_op,
          State.runNext, State.emit_consume]
        rfl
      rw [ih ((State.runNext_busy he).2 (by omega)) hrem' hend (fun h => hc (List.mem_cons_of_mem e h)) hu''
        (by rw [State.runNext_inputs]; exact hr'), State.finished_runNext hc hu]

/-- Started, an operation has all of its trace before it. -/
theorem State.remaining_start (s : State) (op : Op) : (s.start op).remaining = opTrace op s.params s.fb := by
  rw [State.remaining, State.start_idx]
  exact List.drop_zero

/-- An idle block with a request on the port that its lifecycle admits starts the operation (R35, R150). -/
theorem step_request {s : State} {i : Instr} {op : Op} {rest : List StepInput} (hb : s.busy = false)
    (hin : s.inputs = ⟨false, encode i⟩ :: rest) (hi : i.wellFormed = true)
    (hstart : exec i s.consume = .next (s.consume.start op)) :
    step s = .next (s.consume.start op) ∧ (s.consume.start op).inputs = rest := by
  have hinput : s.input = ⟨false, encode i⟩ := by rw [State.input, hin]; rfl
  refine ⟨?_, by rw [State.start_inputs, State.consume_inputs, hin]; rfl⟩
  rw [idleStepRunsThePortInstruction s i (by rw [hinput]) hb
    (by rw [hinput]; exact decodeOfEncodeIsTheInstruction i hi)]
  exact hstart

/-- THE RUN OF AN OPERATION whose trace holds no `CLR` and is not cut short: its acceptance and its events (R153). -/
theorem run_operation {s : State} {op : Op} (hstep : step s = .next (s.consume.start op)) {t : List Event} {n : Nat}
    (ht : opTrace op s.params s.fb = t) (hn : t.length = n) (hpos : 0 < n) (hc : Event.clr ∉ t)
    (hu : (s.consume.start op).uncut t = true) (hr : ∀ x ∈ (s.consume.start op).inputs.take n, x.rst = false) :
    Sys2Proof.core.run (n + 1) s = .next ((s.consume.start op).finished t) := by
  subst hn
  exact (run_succ hstep _).trans
    (run_remaining t rfl ((State.remaining_start _ _).trans ht) (List.length_pos_iff.1 hpos) hc hu hr)

/-- The end of an operation that an idle block has run, every field of it. -/
theorem State.finished_start {s : State} (hb : s.busy = false) (op : Op) (t : List Event) :
    (s.consume.start op).finished t = { s with
      lines := s.lines.after t
      lifecycle := lifecycleAfter op (op.traceLength - 1) s.lifecycle
      errSteady := s.errSteady || s.someFails (writeCount t)
      op := op
      idx := BitVec.ofNat 20 op.traceLength
      inputs := s.inputs.tail.drop t.length
      wrFail := if s.params.gpioFallible then s.wrFail.drop (writeCount t) else s.wrFail
      emitted := t.reverse ++ s.emitted } :=
  State.eq_of rfl rfl hb.symm rfl rfl rfl rfl rfl rfl rfl rfl rfl rfl rfl

/-- Settles O41: the request's step, and then the run of INIT's trace. -/
theorem initRunsToConfigured : Obligations.InitRunsToConfigured := by
  intro s rest hb hl hin hr hfail
  obtain ⟨hstep, hrest⟩ := step_request hb hin rfl ((admittedRequestsStartTheirOperation s.consume hb).1 hl)
  have hwrites := (eventCounts_initTrace s.params).1
  have hfail' : (s.consume.start .init).someFails 114 = false := hfail
  have hrun := run_operation hstep (t := initTrace s.params) rfl (length_initTrace s.params) (by omega)
    (clr_notMem_initTrace _) (by rw [State.uncut, hwrites, hfail', Bool.not_false, Bool.or_true]) (hrest ▸ hr)
  rw [hrun, State.finished_start hb, after_initTrace, hwrites, hfail, length_initTrace, Bool.or_false]
  subst hrest
  rfl

/-- Settles O42: the request's step, and then the run of REFRESH's trace, which no failed write cuts short. -/
theorem refreshRunsToItsEnd : Obligations.RefreshRunsToItsEnd := by
  rintro s rest _ hb hl hin hr rfl
  obtain ⟨hstep, hrest⟩ := step_request hb hin rfl ((admittedRequestsStartTheirOperation s.consume hb).2.1 hl)
  have hwrites := (eventCounts_refreshTrace s.params s.fb).1
  have hrun := run_operation hstep (t := refreshTrace s.params s.fb) rfl (length_refreshTrace s.params s.fb) (by omega)
    (clr_notMem_refreshTrace _ _) rfl (hrest ▸ hr)
  rw [hrun, State.finished_start hb, after_refreshTrace, hwrites, length_refreshTrace]
  subst hrest
  rfl

/-- Settles O43: the request's step, the step of the `CLR`, and then the run of the lowering of the lines. -/
theorem teardownRunsToItsEnd : Obligations.TeardownRunsToItsEnd := by
  intro s rest hb hl hin hr
  obtain ⟨hstep, hrest⟩ := step_request hb hin rfl ((admittedRequestsStartTheirOperation s.consume hb).2.2 hl)
  have hnext : (s.consume.start .teardown).nextEvent = some .clr := rfl
  obtain ⟨hr0, hr'⟩ := rst_of_take (s := s.consume.start .teardown) (n := 13) (hrest ▸ hr)
  have hclr := step_busy hr0 rfl hnext
  have hrem := (State.remaining_eq_cons_runNext hnext).symm.trans (State.remaining_start _ _)
  have hrun := run_remaining teardownTrace.tail (s := (s.consume.start .teardown).runNext .clr) rfl
    (List.cons.inj hrem).2 nofun clr_notMem_teardownTrace_tail rfl hr'
  refine ⟨_, (run_succ hstep 14).trans ((run_succ hclr 13).trans hrun), Memory.fbRead_clear s.fb, ?_⟩
  refine State.eq_of rfl rfl hb.symm rfl rfl rfl rfl rfl rfl ?_ rfl rfl rfl rfl
  subst hrest
  exact List.drop_tail

end Sys2Proof.Machine
end

/-! TEXT of an idle block: the pixels it sets, where it is cut, when it is refused (R164, R165, U7). -/
section

namespace Sys2Proof.Machine

/-- From `m` to `m'` the pixels of `S` have become white and the others are as they were. -/
def Draws (m m' : Memory) (S : Nat → Nat → Prop) : Prop :=
  ∀ x y, (S x y → m'.fbRead x y = Pixel.white) ∧ (¬S x y → m'.fbRead x y = m.fbRead x y)

theorem Draws.refl (m : Memory) : Draws m m fun _ _ => False := fun _ _ => ⟨False.elim, fun _ => rfl⟩

theorem Draws.congr {m m' : Memory} {S T : Nat → Nat → Prop} (h : Draws m m' S) (hST : ∀ x y, S x y ↔ T x y) :
    Draws m m' T := fun x y => ⟨fun hT => (h x y).1 ((hST x y).2 hT), fun hT => (h x y).2 (mt (hST x y).1 hT)⟩

/-- What is drawn over a drawing adds to it. -/
theorem Draws.trans {m m' m'' : Memory} {S T : Nat → Nat → Prop} (h : Draws m m' S) (h' : Draws m' m'' T) :
    Draws m m'' fun x y => S x y ∨ T x y := by
  intro x y
  obtain ⟨white, kept⟩ := h x y
  obtain ⟨white', kept'⟩ := h' x y
  by_cases hT : T x y
  · exact ⟨fun _ => white' hT, fun hn => absurd (.inr hT) hn⟩
  · rw [kept' hT]
    exact ⟨fun hor => white (hor.resolve_right hT), fun hn => kept fun hS => hn (.inl hS)⟩

/-- A fold of drawings draws what each of them draws. -/
theorem Draws.foldl {α : Type} {f : Memory → α → Memory} {S : α → Nat → Nat → Prop}
    (keeps : ∀ m a, m.wf = true → (f m a).wf = true) (draws : ∀ m a, m.wf = true → Draws m (f m a) (S a)) (l : List α)
    {m : Memory} (hwf : m.wf = true) : Draws m (l.foldl f m) fun x y => ∃ a ∈ l, S a x y := by
  classical
  intro x y
  have step (m : Memory) (a : α) (hm : m.wf = true) :
      (f m a).fbRead x y = if S a x y then Pixel.white else m.fbRead x y := by
    split
    · exact (draws m a hm x y).1 (by assumption)
    · exact (draws m a hm x y).2 (by assumption)
  rw [Memory.fbRead_foldl keeps step l hwf]
  exact ⟨fun h => if_pos h, fun h => if_neg h⟩

/-- A cell of a glyph that is set draws its pixel, if it lies in the grid (R165). -/
theorem draws_cell {m : Memory} (hwf : m.wf = true) (set : Bool) (u v : Nat) :
    Draws m (if set then m.fbWrite u v Pixel.white else m) fun x y =>
      set = true ∧ inGrid u v = true ∧ x = u ∧ y = v := by
  cases set with
  | false => exact (Draws.refl m).congr fun x y => by simp
  | true =>
    intro x y
    have cond : (inGrid u v && x == u && y == v) = true ↔ true = true ∧ inGrid u v = true ∧ x = u ∧ y = v := by
      simp [and_assoc]
    rw [if_pos rfl, Memory.fbRead_fbWrite hwf]
    exact ⟨fun h => if_pos (cond.2 h), fun h => if_neg (mt cond.1 h)⟩

/-- The cells of a row of a glyph (R164). -/
theorem draws_glyphRow {m : Memory} (hwf : m.wf = true) (g : List (List Bool)) (gw left top cy : Nat) :
    Draws m (m.drawGlyphRow g gw left top cy) fun x y => ∃ cx ∈ List.range gw,
      glyphCell g cx cy = true ∧ inGrid (left + cx) (top + cy) = true ∧ x = left + cx ∧ y = top + cy :=
  Draws.foldl (fun _ cx hm => by split; exacts [Memory.wf_fbWrite hm _ _ _, hm])
    (fun _ cx hm => draws_cell hm (glyphCell g cx cy) (left + cx) (top + cy)) _ hwf

/-- The cells of a glyph (R164). -/
theorem draws_glyph {m : Memory} (hwf : m.wf = true) (g : List (List Bool)) (gw gh left top : Nat) :
    Draws m (m.drawGlyph g gw gh left top) fun x y => ∃ cy ∈ List.range gh, ∃ cx ∈ List.range gw,
      glyphCell g cx cy = true ∧ inGrid (left + cx) (top + cy) = true ∧ x = left + cx ∧ y = top + cy :=
  Draws.foldl (fun _ _ hm => Memory.wf_drawGlyphRow hm _ _ _ _ _) (fun _ cy hm => draws_glyphRow hm g gw left top cy) _
    hwf

/-- The pixels that a character drawn at `left` sets: the set cells of its glyph, if it has one (R164, R165). -/
def CharSets (p : Params) (ch : Char) (left x y : Nat) : Prop :=
  ∃ g cx cy, glyphOf p ch = some g ∧ cx < p.glyphWidth ∧ cy < p.glyphHeight ∧ glyphCell g cx cy = true ∧
    x = left + cx ∧ y = textTop p + cy

/-- A character drawn at `left`: its glyph, or nothing (R165). -/
def Memory.drawChar (m : Memory) (p : Params) (left : Nat) (ch : Char) : Memory :=
  match glyphOf p ch with
  | none => m
  | some g => m.drawGlyph g p.glyphWidth p.glyphHeight left (textTop p)

theorem Memory.drawChars_nil (m : Memory) (p : Params) (left : Nat) : m.drawChars p left [] = m := rfl

theorem Memory.drawChars_cons (m : Memory) (p : Params) (left : Nat) (ch : Char) (cs : List Char) :
    m.drawChars p left (ch :: cs) =
      if left + p.glyphWidth + p.glyphWidth > 88 then m
      else (m.drawChar p left ch).drawChars p (left + p.glyphWidth + 1) cs := rfl

theorem Memory.wf_drawChar {m : Memory} (hwf : m.wf = true) (p : Params) (left : Nat) (ch : Char) :
    (m.drawChar p left ch).wf = true := by
  unfold Memory.drawChar
  split
  · exact hwf
  · exact Memory.wf_drawGlyph hwf _ _ _ _ _

/-- A font's glyphs fit the grid from top to bottom (U7). -/
theorem glyphHeight_le_of_fontLegal {p : Params} (h : fontLegal p = true) : p.glyphHeight ≤ 88 := by
  simp only [fontLegal, Bool.and_eq_true, decide_eq_true_eq] at h
  exact h.1.1

/-- A character that is drawn fits the grid, so that all its set cells are (R165). -/
theorem draws_char {m : Memory} (hwf : m.wf = true) {p : Params} (font : fontLegal p = true) {left : Nat}
    (fits : left + p.glyphWidth + p.glyphWidth ≤ 88) (ch : Char) :
    Draws m (m.drawChar p left ch) (CharSets p ch left) := by
  have height := glyphHeight_le_of_fontLegal font
  unfold Memory.drawChar
  split
  · rename_i hg
    exact (Draws.refl m).congr fun x y => by simp [CharSets, hg]
  · rename_i g hg
    refine (draws_glyph hwf g p.glyphWidth p.glyphHeight left (textTop p)).congr fun x y => ?_
    simp only [List.mem_range]
    constructor
    · rintro ⟨cy, hcy, cx, hcx, hset, -, hx, hy⟩
      exact ⟨g, cx, cy, hg, hcx, hcy, hset, hx, hy⟩
    · rintro ⟨g', cx, cy, hg', hcx, hcy, hset, hx, hy⟩
      obtain rfl : g' = g := Option.some.inj (hg'.symm.trans hg)
      refine ⟨cy, hcy, cx, hcx, hset, inGrid_iff.2 ?_, hx, hy⟩
      simp only [textTop, Config.height]
      omega

/-- The pixels that a text sets when its first character stands at `left` (R165). -/
def TextSetsFrom (p : Params) (left : Nat) (cs : List Char) (x y : Nat) : Prop :=
  ∃ k ch, cs[k]? = some ch ∧ left + k * (p.glyphWidth + 1) + p.glyphWidth + p.glyphWidth ≤ 88 ∧
    CharSets p ch (left + k * (p.glyphWidth + 1)) x y

theorem textSets_iff {p : Params} {cs : List Char} {x y : Nat} : TextSets p cs x y ↔ TextSetsFrom p 4 cs x y := by
  constructor
  · rintro ⟨k, ch, g, cx, cy, hch, hfits, hset⟩
    exact ⟨k, ch, hch, hfits, g, cx, cy, hset⟩
  · rintro ⟨k, ch, hch, hfits, g, cx, cy, hset⟩
    exact ⟨k, ch, g, cx, cy, hch, hfits, hset⟩

theorem textSetsFrom_nil {p : Params} {left x y : Nat} : ¬TextSetsFrom p left [] x y := by
  rintro ⟨k, ch, hch, -⟩
  cases hch

/-- No character fits behind one that does not. -/
theorem textSetsFrom_of_not_fits {p : Params} {left : Nat} (h : left + p.glyphWidth + p.glyphWidth > 88)
    (cs : List Char) {x y : Nat} : ¬TextSetsFrom p left cs x y := by
  rintro ⟨k, ch, -, hfits, -⟩
  omega

/-- A text's pixels are its first character's, if that fits, and those of the rest one glyph and a column further on. -/
theorem textSetsFrom_cons {p : Params} {left : Nat} {ch : Char} {cs : List Char}
    (fits : left + p.glyphWidth + p.glyphWidth ≤ 88) {x y : Nat} :
    TextSetsFrom p left (ch :: cs) x y ↔
      CharSets p ch left x y ∨ TextSetsFrom p (left + p.glyphWidth + 1) cs x y := by
  have shift (k : Nat) : left + (k + 1) * (p.glyphWidth + 1) = left + p.glyphWidth + 1 + k * (p.glyphWidth + 1) := by
    rw [Nat.succ_mul]; omega
  constructor
  · rintro ⟨k, c, hch, hfits, hset⟩
    cases k with
    | zero =>
      obtain rfl : ch = c := by simpa using hch
      exact .inl (by simpa using hset)
    | succ k =>
      rw [shift] at hfits hset
      exact .inr ⟨k, c, hch, hfits, hset⟩
  · rintro (hset | ⟨k, c, hch, hfits, hset⟩)
    · exact ⟨0, ch, rfl, by simpa using fits, by simpa using hset⟩
    · rw [← shift] at hfits hset
      exact ⟨k + 1, c, hch, hfits, hset⟩

/-- The characters drawn from `left` on (R165). -/
theorem draws_chars {p : Params} (font : fontLegal p = true) (cs : List Char) {m : Memory} (hwf : m.wf = true)
    (left : Nat) : Draws m (m.drawChars p left cs) (TextSetsFrom p left cs) := by
  induction cs generalizing m left with
  | nil => exact (Draws.refl m).congr fun _ _ => ⟨False.elim, fun h => textSetsFrom_nil h⟩
  | cons ch cs ih =>
    rw [Memory.drawChars_cons]
    split
    · rename_i hover
      exact (Draws.refl m).congr fun _ _ => ⟨False.elim, fun h => textSetsFrom_of_not_fits hover _ h⟩
    · rename_i hfits
      have fits : left + p.glyphWidth + p.glyphWidth ≤ 88 := Nat.le_of_not_lt hfits
      exact ((draws_char hwf font fits ch).trans (ih (Memory.wf_drawChar hwf p left ch) _)).congr fun _ _ =>
        (textSetsFrom_cons fits).symm

/-- TEXT of an idle block with a legal font, or of an empty text: clear, and draw from column 4 on (R165). -/
theorem exec_text_of_idle {s : State} (hb : s.busy = false) {cs : List Char}
    (h : fontLegal s.params = true ∨ cs = []) :
    exec (.text cs) s = .next { s with fb := s.fb.clear.drawChars s.params 4 cs } := by
  have left : charLeft s.params 0 = 4 := by simp [charLeft]
  cases cs with
  | nil => simp [exec, execText, hb, State.hostWrite_of_idle hb, Memory.drawChars_nil]
  | cons ch cs =>
    have font : fontLegal s.params = true := h.resolve_right (List.cons_ne_nil ch cs)
    simp [exec, execText, hb, font, left, State.hostWrite_of_idle hb]

/-- Settles O47: drawn on a cleared buffer, a pixel is white where a drawn character has a set cell and zero elsewhere. -/
theorem textDrawsItsGlyphs : Obligations.TextDrawsItsGlyphs := by
  intro cs s hb h
  refine ⟨_, exec_text_of_idle hb h, rfl, fun x y => ?_⟩
  have drawn : Draws s.fb.clear (s.fb.clear.drawChars s.params 4 cs) (TextSetsFrom s.params 4 cs) := by
    obtain font | rfl := h
    · exact draws_chars font cs (Memory.wf_clear s.fb) 4
    · exact (Draws.refl _).congr fun _ _ => ⟨False.elim, fun h => textSetsFrom_nil h⟩
  rw [textSets_iff, ← Memory.fbRead_clear s.fb x y]
  exact drawn x y

/-- Characters behind one that does not fit are not drawn. -/
theorem Memory.drawChars_take {p : Params} (cs : List Char) (m : Memory) {left n : Nat}
    (hover : left + n * (p.glyphWidth + 1) + p.glyphWidth + p.glyphWidth > 88) :
    m.drawChars p left cs = m.drawChars p left (cs.take n) := by
  induction cs generalizing m left n with
  | nil => rw [List.take_nil]
  | cons ch cs ih =>
    cases n with
    | zero =>
      rw [Memory.drawChars_cons, if_pos (by simpa using hover)]
      rfl
    | succ n =>
      rw [List.take_succ_cons, Memory.drawChars_cons, Memory.drawChars_cons,
        ih (n := n) _ (by rw [Nat.succ_mul] at hover; omega)]

/-- The character after the first `NMAX` does not fit (R165). -/
theorem over_maxChars (p : Params) :
    4 + maxChars p * (p.glyphWidth + 1) + p.glyphWidth + p.glyphWidth > 88 := by
  rw [maxChars]
  split
  · have count : 84 - 2 * p.glyphWidth < (p.glyphWidth + 1) * ((84 - 2 * p.glyphWidth) / (p.glyphWidth + 1) + 1) :=
      Nat.lt_mul_div_succ _ (Nat.succ_pos _)
    rw [Nat.mul_comm (p.glyphWidth + 1)] at count
    omega
  · omega

/-- Settles O48: the first `NMAX` characters are all that is drawn, and drawing starts from a cleared buffer each time. -/
theorem textIsCutAtTheSameCharacter : Obligations.TextIsCutAtTheSameCharacter := by
  intro cs s hb font
  have run := exec_text_of_idle hb (cs := cs) (.inl font)
  refine ⟨?_, _, run, exec_text_of_idle (s := { s with fb := s.fb.clear.drawChars s.params 4 cs }) hb (.inl font)⟩
  rw [run, exec_text_of_idle hb (.inl font), Memory.drawChars_take cs s.fb.clear (over_maxChars s.params)]

/-- Settles O49: behind `BUSY` and the empty text, the font decides. -/
theorem textWithAFontOutsideTheGridIsRefused : Obligations.TextWithAFontOutsideTheGridIsRefused := by
  intro cs s hb font hne
  simp [exec, execText, hb, hne, font]

end Sys2Proof.Machine
end
